-- ==== Sys2Proof/Word.lean ====
section
/-! DEFINITION. The word types of SSB (spec/00_scope.md R8, spec/20_memory.md R60, R70) and the type of its
element-indexed memories. Nothing here computes a result a test could show wrong: the helpers that do stand in
Sys2Proof/Machine/. -/

namespace Sys2Proof

/-- A 32-bit word: a command word, a BUF cell, a PREV word (R8, R60, R92). -/
abbrev Word := BitVec 32

/-- A 16-bit value: a LUT cell, a PCM sample, a response's data (R8, R60, R300). -/
abbrev Half := BitVec 16

/-- A byte of a context's bit stream (R70). -/
abbrev Byte := BitVec 8

/-- An element-indexed memory (R60, R66): the written elements as pairs of an index and a value, in rising order of
the index, no index twice. What an unlisted index reads as is said where each memory is read: nothing has been
written there for LUT and BUF, the word 0 for PREV. -/
abbrev Cells (α : Type) := List (Nat × α)

end Sys2Proof
end

