-- ==== Sys2Proof/Config.lean ====
section
/-! DEFINITION. The configuration fields a model takes as arguments (spec/00_scope.md R6), and the free values: the
values the spec leaves open after which the machine goes on. A free value is a constant with no body, so nothing can
be proved of it. -/

namespace Sys2Proof

/-- What a dequantizing LUT read outside the current build window does (R6, R132, D16). -/
inductive OowPolicy where
  | fault
  | stale
deriving DecidableEq, Repr

/-- The bit-level schemes of format codes 17 to 24, 26, 27 and 29 (R6, R151, D18): the schemes of R172 to R182, or
none, which refuses those codes. -/
inductive Packed where
  | gk
  | none
deriving DecidableEq, Repr

/-- The configuration of one SSB (R6). It is fixed for the machine: no command writes it. -/
structure Config where
  /-- `K`, the number of decoder contexts: OPEN, at least 1 (D24). -/
  K : Nat
  /-- `MAX_BLOCK_WORDS`, the capacity of one context's sample buffer in words: OPEN, at least 1 (D24). -/
  maxBlockWords : Nat
  /-- `OOW_POLICY`. -/
  oowPolicy : OowPolicy
  /-- `PACKED`. -/
  packed : Packed
  /-- `STAGE0_R1_NOOP`: stage 0 skips the lifting when a chunk has one row (D20). -/
  stage0R1Noop : Bool
deriving DecidableEq, Repr

/-- `LUT_ENTRIES` (R6, R24, D14). -/
def lutEntries : Nat := 131072

/-- The configuration of `State.reset`: the spec's defaults where R6 gives one, and for the two fields it leaves
OPEN the values that suit its test vectors ("K ≥ 2", "MAX_BLOCK_WORDS is large enough for every OPEN", file 95).
DESIGN CHOICE (log entry 1), unsafe: a statement about every state holds for every configuration. -/
def Config.standard : Config where
  K := 2
  maxBlockWords := 134184960
  oowPolicy := .fault
  packed := .gk
  stage0R1Noop := false

/-! ### Free values. Each is applied to the machine's draw counter, which every use advances, or to the index read. -/

/-- "return any 16-bit value -- a draw, under no law": an out-of-window read of a never-written cell with
`OOW_POLICY = stale` (R132, U2). Applied to the draw counter. Log entry 2. -/
opaque Config.staleDraw : Nat → Half

/-- A LUT cell that is `⊥` although R131 says no read the rules make can meet one (log entry 3). Applied to the
physical index. -/
opaque Config.unwrittenLut : Nat → Half

/-- A BUF cell that is `⊥` although R240 and U9 say no rule reads one (log entry 3). Applied to the index. -/
opaque Config.unwrittenBuf : Nat → Word

/-- The stream position of a context after a BAND or FILL that faults: "any value" (U16). Log entry 4. -/
opaque Config.lostBitPos : Nat → Nat

/-- `next_band` of a context that has faulted or was refused: it has "no meaning" (R305, R302). Log entry 4. -/
opaque Config.lostNextBand : Nat → Nat

/-- `out_pos` of a context that has faulted or was refused (R305, R302). Log entry 4. -/
opaque Config.lostOutPos : Nat → Nat

/-- `out_count` of a context that has faulted or was refused (R305, R302). Log entry 4. -/
opaque Config.lostOutCount : Nat → Nat

/-- The words of `buf`, in any order, of a context that has faulted or was refused (R305, R302). Log entry 4. -/
opaque Config.lostBuf : Nat → List (Nat × Word)

/-- The words of `prev`, in any order, of a context that has faulted or was refused (R305, R302). Log entry 4. -/
opaque Config.lostPrev : Nat → List (Nat × Word)

end Sys2Proof
end

