-- ==== Sys2Proof/Syntax.lean ====
section
/-! DEFINITION. The syntax of SSB's commands: one constructor for each row of spec/opcode_table.json. BAND's 32 rows
have a constructor each, since each format code has its own rule (spec/30_encoding.md R100). Every operand has the
width the encoding gives it, so an operand out of range cannot be written (R94, R103). -/

namespace Sys2Proof

/-- A command (spec/30_encoding.md R92). The context it addresses is a side-band field of the command port (R20) and
no part of the command. -/
inductive Instr where
  /-- `scale e, s`: build the LUT for a new block (R130). -/
  | scale (e : BitVec 4) (s : BitVec 16)
  /-- `lookup idx`: diagnostic read of one LUT cell; the index is 17-bit two's complement (R133). -/
  | lookup (idx : BitVec 17)
  /-- `band 0`: zero band (R155). -/
  | bandZ
  /-- `band 1`: reserved format code (R156). -/
  | bandR1
  /-- `band 2`: reserved format code (R157). -/
  | bandR2
  /-- `band 3`: direct 3-bit band (R158). -/
  | bandD3
  /-- `band 4`: direct 4-bit band (R159). -/
  | bandD4
  /-- `band 5`: direct 5-bit band (R160). -/
  | bandD5
  /-- `band 6`: direct 6-bit band (R161). -/
  | bandD6
  /-- `band 7`: direct 7-bit band (R162). -/
  | bandD7
  /-- `band 8`: direct 8-bit band (R163). -/
  | bandD8
  /-- `band 9`: direct 9-bit band (R164). -/
  | bandD9
  /-- `band 10`: direct 10-bit band (R165). -/
  | bandD10
  /-- `band 11`: direct 11-bit band (R166). -/
  | bandD11
  /-- `band 12`: direct 12-bit band (R167). -/
  | bandD12
  /-- `band 13`: direct 13-bit band (R168). -/
  | bandD13
  /-- `band 14`: direct 14-bit band (R169). -/
  | bandD14
  /-- `band 15`: direct 15-bit band (R170). -/
  | bandD15
  /-- `band 16`: direct 16-bit band (R171). -/
  | bandD16
  /-- `band 17`: packed band, scheme k13 (R172). -/
  | bandP17
  /-- `band 18`: packed band, scheme k12 (R173). -/
  | bandP18
  /-- `band 19`: packed band, scheme t15 (R174). -/
  | bandP19
  /-- `band 20`: packed band, scheme k24 (R175). -/
  | bandP20
  /-- `band 21`: packed band, scheme k23 (R176). -/
  | bandP21
  /-- `band 22`: packed band, scheme t27 (R177). -/
  | bandP22
  /-- `band 23`: packed band, scheme k35 (R178). -/
  | bandP23
  /-- `band 24`: packed band, scheme k34 (R179). -/
  | bandP24
  /-- `band 25`: reserved format code (R183). -/
  | bandR25
  /-- `band 26`: packed band, scheme k45 (R180). -/
  | bandP26
  /-- `band 27`: packed band, scheme k44 (R181). -/
  | bandP27
  /-- `band 28`: reserved format code (R184). -/
  | bandR28
  /-- `band 29`: packed band, scheme t37 (R182). -/
  | bandP29
  /-- `band 30`: reserved format code (R185). -/
  | bandR30
  /-- `band 31`: reserved format code (R186). -/
  | bandR31
  /-- `untransform`: transform the filled block and set up its output (R200). -/
  | untransform
  /-- `pop`: return the next output sample (R240). -/
  | pop
  /-- `fill`: decode one whole block from the bit source (R242). -/
  | fill
  /-- `open L, R, total`: open a context with its block geometry (R260). -/
  | openCtx (L : BitVec 4) (R : BitVec 12) (total : BitVec 32)
  /-- `close`: close a context (R262). -/
  | closeCtx
deriving DecidableEq, Repr

end Sys2Proof
end

