-- ==== Sys2Proof/WellFormed.lean ====
section
/-! DEFINITION. What the spec asks of a configuration and of a command beyond the types of their fields. -/

namespace Sys2Proof

/-- R6, D24: K and MAX_BLOCK_WORDS are at least 1. -/
def Config.wellFormed (cfg : Config) : Bool :=
  decide (1 ≤ cfg.K) && decide (1 ≤ cfg.maxBlockWords)

/-- The legal operands of `dband n` (R105). -/
def dbandOperand (n : Nat) : Bool :=
  decide (3 ≤ n) && decide (n ≤ 16)

/-- The legal operands of `pband c` (R105): the packed format codes (R100). -/
def pbandOperand (c : Nat) : Bool :=
  [17, 18, 19, 20, 21, 22, 23, 24, 26, 27, 29].contains c

/-- The reserved format codes (R102). A BAND with one is a legal command all the same. -/
def reservedFormatCode (c : Nat) : Bool :=
  [1, 2, 25, 28, 30, 31].contains c

/-- A command as the command port carries it: the side-band context number beside the command (R20). -/
structure Command where
  ctx   : Nat
  instr : Instr
deriving DecidableEq, Repr

/-- A well-formed command addresses a context the machine has (R304). Nothing is asked of the instruction: "every
value of every field is legal" (R103), and each field has its width in its type. -/
def Command.wellFormed (cfg : Config) (c : Command) : Bool :=
  decide (c.ctx < cfg.K)

end Sys2Proof
end

