-- ==== Sys2Proof/Decode.lean ====
section
/-! DEFINITION. The decoder and the encoder of the command word (spec/30_encoding.md R92 to R95, R101), with the map of
the format codes (R100), the pseudo-instructions (R105) and the lengths (R95). A decoder
reads a sequence of 32-bit command words; SSB has no byte view of them. -/

namespace Sys2Proof

/-! ### Format codes, pseudo-instructions and lengths -/

/-- `band N` of the assembler syntax (R104): the row of the opcode table that format code N names (R100). The last
arm is code 31, the one value of 5 bits the arms before it leave. -/
def Instr.band (code : BitVec 5) : Instr :=
  match code.toNat with
  | 0 => .bandZ
  | 1 => .bandR1
  | 2 => .bandR2
  | 3 => .bandD3
  | 4 => .bandD4
  | 5 => .bandD5
  | 6 => .bandD6
  | 7 => .bandD7
  | 8 => .bandD8
  | 9 => .bandD9
  | 10 => .bandD10
  | 11 => .bandD11
  | 12 => .bandD12
  | 13 => .bandD13
  | 14 => .bandD14
  | 15 => .bandD15
  | 16 => .bandD16
  | 17 => .bandP17
  | 18 => .bandP18
  | 19 => .bandP19
  | 20 => .bandP20
  | 21 => .bandP21
  | 22 => .bandP22
  | 23 => .bandP23
  | 24 => .bandP24
  | 25 => .bandR25
  | 26 => .bandP26
  | 27 => .bandP27
  | 28 => .bandR28
  | 29 => .bandP29
  | 30 => .bandR30
  | _ => .bandR31

/-- The format code of a BAND (R100), `none` for the other commands. -/
def Instr.bandCode (i : Instr) : Option (BitVec 5) :=
  match i with
  | .bandZ => some 0
  | .bandR1 => some 1
  | .bandR2 => some 2
  | .bandD3 => some 3
  | .bandD4 => some 4
  | .bandD5 => some 5
  | .bandD6 => some 6
  | .bandD7 => some 7
  | .bandD8 => some 8
  | .bandD9 => some 9
  | .bandD10 => some 10
  | .bandD11 => some 11
  | .bandD12 => some 12
  | .bandD13 => some 13
  | .bandD14 => some 14
  | .bandD15 => some 15
  | .bandD16 => some 16
  | .bandP17 => some 17
  | .bandP18 => some 18
  | .bandP19 => some 19
  | .bandP20 => some 20
  | .bandP21 => some 21
  | .bandP22 => some 22
  | .bandP23 => some 23
  | .bandP24 => some 24
  | .bandR25 => some 25
  | .bandP26 => some 26
  | .bandP27 => some 27
  | .bandR28 => some 28
  | .bandP29 => some 29
  | .bandR30 => some 30
  | .bandR31 => some 31
  | .scale _ _ => none
  | .lookup _ => none
  | .untransform => none
  | .pop => none
  | .fill => none
  | .openCtx _ _ _ => none
  | .closeCtx => none

/-- The pseudo-instruction `zband` (R105). -/
def Instr.zband : Instr := .band 0

/-- The pseudo-instruction `dband n`, for 3 ≤ n ≤ 16 (R105). -/
def Instr.dband (n : Nat) : Instr := .band (BitVec.ofNat 5 n)

/-- The pseudo-instruction `pband c`, for c in 17..24, 26, 27, 29 (R105). -/
def Instr.pband (c : Nat) : Instr := .band (BitVec.ofNat 5 c)

/-- The pseudo-instruction `nop` (R105): `lookup 0`. -/
def Instr.nop : Instr := .lookup 0

/-- The words of a command: two for OPEN, one for every other (R92, R95). -/
def Instr.words (i : Instr) : Nat :=
  match i with
  | .openCtx _ _ _ => 2
  | .scale _ _ => 1
  | .lookup _ => 1
  | .bandZ => 1
  | .bandR1 => 1
  | .bandR2 => 1
  | .bandD3 => 1
  | .bandD4 => 1
  | .bandD5 => 1
  | .bandD6 => 1
  | .bandD7 => 1
  | .bandD8 => 1
  | .bandD9 => 1
  | .bandD10 => 1
  | .bandD11 => 1
  | .bandD12 => 1
  | .bandD13 => 1
  | .bandD14 => 1
  | .bandD15 => 1
  | .bandD16 => 1
  | .bandP17 => 1
  | .bandP18 => 1
  | .bandP19 => 1
  | .bandP20 => 1
  | .bandP21 => 1
  | .bandP22 => 1
  | .bandP23 => 1
  | .bandP24 => 1
  | .bandR25 => 1
  | .bandP26 => 1
  | .bandP27 => 1
  | .bandR28 => 1
  | .bandP29 => 1
  | .bandR30 => 1
  | .bandR31 => 1
  | .untransform => 1
  | .pop => 1
  | .fill => 1
  | .closeCtx => 1

/-! ### The decoder -/

/-- Why a word sequence is no command. -/
inductive DecodeError where
  /-- The sequence is empty. -/
  | noWord
  /-- Word 0 is a legal OPEN and word 1 is not there yet (R95). -/
  | noSecondWord
  /-- Opcode 0x0 or 0x9 to 0xF (R101). -/
  | reservedOpcode (opcode : BitVec 4)
  /-- A nonzero bit in a position R92 fixes at 0 (R101). -/
  | reservedBits (word : Word)
deriving DecidableEq, Repr

/-- `w[3:0]` (R92). -/
def opcodeOf (w : Word) : BitVec 4 := w.extractLsb' 0 4

/-- The one-word commands and OPEN's word 0, by opcode: the bits R92 fixes at 0 must be 0. `rest` is what follows
word 0 on the port. -/
def decodeWord0 (w : Word) (rest : List Word) : Except DecodeError (Instr × List Word) :=
  match (opcodeOf w).toNat with
  | 1 => if w.extractLsb' 24 8 = 0 then .ok (.scale (w.extractLsb' 4 4) (w.extractLsb' 8 16), rest)
         else .error (.reservedBits w)
  | 2 => if w.extractLsb' 21 11 = 0 then .ok (.lookup (w.extractLsb' 4 17), rest)
         else .error (.reservedBits w)
  | 3 => if w.extractLsb' 9 23 = 0 then .ok (.band (w.extractLsb' 4 5), rest)
         else .error (.reservedBits w)
  | 4 => if w.extractLsb' 4 28 = 0 then .ok (.untransform, rest) else .error (.reservedBits w)
  | 5 => if w.extractLsb' 4 28 = 0 then .ok (.pop, rest) else .error (.reservedBits w)
  | 6 => if w.extractLsb' 4 28 = 0 then .ok (.fill, rest) else .error (.reservedBits w)
  | 7 => if w.extractLsb' 20 12 = 0 then
           match rest with
           | [] => .error .noSecondWord
           | w1 :: rest' => .ok (.openCtx (w.extractLsb' 4 4) (w.extractLsb' 8 12) w1, rest')
         else .error (.reservedBits w)
  | 8 => if w.extractLsb' 4 28 = 0 then .ok (.closeCtx, rest) else .error (.reservedBits w)
  | _ => .error (.reservedOpcode (opcodeOf w))

/-- Reads one command from the front of a word sequence and answers it with the words after it, or says by name why
there is none (R95, R101). -/
def decode (ws : List Word) : Except DecodeError (Instr × List Word) :=
  match ws with
  | [] => .error .noWord
  | w :: rest => decodeWord0 w rest

/-- The instruction the decoder reads from the `nbits` bits `w`, bit 0 the least significant bit of word 0 and bit 32
that of word 1; every bit from `nbits` on is 0. -/
def decodeTableWord (nbits w : Nat) : Option Instr :=
  let v := w % 2 ^ nbits
  match decode [BitVec.ofNat 32 v, BitVec.ofNat 32 (v / 2 ^ 32)] with
  | .ok (i, _) => some i
  | .error _ => none

/-! ### The encoder -/

/-- BAND's word: the format code at [8:4], opcode 0x3 (R92, R93). -/
def bandWord (code : BitVec 5) : Word := 0#23 ++ code ++ 3#4

/-- The words of a command (R92, R93). -/
def encode (i : Instr) : List Word :=
  match i with
  | .scale e s => [0#8 ++ s ++ e ++ 1#4]
  | .lookup idx => [0#11 ++ idx ++ 2#4]
  | .bandZ => [bandWord 0]
  | .bandR1 => [bandWord 1]
  | .bandR2 => [bandWord 2]
  | .bandD3 => [bandWord 3]
  | .bandD4 => [bandWord 4]
  | .bandD5 => [bandWord 5]
  | .bandD6 => [bandWord 6]
  | .bandD7 => [bandWord 7]
  | .bandD8 => [bandWord 8]
  | .bandD9 => [bandWord 9]
  | .bandD10 => [bandWord 10]
  | .bandD11 => [bandWord 11]
  | .bandD12 => [bandWord 12]
  | .bandD13 => [bandWord 13]
  | .bandD14 => [bandWord 14]
  | .bandD15 => [bandWord 15]
  | .bandD16 => [bandWord 16]
  | .bandP17 => [bandWord 17]
  | .bandP18 => [bandWord 18]
  | .bandP19 => [bandWord 19]
  | .bandP20 => [bandWord 20]
  | .bandP21 => [bandWord 21]
  | .bandP22 => [bandWord 22]
  | .bandP23 => [bandWord 23]
  | .bandP24 => [bandWord 24]
  | .bandR25 => [bandWord 25]
  | .bandP26 => [bandWord 26]
  | .bandP27 => [bandWord 27]
  | .bandR28 => [bandWord 28]
  | .bandP29 => [bandWord 29]
  | .bandR30 => [bandWord 30]
  | .bandR31 => [bandWord 31]
  | .untransform => [4#32]
  | .pop => [5#32]
  | .fill => [6#32]
  | .openCtx L R total => [0#12 ++ R ++ L ++ 7#4, total]
  | .closeCtx => [8#32]

end Sys2Proof
end

