-- ==== Sys2Proof/Machine/State.lean ====
section
/-! DEFINITION. The architectural state of SSB (spec/10_state.md) as plain data, its value after power-on reset
(R36, R340), and the reasons a step could stop. -/

namespace Sys2Proof.Machine

open Sys2Proof

/-- The status codes of a response (spec/60_exceptions.md R300). -/
inductive Status where
  /-- 0: the command did what its rule says. -/
  | ok
  /-- 1: a reserved format code was met. -/
  | failBand
  /-- 2: the command is not legal in the context's phase. -/
  | errState
  /-- 3: illegal command word or context number. -/
  | errCmd
  /-- 4: the block does not fit MAX_BLOCK_WORDS. -/
  | errAlloc
  /-- 5: no output sample is ready, or the stream is exhausted. -/
  | empty
  /-- 6: the LOOKUP index is outside the current window. -/
  | window
deriving DecidableEq, Repr

/-- A fault of SSB with the information R301 records for it. -/
inductive FaultRecord where
  /-- F_LUT_WINDOW: the index (17-bit signed), the format code, the subband and the row. -/
  | lutWindow (k : BitVec 17) (code : BitVec 5) (subband row : Nat)
  /-- F_DOUBLE_CLOSE: the context number. -/
  | doubleClose (ctx : Nat)
  /-- F_PACKED_COMBO: the format code and the group value. -/
  | packedCombo (code : BitVec 5) (v : Nat)
deriving DecidableEq, Repr

/-- The one response every command gets (R300, R305). -/
inductive Response where
  /-- `(status, data)`. -/
  | status (st : Status) (data : Half)
  /-- `FAULTED(f, info)`. -/
  | faulted (f : FaultRecord)
  /-- `REFUSED`. -/
  | refused
deriving DecidableEq, Repr

/-- The phase of a context (R30). -/
inductive Phase where
  | closed
  | idle
  | filling
  | failed
deriving DecidableEq, Repr

/-- One decoder context (R20, R26 to R33) with its bit-source port (R70). -/
structure Context where
  /-- `phase` (R30). -/
  phase : Phase
  /-- `levels` (R26). -/
  L : BitVec 4
  /-- `subbands`, 2^L (R26). -/
  S : BitVec 16
  /-- `samples_per_subband`, the rows of a block (R26). -/
  R : BitVec 12
  /-- The words of a block, R·S (R26). -/
  BW : BitVec 27
  /-- The rows of a transform chunk (R26, R206). -/
  T : BitVec 11
  /-- `remaining_output_samples` (R27). -/
  remaining : BitVec 32
  /-- The subband the next BAND writes (R28). -/
  nextBand : Nat
  /-- The output cursor's position (R29). -/
  outPos : Nat
  /-- The output cursor's end (R29). -/
  outCount : Nat
  /-- The sample buffer; an unlisted index is `⊥` (R31, R60). -/
  buf : Cells Word
  /-- The cross-block state; an unlisted index holds the word 0 (R32, R64). -/
  prev : Cells Word
  /-- `⊥` or the fault that ended the context, with its recorded information (R33). -/
  fault : Option FaultRecord
  /-- The mark of a command the spec gives no meaning (R33, R302). -/
  refused : Bool
  /-- The caller's bytes on the bit-source port; beyond them the port delivers zero bits (R70, R71). -/
  source : List Byte
  /-- How many bits have been taken from the port: the bit-source position (R70, R341). -/
  bitPos : Nat
deriving DecidableEq, Repr

/-- The LUT unit, shared by all contexts (R23 to R25). -/
structure LutUnit where
  /-- `lut_present` (R23). -/
  present : Bool
  /-- `open_count` (R23). -/
  openCount : Nat
  /-- `lut` by physical index (R61); an unlisted index is `⊥`, and with no storage nothing is listed (R24). -/
  cells : Cells Half
  /-- `lut_e`, the step exponent of the latest build, or `⊥` (R25). -/
  e : Option (BitVec 4)
deriving DecidableEq, Repr

/-- One word on the command port, with its side-band context number (R20, R92). -/
structure PortWord where
  ctx  : Nat
  word : Word
deriving DecidableEq, Repr

/-- SSB (R20). -/
structure State where
  /-- The configuration (R6); no step changes it. -/
  cfg : Config
  /-- The words the host has put on the command port and SSB has not taken yet, first to come first (R73). -/
  port : List PortWord
  /-- The side-band context number of the command being executed (R20). -/
  ctx : Nat
  /-- The response to the latest command; none before the first (R300). -/
  resp : Option Response
  /-- The LUT unit. -/
  lut : LutUnit
  /-- The contexts 0..K−1. -/
  contexts : List Context
  /-- The model's own: how many free values have been drawn (log entry 2). -/
  draws : Nat
deriving DecidableEq, Repr

/-- A context after power-on reset (R36, R340): CLOSED, no fault, not refused, no buffers. The fields R36 lists as
"unspecified, unreadable" are 0 here: DESIGN CHOICE (log entry 5), unsafe. The bit-source port is the host's: it holds
no byte until the host puts some there. -/
def Context.reset : Context where
  phase := .closed
  L := 0
  S := 0
  R := 0
  BW := 0
  T := 0
  remaining := 0
  nextBand := 0
  outPos := 0
  outCount := 0
  buf := []
  prev := []
  fault := none
  refused := false
  source := []
  bitPos := 0

/-- The LUT unit after power-on reset: no storage, so no cell and no `lut_e` (R36, R340). -/
def LutUnit.reset : LutUnit where
  present := false
  openCount := 0
  cells := []
  e := none

/-- SSB with the configuration `cfg` after power-on reset (R36, R340): every context CLOSED, and nothing on the
command port, for whose first command SSB waits (R342). -/
def State.resetWith (cfg : Config) : State where
  cfg := cfg
  port := []
  ctx := 0
  resp := none
  lut := .reset
  contexts := List.replicate cfg.K .reset
  draws := 0

/-- Power-on reset with the standard configuration (log entry 1). -/
def State.reset : State := .resetWith .standard

/-- Why a step stops with a fault: never. An SSB fault is the response to one command and ends one context, while
"other contexts continue unaffected" (R305): it is a `FaultRecord` in a next state, and no meaning stops the machine.
So this type has no constructor. Nobody raises it; safe. -/
inductive Fault where
deriving DecidableEq, Repr

/-- Why a step has no meaning. SSB's own REFUSED is a response in a next state (R302, R305). -/
inductive Refusal where
  /-- An instruction that has no meaning in this model yet: raised by `exec`'s arm for it alone. Safe. No arm raises
  it now. -/
  | notModelled (mnemonic : String)
deriving DecidableEq, Repr

end Sys2Proof.Machine
end

