-- ==== Sys2Proof/Machine/Cells.lean ====
section
/-! DEFINITION. The operations over an element-indexed memory (spec/20_memory.md R60, R66, R67): every access is to
one whole element, by index. They keep the canonical form `Cells.WF`. -/

namespace Sys2Proof.Machine

open Sys2Proof

variable {α : Type}

/-- The canonical form: indices strictly rising. -/
abbrev Cells.WF (m : Cells α) : Prop := m.Pairwise fun a b => a.1 < b.1

/-- The element written at an index, `none` where nothing is listed. -/
def Cells.get? (m : Cells α) (k : Nat) : Option α :=
  match m with
  | [] => none
  | (j, v) :: rest => if k = j then some v else Cells.get? rest k

/-- Writes one element. -/
def Cells.put (m : Cells α) (k : Nat) (v : α) : Cells α :=
  match m with
  | [] => [(k, v)]
  | (j, u) :: rest =>
    if k < j then (k, v) :: (j, u) :: rest
    else if k = j then (k, v) :: rest
    else (j, u) :: Cells.put rest k v

/-- Takes one element out of the list. -/
def Cells.erase (m : Cells α) (k : Nat) : Cells α := m.filter fun p => p.1 ≠ k

/-- Writes the `n` elements from index `lo` on, index `i` with `f i`. -/
def Cells.fill (m : Cells α) (lo n : Nat) (f : Nat → α) : Cells α :=
  (m.filter fun p => p.1 < lo) ++ (List.range' lo n).map (fun i => (i, f i)) ++ (m.filter fun p => lo + n ≤ p.1)

/-- The canonical memory that a list of writes leaves in an empty one. -/
def Cells.ofWrites (ws : List (Nat × α)) : Cells α := ws.foldl (fun m p => Cells.put m p.1 p.2) []

/-- The PREV word at an index: 0 where nothing is listed (R32, "OPEN zeroes it"). -/
def prevRead (m : Cells Word) (j : Nat) : Word := (Cells.get? m j).getD 0

/-- Writes a PREV word; writing 0 takes the entry out, so that equal memories are equal lists. -/
def prevWrite (m : Cells Word) (j : Nat) (v : Word) : Cells Word :=
  if v = 0 then Cells.erase m j else Cells.put m j v

/-- The canonical form of PREV: rising, and no entry holds the 0 an unlisted word reads as. -/
abbrev prevWF (m : Cells Word) : Prop := Cells.WF m ∧ ∀ p ∈ m, p.2 ≠ 0

/-- The canonical form of all of SSB's memories. -/
abbrev Memory.wf (s : State) : Prop :=
  Cells.WF s.lut.cells ∧ ∀ c ∈ s.contexts, Cells.WF c.buf ∧ prevWF c.prev

/-- `f (n−1) (… (f 1 (f 0 a)))`: the spec's `for i in 0 .. n−1`. -/
def forRange {β : Type} (n : Nat) (f : Nat → β → β) (a : β) : β :=
  match n with
  | 0 => a
  | m + 1 => f m (forRange m f a)

end Sys2Proof.Machine
end

