-- ==== Sys2Proof/Machine/Operands.lean ====
section
/-! DEFINITION. The operand forms: the number formats of spec/00_scope.md R8 and R10, the index maps of the three
memories (spec/20_memory.md R61, R62, R64), the block geometry (spec/44_lifecycle.md R261), and the bits of the
bit-source port (R70, R71). -/

namespace Sys2Proof.Machine

open Sys2Proof

/-- `trunc_16` of an integer (R10). -/
def trunc16 (v : Int) : Half := BitVec.ofInt 16 v

/-- `wrap32` (R10). -/
def wrap32 (v : Int) : Word := BitVec.ofInt 32 v

/-- `sext_16` of a half to a word (R10, R152). -/
def sext32 (v : Half) : Word := v.signExtend 32

/-- `trunc_16` of a word: its low half (R10). -/
def lowHalf (v : Word) : Half := v.extractLsb' 0 16

/-- `v[31:16]`. -/
def highHalf (v : Word) : Half := v.extractLsb' 16 16

/-- `pcm = trunc_16(asr(v, L))` (R241). -/
def pcmOf (v : Word) (L : BitVec 4) : Half := lowHalf (v.sshiftRight L.toNat)

/-- The two bytes an output sample is delivered as, least significant first (R65, R241). -/
def pcmBytes (d : Half) : List Byte := [d.extractLsb' 0 8, d.extractLsb' 8 8]

/-- The physical cell of the logical LUT index `k` (R61). -/
def lutCell (k : Int) : Nat := (k + 65536).toNat

/-- The BUF index of row `r` of subband `sb` with `S` subbands (R31, R62). -/
def bufIndex (S r sb : Nat) : Nat := r * S + sb

/-- `S = 2^L` (R7, R261). -/
def subbandsOf (L : BitVec 4) : Nat := 2 ^ L.toNat

/-- `BW = R·S` (R7, R261). -/
def blockWordsOf (L : BitVec 4) (R : BitVec 12) : Nat := R.toNat * subbandsOf L

/-- `T = max(1, ⌊2048/S⌋ − 2)` (R206). -/
def chunkRowsOf (L : BitVec 4) : Nat := max 1 (2048 / subbandsOf L - 2)

/-- `PREV_WORDS` (R7, R261). -/
def prevWordsOf (L : BitVec 4) : Nat := if L = 0 then 0 else 3 * subbandsOf L / 2 - 2

/-- Bit `p` of a stream: "stream bit 8·j + b is bit b of byte j" (R70), and 0 past the caller's bytes (R71). -/
def streamBit (bytes : List Byte) (p : Nat) : Bool := (bytes.getD (p / 8) 0).getLsbD (p % 8)

/-- The `n` stream bits from bit `p` on as a number whose bit 0 is the first of them (R10, R70). -/
def streamBits (bytes : List Byte) (p n : Nat) : Nat :=
  match n with
  | 0 => 0
  | m + 1 => (streamBit bytes p).toNat + 2 * streamBits bytes (p + 1) m

end Sys2Proof.Machine
end

