-- ==== Sys2Proof/Machine/Flags.lean ====
section
/-! DEFINITION. SSB has no condition flags (spec/10_state.md R22): "each command reports its outcome only in its
response status". This file gives the numbers of the status codes and fault codes (spec/60_exceptions.md R300, R301). -/

namespace Sys2Proof.Machine

open Sys2Proof

/-- The value of a status code (R300). -/
def Status.value (st : Status) : Nat :=
  match st with
  | .ok => 0
  | .failBand => 1
  | .errState => 2
  | .errCmd => 3
  | .errAlloc => 4
  | .empty => 5
  | .window => 6

/-- The code of a fault (R301). -/
def FaultRecord.code (f : FaultRecord) : Nat :=
  match f with
  | .lutWindow _ _ _ _ => 1
  | .doubleClose _ => 2
  | .packedCombo _ _ => 3

/-- A status with no data: "0 in every other response" (R300). -/
def Response.bare (st : Status) : Response := .status st 0

/-- The response OK with no data. -/
def Response.okay : Response := .bare .ok

end Sys2Proof.Machine
end

