-- ==== Sys2Proof/Machine/Ops.lean ====
section
/-! DEFINITION. The shared operations: what one command may touch (`Work`), the gate every command passes (the
response priorities of spec/60_exceptions.md R306), taking a fault or a refusal (R302, R305), and the accesses to the
bit source, the LUT and the buffers. -/

namespace Sys2Proof.Machine

open Sys2Proof

/-- What a command on one context may read and write: the configuration and the context's number (read only), the
shared LUT unit, the addressed context, and the draw counter. No other context is in its reach (R20, R316). -/
structure Work where
  cfg   : Config
  ctx   : Nat
  lut   : LutUnit
  c     : Context
  draws : Nat
deriving DecidableEq, Repr

/-! ### Responses and the gate -/

/-- Records the response to a command. -/
def State.respond (s : State) (r : Response) : State := { s with resp := some r }

/-- The addressed context is CLOSED, IDLE, ... (R30). -/
def Work.inPhase (w : Work) (p : Phase) : Bool := decide (w.c.phase = p)

/-- A context is drained when `out_pos = out_count` (R29). -/
def Work.drained (w : Work) : Bool := decide (w.c.outPos = w.c.outCount)

/-- The view a command on context `c` has of the state. -/
def State.work (s : State) (c : Context) : Work :=
  { cfg := s.cfg, ctx := s.ctx, lut := s.lut, c := c, draws := s.draws }

/-- Writes back what a command did and its response. -/
def State.commit (s : State) (w : Work) (r : Response) : State :=
  { s with lut := w.lut, contexts := s.contexts.set s.ctx w.c, draws := w.draws, resp := some r }

/-- Runs a command's body on the addressed context, after the checks that come before it in R306: a context number
at or above K is ERR_CMD, then a faulted or refused context executes nothing and answers FAULTED or REFUSED again
(R305). -/
def runCommand (s : State) (body : Work → Work × Response) : State :=
  match s.contexts[s.ctx]? with
  | none => s.respond (.bare .errCmd)
  | some c =>
    match c.fault with
    | some f => s.respond (.faulted f)
    | none =>
      if c.refused then s.respond .refused
      else
        let out := body (s.work c)
        s.commit out.1 out.2

/-- The response to a reserved encoding, third in R306's order: ERR_CMD and no state change (R101, R304). -/
def illegalCommand (s : State) : State := runCommand s fun w => (w, .bare .errCmd)

/-! ### Taking a fault or a refusal (R302, R305). There is no return from one (R309). -/

/-- The context's `buf`, `prev` and cursors have no meaning any more: free values in the canonical form (R305). -/
def Work.lose (w : Work) : Work :=
  { w with
    draws := w.draws + 1
    c := { w.c with
      nextBand := Config.lostNextBand w.draws
      outPos := Config.lostOutPos w.draws
      outCount := Config.lostOutCount w.draws
      buf := Cells.ofWrites (Config.lostBuf w.draws)
      prev := Cells.ofWrites ((Config.lostPrev w.draws).filter fun p => p.2 ≠ 0) } }

/-- Records a fault in the context and answers FAULTED; it is never cleared (R33, R305). -/
def Work.recordFault (w : Work) (f : FaultRecord) : Work × Response :=
  ({ w with c := { w.c with fault := some f } }, .faulted f)

/-- A BAND or FILL faults: the fault is recorded, the context's own state loses its meaning, and its stream position
is any value (R305, U16). The LUT and the phase stay as they were when the fault was raised. -/
def Work.takeFault (w : Work) (f : FaultRecord) : Work × Response :=
  Work.recordFault
    { w.lose with c := { w.lose.c with bitPos := Config.lostBitPos w.draws } } f

/-- REFUSE_PACKED (R302): the `refused` mark is set and the context's own state loses its meaning. -/
def Work.takeRefusal (w : Work) : Work × Response :=
  ({ w.lose with c := { w.lose.c with refused := true } }, .refused)

/-! ### The bit source (R70, R71) -/

/-- The next `n` bits of the context's stream, as a number. -/
def Work.peek (w : Work) (n : Nat) : Nat := streamBits w.c.source w.c.bitPos n

/-- The stream moves on by `n` bits. -/
def Work.skip (w : Work) (n : Nat) : Work := { w with c := { w.c with bitPos := w.c.bitPos + n } }

/-- `take(n)` (R10, R70): never fails and never blocks (R71). -/
def Work.take (w : Work) (n : Nat) : Nat × Work := (w.peek n, w.skip n)

/-! ### The LUT (R131, R132) -/

/-- The index is inside the window of the latest build, W(lut_e) = [−2^lut_e, 2^lut_e − 1] (R131); with
`lut_e = ⊥` none is. -/
def LutUnit.inWindow (u : LutUnit) (k : Int) : Bool :=
  match u.e with
  | none => false
  | some e => decide (-((2 ^ e.toNat : Nat) : Int) ≤ k) && decide (k ≤ ((2 ^ e.toNat : Nat) : Int) - 1)

/-- The cell of a logical index, `none` for `⊥` (R24, R61). -/
def LutUnit.read? (u : LutUnit) (k : Int) : Option Half := Cells.get? u.cells (lutCell k)

/-- The cell of an index inside the window. R131 says it is never `⊥`; in a state no run reaches it is a free value
(log entry 3). -/
def LutUnit.windowCell (u : LutUnit) (k : Int) : Half := (u.read? k).getD (Config.unwrittenLut (lutCell k))

/-- `LutRead(k)` (R132): `none` is F_LUT_WINDOW. -/
def Work.lutRead (w : Work) (k : Int) : Option (Half × Work) :=
  if w.lut.inWindow k then some (w.lut.windowCell k, w)
  else
    match w.cfg.oowPolicy with
    | .fault => none
    | .stale =>
      match w.lut.read? k with
      | some v => some (v, w)
      | none => some (Config.staleDraw w.draws, { w with draws := w.draws + 1 })

/-! ### The buffers (R31, R32) -/

/-- The BUF word at an index. No rule reads one that is `⊥` (R240, U9); in a state no run reaches it is a free value
(log entry 3). -/
def bufRead (m : Cells Word) (i : Nat) : Word := (Cells.get? m i).getD (Config.unwrittenBuf i)

/-- Writes a BUF word. -/
def Work.bufWrite (w : Work) (i : Nat) (v : Word) : Work :=
  { w with c := { w.c with buf := Cells.put w.c.buf i v } }

end Sys2Proof.Machine
end

