-- ==== Sys2Proof/Machine/Band.lean ====
section
/-! DEFINITION. BAND and its 32 format codes (spec/41_band_ops.md). A band rule fills the rows of one column group by
group: a group takes its bits from the stream and says which samples they stand for. -/

namespace Sys2Proof.Machine

open Sys2Proof

/-! ### Symbols and groups -/

/-- What a band rule does for one row (R152): `ZeroWrite`, or `DeqWrite` with a scale index. -/
inductive Symbol where
  | zero
  | deq (k : Int)
deriving DecidableEq, Repr

/-- How far a band rule has come: it goes on, or it has raised a fault. -/
inductive Ran where
  | going (w : Work)
  | raised (f : FaultRecord) (w : Work)
deriving DecidableEq, Repr

/-- What one group of a payload stands for, or a mixed-radix group value with no symbol combination (R187). -/
inductive Group where
  | symbols (ys : List Symbol) (w : Work)
  | noCombination (v : Nat) (w : Work)
deriving DecidableEq, Repr

/-- `DeqWrite(r, k)` and `ZeroWrite(r)` on the column `next_band` (R152). F_LUT_WINDOW records the index, the format
code, the subband and the row (R301). -/
def writeSymbol (code : BitVec 5) (r : Nat) (y : Symbol) (w : Work) : Ran :=
  match y with
  | .zero => .going (w.bufWrite (bufIndex w.c.S.toNat r w.c.nextBand) 0)
  | .deq k =>
    match w.lutRead k with
    | none => .raised (.lutWindow (BitVec.ofInt 17 k) code w.c.nextBand r) w
    | some (v, w') => .going (w'.bufWrite (bufIndex w.c.S.toNat r w.c.nextBand) (sext32 v))

/-- Writes a group's symbols from row `r` on: "a group that would write rows at or past R writes only the rows below
R" (file 41, section 4). -/
def writeSymbols (code : BitVec 5) (r : Nat) (ys : List Symbol) (w : Work) : Ran :=
  match ys with
  | [] => .going w
  | y :: rest =>
    if r < w.c.R.toNat then
      match writeSymbol code r y w with
      | .raised f w' => .raised f w'
      | .going w' => writeSymbols code (r + 1) rest w'
    else .going w

/-- `r = 0; while r < R: <one group>` (file 41, section 4). Every group stands for at least one row, so `R` turns
are enough: `turns` counts those left. -/
def bandRows (code : BitVec 5) (group : Work → Group) (turns r : Nat) (w : Work) : Ran :=
  match turns with
  | 0 => .going w
  | n + 1 =>
    if r < w.c.R.toNat then
      match group w with
      | .noCombination v w' => .raised (.packedCombo code v) w'
      | .symbols ys w' =>
        match writeSymbols code r ys w' with
        | .raised f w'' => .raised f w''
        | .going w'' => bandRows code group n (r + ys.length) w''
    else .going w

/-! ### The groups of each scheme -/

/-- The zero band: one zero row, no bits (R155). -/
def groupZero (w : Work) : Group := .symbols [.zero] w

/-- A direct n-bit band: `k = raw − 2^(n−1)` with `raw = take(n)` (R153). -/
def groupDirect (n : Nat) (w : Work) : Group :=
  .symbols [.deq (((w.take n).1 : Int) - ((2 ^ (n - 1) : Nat) : Int))] (w.take n).2

/-- `MAP1` (R187). -/
def map1 (v : Nat) : Int := [-1, 1].getD v 0

/-- `NEAR2` (R187). -/
def near2 (v : Nat) : Int := [-2, -1, 1, 2].getD v 0

/-- `FAR2` (R187). -/
def far2 (v : Nat) : Int := [-3, -2, 2, 3].getD v 0

/-- `MAP3` (R187). -/
def map3 (v : Nat) : Int := [-4, -3, -2, -1, 1, 2, 3, 4].getD v 0

/-- A group of one row whose index a map gives from `take(n)`. -/
def mapped (n : Nat) (map : Nat → Int) (w : Work) : Group := .symbols [.deq (map (w.take n).1)] (w.take n).2

/-- `if take(1) == 0: <a> else <b>`. -/
def onBit (a b : Work → Group) (w : Work) : Group :=
  if (w.take 1).1 = 0 then a (w.take 1).2 else b (w.take 1).2

/-- One zero row and no further bits. -/
def oneZero (w : Work) : Group := .symbols [.zero] w

/-- Two zero rows and no further bits. -/
def twoZeros (w : Work) : Group := .symbols [.zero, .zero] w

/-- Scheme k13 (R172). -/
def groupK13 : Work → Group := onBit twoZeros (onBit oneZero (mapped 1 map1))

/-- Scheme k12 (R173). -/
def groupK12 : Work → Group := onBit oneZero (mapped 1 map1)

/-- Scheme k24 (R175). -/
def groupK24 : Work → Group := onBit twoZeros (onBit oneZero (mapped 2 near2))

/-- Scheme k23 (R176). -/
def groupK23 : Work → Group := onBit oneZero (mapped 2 near2)

/-- Scheme k35 (R178). -/
def groupK35 : Work → Group := onBit twoZeros (onBit oneZero (onBit (mapped 1 map1) (mapped 2 far2)))

/-- Scheme k34 (R179). -/
def groupK34 : Work → Group := onBit oneZero (onBit (mapped 1 map1) (mapped 2 far2))

/-- Scheme k45 (R180). -/
def groupK45 : Work → Group := onBit twoZeros (onBit oneZero (mapped 3 map3))

/-- Scheme k44 (R181). -/
def groupK44 : Work → Group := onBit oneZero (mapped 3 map3)

/-- The digits of `v` in base `b`, `n` of them, digit 0 first. -/
def digits (b n v : Nat) : List Nat :=
  match n with
  | 0 => []
  | m + 1 => v % b :: digits b m (v / b)

/-- A mixed-radix group: `bits` bits hold `n` digits of base `b`, each standing for the index digit − (b−1)/2; a value
of b^n or more has no combination (R174, R177, R182, R187). -/
def groupRadix (bits b n : Nat) (w : Work) : Group :=
  if (w.take bits).1 < b ^ n then
    .symbols ((digits b n (w.take bits).1).map fun d : Nat => Symbol.deq ((d : Int) - (((b - 1) / 2 : Nat) : Int)))
      (w.take bits).2
  else .noCombination (w.take bits).1 (w.take bits).2

/-- Scheme t15: three base-3 digits in 5 bits (R174). -/
def groupT15 : Work → Group := groupRadix 5 3 3

/-- Scheme t27: three base-5 digits in 7 bits (R177). -/
def groupT27 : Work → Group := groupRadix 7 5 3

/-- Scheme t37: two base-11 digits in 7 bits (R182). -/
def groupT37 : Work → Group := groupRadix 7 11 2

/-! ### The BAND command -/

/-- A band is expected: a block is being filled and not all its subbands are written (R150, R303). -/
def Work.awaitsBand (w : Work) : Bool := w.inPhase .filling && !decide (w.c.nextBand = w.c.S.toNat)

/-- Runs a band rule on the rows of column `next_band`; on success `next_band` moves on, and a fault is taken (R150). -/
def runBand (code : BitVec 5) (group : Work → Group) (w : Work) : Work × Response :=
  match bandRows code group w.c.R.toNat 0 w with
  | .going w' => ({ w' with c := { w'.c with nextBand := w.c.nextBand + 1 } }, .okay)
  | .raised f w' => w'.takeFault f

/-- A packed band: refused when `PACKED = none` (R150, R151, R302). -/
def runPacked (code : BitVec 5) (group : Work → Group) (w : Work) : Work × Response :=
  match w.cfg.packed with
  | .none => w.takeRefusal
  | .gk => runBand code group w

/-- A reserved code: phase FAILED, no bits taken, no cell written, `next_band` unchanged (R150). -/
def failBand (w : Work) : Work × Response :=
  ({ w with c := { w.c with phase := .failed } }, .bare .failBand)

/-- BAND's legality check before a code's rule (R150). -/
def bandCommand (rule : Work → Work × Response) (w : Work) : Work × Response :=
  if w.awaitsBand then rule w else (w, .bare .errState)

/-! ### The rule of each format code, from BAND's dispatch on -/

/-- Code 0: zero band (R155). -/
def bandZ (w : Work) : Work × Response := runBand 0 groupZero w

/-- Code 1: reserved (R156). -/
def bandR1 (w : Work) : Work × Response := failBand w

/-- Code 2: reserved (R157). -/
def bandR2 (w : Work) : Work × Response := failBand w

/-- Code 3: direct 3-bit band (R158). -/
def bandD3 (w : Work) : Work × Response := runBand 3 (groupDirect 3) w

/-- Code 4: direct 4-bit band (R159). -/
def bandD4 (w : Work) : Work × Response := runBand 4 (groupDirect 4) w

/-- Code 5: direct 5-bit band (R160). -/
def bandD5 (w : Work) : Work × Response := runBand 5 (groupDirect 5) w

/-- Code 6: direct 6-bit band (R161). -/
def bandD6 (w : Work) : Work × Response := runBand 6 (groupDirect 6) w

/-- Code 7: direct 7-bit band (R162). -/
def bandD7 (w : Work) : Work × Response := runBand 7 (groupDirect 7) w

/-- Code 8: direct 8-bit band (R163). -/
def bandD8 (w : Work) : Work × Response := runBand 8 (groupDirect 8) w

/-- Code 9: direct 9-bit band (R164). -/
def bandD9 (w : Work) : Work × Response := runBand 9 (groupDirect 9) w

/-- Code 10: direct 10-bit band (R165). -/
def bandD10 (w : Work) : Work × Response := runBand 10 (groupDirect 10) w

/-- Code 11: direct 11-bit band (R166). -/
def bandD11 (w : Work) : Work × Response := runBand 11 (groupDirect 11) w

/-- Code 12: direct 12-bit band (R167). -/
def bandD12 (w : Work) : Work × Response := runBand 12 (groupDirect 12) w

/-- Code 13: direct 13-bit band (R168). -/
def bandD13 (w : Work) : Work × Response := runBand 13 (groupDirect 13) w

/-- Code 14: direct 14-bit band (R169). -/
def bandD14 (w : Work) : Work × Response := runBand 14 (groupDirect 14) w

/-- Code 15: direct 15-bit band (R170). -/
def bandD15 (w : Work) : Work × Response := runBand 15 (groupDirect 15) w

/-- Code 16: direct 16-bit band (R171). -/
def bandD16 (w : Work) : Work × Response := runBand 16 (groupDirect 16) w

/-- Code 17: packed band (R172). -/
def bandP17 (w : Work) : Work × Response := runPacked 17 groupK13 w

/-- Code 18: packed band (R173). -/
def bandP18 (w : Work) : Work × Response := runPacked 18 groupK12 w

/-- Code 19: packed band (R174). -/
def bandP19 (w : Work) : Work × Response := runPacked 19 groupT15 w

/-- Code 20: packed band (R175). -/
def bandP20 (w : Work) : Work × Response := runPacked 20 groupK24 w

/-- Code 21: packed band (R176). -/
def bandP21 (w : Work) : Work × Response := runPacked 21 groupK23 w

/-- Code 22: packed band (R177). -/
def bandP22 (w : Work) : Work × Response := runPacked 22 groupT27 w

/-- Code 23: packed band (R178). -/
def bandP23 (w : Work) : Work × Response := runPacked 23 groupK35 w

/-- Code 24: packed band (R179). -/
def bandP24 (w : Work) : Work × Response := runPacked 24 groupK34 w

/-- Code 25: reserved (R183). -/
def bandR25 (w : Work) : Work × Response := failBand w

/-- Code 26: packed band (R180). -/
def bandP26 (w : Work) : Work × Response := runPacked 26 groupK45 w

/-- Code 27: packed band (R181). -/
def bandP27 (w : Work) : Work × Response := runPacked 27 groupK44 w

/-- Code 28: reserved (R184). -/
def bandR28 (w : Work) : Work × Response := failBand w

/-- Code 29: packed band (R182). -/
def bandP29 (w : Work) : Work × Response := runPacked 29 groupT37 w

/-- Code 30: reserved (R185). -/
def bandR30 (w : Work) : Work × Response := failBand w

/-- Code 31: reserved (R186). -/
def bandR31 (w : Work) : Work × Response := failBand w

/-- The dispatch of BAND and FILL on the format code (R100, R150). The last arm is code 31. -/
def bandDispatch (code : BitVec 5) (w : Work) : Work × Response :=
  match code.toNat with
  | 0 => bandZ w
  | 1 => bandR1 w
  | 2 => bandR2 w
  | 3 => bandD3 w
  | 4 => bandD4 w
  | 5 => bandD5 w
  | 6 => bandD6 w
  | 7 => bandD7 w
  | 8 => bandD8 w
  | 9 => bandD9 w
  | 10 => bandD10 w
  | 11 => bandD11 w
  | 12 => bandD12 w
  | 13 => bandD13 w
  | 14 => bandD14 w
  | 15 => bandD15 w
  | 16 => bandD16 w
  | 17 => bandP17 w
  | 18 => bandP18 w
  | 19 => bandP19 w
  | 20 => bandP20 w
  | 21 => bandP21 w
  | 22 => bandP22 w
  | 23 => bandP23 w
  | 24 => bandP24 w
  | 25 => bandR25 w
  | 26 => bandP26 w
  | 27 => bandP27 w
  | 28 => bandR28 w
  | 29 => bandP29 w
  | 30 => bandR30 w
  | _ => bandR31 w

/-! ### The meanings -/

/-- `band 0` (R155). -/
def execBandZ (s : State) : Host.Outcome State Fault Refusal := .next (runCommand s (bandCommand bandZ))

/-- `band 1` (R156). -/
def execBandR1 (s : State) : Host.Outcome State Fault Refusal := .next (runCommand s (bandCommand bandR1))

/-- `band 2` (R157). -/
def execBandR2 (s : State) : Host.Outcome State Fault Refusal := .next (runCommand s (bandCommand bandR2))

/-- `band 3` (R158). -/
def execBandD3 (s : State) : Host.Outcome State Fault Refusal := .next (runCommand s (bandCommand bandD3))

/-- `band 4` (R159). -/
def execBandD4 (s : State) : Host.Outcome State Fault Refusal := .next (runCommand s (bandCommand bandD4))

/-- `band 5` (R160). -/
def execBandD5 (s : State) : Host.Outcome State Fault Refusal := .next (runCommand s (bandCommand bandD5))

/-- `band 6` (R161). -/
def execBandD6 (s : State) : Host.Outcome State Fault Refusal := .next (runCommand s (bandCommand bandD6))

/-- `band 7` (R162). -/
def execBandD7 (s : State) : Host.Outcome State Fault Refusal := .next (runCommand s (bandCommand bandD7))

/-- `band 8` (R163). -/
def execBandD8 (s : State) : Host.Outcome State Fault Refusal := .next (runCommand s (bandCommand bandD8))

/-- `band 9` (R164). -/
def execBandD9 (s : State) : Host.Outcome State Fault Refusal := .next (runCommand s (bandCommand bandD9))

/-- `band 10` (R165). -/
def execBandD10 (s : State) : Host.Outcome State Fault Refusal := .next (runCommand s (bandCommand bandD10))

/-- `band 11` (R166). -/
def execBandD11 (s : State) : Host.Outcome State Fault Refusal := .next (runCommand s (bandCommand bandD11))

/-- `band 12` (R167). -/
def execBandD12 (s : State) : Host.Outcome State Fault Refusal := .next (runCommand s (bandCommand bandD12))

/-- `band 13` (R168). -/
def execBandD13 (s : State) : Host.Outcome State Fault Refusal := .next (runCommand s (bandCommand bandD13))

/-- `band 14` (R169). -/
def execBandD14 (s : State) : Host.Outcome State Fault Refusal := .next (runCommand s (bandCommand bandD14))

/-- `band 15` (R170). -/
def execBandD15 (s : State) : Host.Outcome State Fault Refusal := .next (runCommand s (bandCommand bandD15))

/-- `band 16` (R171). -/
def execBandD16 (s : State) : Host.Outcome State Fault Refusal := .next (runCommand s (bandCommand bandD16))

/-- `band 17` (R172). -/
def execBandP17 (s : State) : Host.Outcome State Fault Refusal := .next (runCommand s (bandCommand bandP17))

/-- `band 18` (R173). -/
def execBandP18 (s : State) : Host.Outcome State Fault Refusal := .next (runCommand s (bandCommand bandP18))

/-- `band 19` (R174). -/
def execBandP19 (s : State) : Host.Outcome State Fault Refusal := .next (runCommand s (bandCommand bandP19))

/-- `band 20` (R175). -/
def execBandP20 (s : State) : Host.Outcome State Fault Refusal := .next (runCommand s (bandCommand bandP20))

/-- `band 21` (R176). -/
def execBandP21 (s : State) : Host.Outcome State Fault Refusal := .next (runCommand s (bandCommand bandP21))

/-- `band 22` (R177). -/
def execBandP22 (s : State) : Host.Outcome State Fault Refusal := .next (runCommand s (bandCommand bandP22))

/-- `band 23` (R178). -/
def execBandP23 (s : State) : Host.Outcome State Fault Refusal := .next (runCommand s (bandCommand bandP23))

/-- `band 24` (R179). -/
def execBandP24 (s : State) : Host.Outcome State Fault Refusal := .next (runCommand s (bandCommand bandP24))

/-- `band 25` (R183). -/
def execBandR25 (s : State) : Host.Outcome State Fault Refusal := .next (runCommand s (bandCommand bandR25))

/-- `band 26` (R180). -/
def execBandP26 (s : State) : Host.Outcome State Fault Refusal := .next (runCommand s (bandCommand bandP26))

/-- `band 27` (R181). -/
def execBandP27 (s : State) : Host.Outcome State Fault Refusal := .next (runCommand s (bandCommand bandP27))

/-- `band 28` (R184). -/
def execBandR28 (s : State) : Host.Outcome State Fault Refusal := .next (runCommand s (bandCommand bandR28))

/-- `band 29` (R182). -/
def execBandP29 (s : State) : Host.Outcome State Fault Refusal := .next (runCommand s (bandCommand bandP29))

/-- `band 30` (R185). -/
def execBandR30 (s : State) : Host.Outcome State Fault Refusal := .next (runCommand s (bandCommand bandR30))

/-- `band 31` (R186). -/
def execBandR31 (s : State) : Host.Outcome State Fault Refusal := .next (runCommand s (bandCommand bandR31))

end Sys2Proof.Machine
end

