-- ==== Sys2Proof/Machine/Lifecycle.lean ====
section
/-! DEFINITION. OPEN and CLOSE, and the reference count of the shared LUT (spec/44_lifecycle.md). -/

namespace Sys2Proof.Machine

open Sys2Proof

/-- The LUT unit as OPEN leaves it: fresh storage when no context was open, and one more open context (R260). -/
def LutUnit.acquire (u : LutUnit) : LutUnit :=
  if u.openCount = 0 then { present := true, openCount := 1, cells := [], e := none }
  else { u with openCount := u.openCount + 1 }

/-- The LUT unit as CLOSE leaves it: one open context fewer, and no storage when none is left (R262). -/
def LutUnit.release (u : LutUnit) : LutUnit :=
  if u.openCount - 1 = 0 then { present := false, openCount := 0, cells := [], e := none }
  else { u with openCount := u.openCount - 1 }

/-- A context as OPEN leaves it: the geometry of R261, the cursors 0, every BUF cell `⊥`, every PREV word 0 (R260). The
bit source is the host's and stays (R341), and so do the marks. -/
def Context.opened (c : Context) (L : BitVec 4) (R : BitVec 12) (total : BitVec 32) : Context :=
  { c with
    L := L
    S := BitVec.ofNat 16 (subbandsOf L)
    R := R
    BW := BitVec.ofNat 27 (blockWordsOf L R)
    T := BitVec.ofNat 11 (chunkRowsOf L)
    remaining := total
    nextBand := 0
    outPos := 0
    outCount := 0
    buf := []
    prev := []
    phase := .idle }

/-- OPEN (R260). -/
def openCommand (L : BitVec 4) (R : BitVec 12) (total : BitVec 32) (w : Work) : Work × Response :=
  if !w.inPhase .closed then (w, .bare .errState)
  else if w.cfg.maxBlockWords < blockWordsOf L R then (w, .bare .errAlloc)
  else ({ w with c := w.c.opened L R total, lut := w.lut.acquire }, .okay)

/-- CLOSE: on a context already CLOSED it is F_DOUBLE_CLOSE, which changes no state but the fault mark; else the
context is CLOSED and its buffers cease to exist (R262, R264). -/
def closeCommand (w : Work) : Work × Response :=
  if w.inPhase .closed then w.recordFault (.doubleClose w.ctx)
  else ({ w with c := { w.c with phase := .closed, buf := [], prev := [] }, lut := w.lut.release }, .okay)

/-- `open L, R, total` (R260). -/
def execOpen (L : BitVec 4) (R : BitVec 12) (total : BitVec 32) (s : State) : Host.Outcome State Fault Refusal :=
  .next (runCommand s (openCommand L R total))

/-- `close` (R262). -/
def execClose (s : State) : Host.Outcome State Fault Refusal := .next (runCommand s closeCommand)

end Sys2Proof.Machine
end

