-- ==== Sys2Proof/Machine/Scale.lean ====
section
/-! DEFINITION. SCALE and LOOKUP (spec/40_scale_table.md). -/

namespace Sys2Proof.Machine

open Sys2Proof

/-- A new block may start: the first two lines of SCALE and of FILL (R130, R242, R303). -/
def Work.mayStartBlock (w : Work) : Bool :=
  match w.c.phase with
  | .closed => false
  | .filling => false
  | .idle => w.drained
  | .failed => true

/-- The value SCALE builds into the physical cell `i` for the step size `s`: trunc_16(k·s) with `k` the logical
index, on both sides of the centre (R130). -/
def scaleValue (s : BitVec 16) (i : Nat) : Half := trunc16 (((i : Int) - 65536) * (s.toNat : Int))

/-- The LUT unit after a build with step exponent `e` and step size `s` (R130, R131): the 2^(e+1) cells of W(e) are
written, every other cell keeps its contents. -/
def LutUnit.build (u : LutUnit) (e : BitVec 4) (s : BitVec 16) : LutUnit :=
  { u with
    cells := Cells.fill u.cells (lutCell (-((2 ^ e.toNat : Nat) : Int))) (2 * 2 ^ e.toNat) (scaleValue s)
    e := some e }

/-- SCALE from its build on (R130). -/
def scaleBuild (e : BitVec 4) (s : BitVec 16) (w : Work) : Work :=
  { w with
    lut := w.lut.build e s
    c := { w.c with nextBand := 0, outPos := 0, outCount := 0, phase := .filling } }

/-- SCALE (R130). -/
def scaleCommand (e : BitVec 4) (s : BitVec 16) (w : Work) : Work × Response :=
  if w.mayStartBlock then (scaleBuild e s w, .okay) else (w, .bare .errState)

/-- LOOKUP (R133): it is not subject to `OOW_POLICY`. -/
def lookupCommand (idx : BitVec 17) (w : Work) : Work × Response :=
  if w.inPhase .closed then (w, .bare .errState)
  else if w.lut.inWindow idx.toInt then (w, .status .ok (w.lut.windowCell idx.toInt))
  else (w, .bare .window)

/-- `scale e, s` (R130). -/
def execScale (e : BitVec 4) (sz : BitVec 16) (s : State) : Host.Outcome State Fault Refusal :=
  .next (runCommand s (scaleCommand e sz))

/-- `lookup idx` (R133). -/
def execLookup (idx : BitVec 17) (s : State) : Host.Outcome State Fault Refusal :=
  .next (runCommand s (lookupCommand idx))

end Sys2Proof.Machine
end

