-- ==== Sys2Proof/Machine/Transform.lean ====
section
/-! DEFINITION. UNTRANSFORM, the hierarchical inverse transform (spec/42_transform.md). -/

namespace Sys2Proof.Machine

open Sys2Proof

/-- The two memories the transform works on in place (R200). -/
structure Banks where
  buf  : Cells Word
  prev : Cells Word
deriving DecidableEq, Repr

/-- Reads a BUF word. -/
def Banks.readBuf (b : Banks) (i : Nat) : Word := bufRead b.buf i

/-- Writes a BUF word. -/
def Banks.writeBuf (b : Banks) (i : Nat) (v : Word) : Banks := { b with buf := Cells.put b.buf i v }

/-- Reads a PREV word. -/
def Banks.readPrev (b : Banks) (j : Nat) : Word := prevRead b.prev j

/-- Writes a PREV word. -/
def Banks.writePrev (b : Banks) (j : Nat) (v : Word) : Banks := { b with prev := prevWrite b.prev j v }

/-! ### The lifting pair and the column kernel (R201) -/

/-- `wrap32(x0 + r0 + 2*r1)` (R201). -/
def liftFirst (x0 r0 r1 : Word) : Word := wrap32 (x0.toInt + r0.toInt + 2 * r1.toInt)

/-- `wrap32(2*x0 - (r1 + x1))` (R201). -/
def liftSecond (x0 x1 r1 : Word) : Word := wrap32 (2 * x0.toInt - (r1.toInt + x1.toInt))

/-- A column on its way: the memories and the carried state (r0, r1). -/
structure Column where
  banks : Banks
  r0 : Word
  r1 : Word
deriving DecidableEq, Repr

/-- One lifting pair on the words `p` and `q`; the state becomes the pair's inputs (R201). -/
def liftPair (p q : Nat) (k : Column) : Column :=
  let x0 := k.banks.readBuf p
  let x1 := k.banks.readBuf q
  { banks := (k.banks.writeBuf p (liftFirst x0 k.r0 k.r1)).writeBuf q (liftSecond x0 x1 k.r1), r0 := x0, r1 := x1 }

/-- Column `c` of a view of `N` rows by `C` columns at `base`: its rows in pairs (2j, 2j+1), in increasing j (R201). -/
def liftColumn (base C N c : Nat) (k : Column) : Column :=
  forRange (N / 2) (fun j k => liftPair (base + c + 2 * j * C) (base + c + 2 * j * C + C) k) k

/-- A stage's carried state in PREV: how it is read and written for one column (R202, R204). -/
structure StateRegion where
  /-- Stage 0's packed words, or the two words a column has in a later stage. -/
  packed : Bool
  /-- The first word of the region (R64). -/
  start : Nat
deriving DecidableEq, Repr

/-- `st.get(c)`, r0 (R64, R202, R204). -/
def StateRegion.get0 (st : StateRegion) (b : Banks) (c : Nat) : Word :=
  if st.packed then sext32 (lowHalf (b.readPrev (st.start + c))) else b.readPrev (st.start + 2 * c)

/-- `st.get(c)`, r1 (R64, R202, R204). -/
def StateRegion.get1 (st : StateRegion) (b : Banks) (c : Nat) : Word :=
  if st.packed then sext32 (highHalf (b.readPrev (st.start + c))) else b.readPrev (st.start + 2 * c + 1)

/-- `st.put(c, r0, r1)`: stage 0 packs `{trunc_16(r1), trunc_16(r0)}` in one word (R64, R202, R204). -/
def StateRegion.put (st : StateRegion) (b : Banks) (c : Nat) (r0 r1 : Word) : Banks :=
  if st.packed then b.writePrev (st.start + c) (lowHalf r1 ++ lowHalf r0)
  else (b.writePrev (st.start + 2 * c) r0).writePrev (st.start + 2 * c + 1) r1

/-- `Lift` on one column: its carried state is read, the column runs, its new state is put back (R201). -/
def liftOne (base C N : Nat) (st : StateRegion) (c : Nat) (b : Banks) : Banks :=
  let k := liftColumn base C N c { banks := b, r0 := st.get0 b c, r1 := st.get1 b c }
  st.put k.banks c k.r0 k.r1

/-- `Lift(base, C, N, st)` (R201). -/
def lift (base C N : Nat) (st : StateRegion) (b : Banks) : Banks := forRange C (liftOne base C N st) b

/-! ### The stages (R202 to R204) -/

/-- Stage 0's region of PREV, words [0, S/2) (R64). -/
def stageZeroRegion : StateRegion := { packed := true, start := 0 }

/-- Stage i's region of PREV, from `B_i = 3·S/2 − S/2^(i−1)` on (R64). -/
def stageRegion (S i : Nat) : StateRegion := { packed := false, start := 3 * S / 2 - S / 2 ^ (i - 1) }

/-- `Stage0(base, Rc)`; with `STAGE0_R1_NOOP` it does nothing on a one-row chunk (R202). -/
def stageZero (noop : Bool) (S base Rc : Nat) (b : Banks) : Banks :=
  if noop && decide (Rc = 1) then b else lift base (S / 2) (2 * Rc) stageZeroRegion b

/-- `Bias(base, Rc)` (R203). -/
def bias (S base Rc : Nat) (b : Banks) : Banks :=
  forRange (2 * Rc) (fun k b => b.writeBuf (base + k * (S / 2)) (wrap32 ((b.readBuf (base + k * (S / 2))).toInt + 1))) b

/-- `Stage(i, base, Rc)`: C_i = S / 2^(i+1) columns, N_i = 2^(i+1)·Rc rows (R204). -/
def stage (S base Rc i : Nat) (b : Banks) : Banks :=
  lift base (S / 2 ^ (i + 1)) (2 ^ (i + 1) * Rc) (stageRegion S i) b

/-- The whole stage sequence on one chunk: stage 0, the bias, stages 1..L−1 (R200, R205). -/
def transformChunk (noop : Bool) (L S base Rc : Nat) (b : Banks) : Banks :=
  forRange (L - 1) (fun i b => stage S base Rc (i + 1) b) (bias S base Rc (stageZero noop S base Rc b))

/-- `while j * T < R`: the chunks from `j` on, in increasing order (R200, R205). T ≥ 1 makes `R` turns enough:
`turns` counts those left. -/
def transformChunks (noop : Bool) (L S T R : Nat) (turns j : Nat) (b : Banks) : Banks :=
  match turns with
  | 0 => b
  | n + 1 =>
    if j * T < R then
      transformChunks noop L S T R n (j + 1) (transformChunk noop L S (j * T * S) (min T (R - j * T)) b)
    else b

/-- The transform of a context's block; none for L = 0 (R200, R208). -/
def transformBlock (noop : Bool) (c : Context) : Banks :=
  let b : Banks := { buf := c.buf, prev := c.prev }
  if c.L = 0 then b
  else transformChunks noop c.L.toNat c.S.toNat c.T.toNat c.R.toNat c.R.toNat 0 b

/-! ### The command -/

/-- `min(BW, remaining)` (R200). -/
def blockOutput (c : Context) : Nat := min c.BW.toNat c.remaining.toNat

/-- UNTRANSFORM from its transform on (R200). -/
def finishBlock (w : Work) : Work :=
  { w with
    c := { w.c with
      buf := (transformBlock w.cfg.stage0R1Noop w.c).buf
      prev := (transformBlock w.cfg.stage0R1Noop w.c).prev
      outCount := blockOutput w.c
      remaining := w.c.remaining - BitVec.ofNat 32 (blockOutput w.c)
      outPos := 0
      phase := .idle } }

/-- UNTRANSFORM (R200). -/
def untransformCommand (w : Work) : Work × Response :=
  if w.inPhase .filling && decide (w.c.nextBand = w.c.S.toNat) then (finishBlock w, .okay) else (w, .bare .errState)

/-- `untransform` (R200). -/
def execUntransform (s : State) : Host.Outcome State Fault Refusal := .next (runCommand s untransformCommand)

end Sys2Proof.Machine
end

