-- ==== Sys2Proof/Machine/Stream.lean ====
section
/-! DEFINITION. POP and FILL (spec/43_streaming.md). -/

namespace Sys2Proof.Machine

open Sys2Proof

/-- POP (R240, R241). -/
def popCommand (w : Work) : Work × Response :=
  if w.inPhase .closed then (w, .bare .errState)
  else if !w.inPhase .idle || w.drained then (w, .bare .empty)
  else
    ({ w with c := { w.c with outPos := w.c.outPos + 1 } }, .status .ok (pcmOf (bufRead w.c.buf w.c.outPos) w.c.L))

/-- FILL's loop over the subbands, `n` of them left: each takes its format code and runs BAND from its dispatch on;
what is not OK ends FILL at once, and after the last subband UNTRANSFORM's transform runs (R242). -/
def fillBands (n : Nat) (w : Work) : Work × Response :=
  match n with
  | 0 => (finishBlock w, .okay)
  | m + 1 =>
    let code := w.take 5
    let done := bandDispatch (BitVec.ofNat 5 code.1) code.2
    if done.2 = .okay then fillBands m done.1 else done

/-- FILL from the block's first field on (R90, R242). -/
def fillBlock (w : Work) : Work × Response :=
  let e := w.take 4
  let sz := e.2.take 16
  fillBands w.c.S.toNat (scaleBuild (BitVec.ofNat 4 e.1) (BitVec.ofNat 16 sz.1) sz.2)

/-- FILL (R242). -/
def fillCommand (w : Work) : Work × Response :=
  if !w.mayStartBlock then (w, .bare .errState)
  else if w.c.remaining = 0 then (w, .bare .empty)
  else fillBlock w

/-- `pop` (R240). -/
def execPop (s : State) : Host.Outcome State Fault Refusal := .next (runCommand s popCommand)

/-- `fill` (R242). -/
def execFill (s : State) : Host.Outcome State Fault Refusal := .next (runCommand s fillCommand)

end Sys2Proof.Machine
end

