-- ==== Sys2Proof/Machine/Dispatch.lean ====
section
/-! DEFINITION. `exec`: one arm for each command, each a direct call of its meaning. -/

namespace Sys2Proof.Machine

open Sys2Proof

def exec (i : Instr) (s : State) : Host.Outcome State Fault Refusal :=
  match i with
  | .scale e sz => Sys2Proof.Machine.execScale e sz s
  | .lookup idx => Sys2Proof.Machine.execLookup idx s
  | .bandZ => Sys2Proof.Machine.execBandZ s
  | .bandR1 => Sys2Proof.Machine.execBandR1 s
  | .bandR2 => Sys2Proof.Machine.execBandR2 s
  | .bandD3 => Sys2Proof.Machine.execBandD3 s
  | .bandD4 => Sys2Proof.Machine.execBandD4 s
  | .bandD5 => Sys2Proof.Machine.execBandD5 s
  | .bandD6 => Sys2Proof.Machine.execBandD6 s
  | .bandD7 => Sys2Proof.Machine.execBandD7 s
  | .bandD8 => Sys2Proof.Machine.execBandD8 s
  | .bandD9 => Sys2Proof.Machine.execBandD9 s
  | .bandD10 => Sys2Proof.Machine.execBandD10 s
  | .bandD11 => Sys2Proof.Machine.execBandD11 s
  | .bandD12 => Sys2Proof.Machine.execBandD12 s
  | .bandD13 => Sys2Proof.Machine.execBandD13 s
  | .bandD14 => Sys2Proof.Machine.execBandD14 s
  | .bandD15 => Sys2Proof.Machine.execBandD15 s
  | .bandD16 => Sys2Proof.Machine.execBandD16 s
  | .bandP17 => Sys2Proof.Machine.execBandP17 s
  | .bandP18 => Sys2Proof.Machine.execBandP18 s
  | .bandP19 => Sys2Proof.Machine.execBandP19 s
  | .bandP20 => Sys2Proof.Machine.execBandP20 s
  | .bandP21 => Sys2Proof.Machine.execBandP21 s
  | .bandP22 => Sys2Proof.Machine.execBandP22 s
  | .bandP23 => Sys2Proof.Machine.execBandP23 s
  | .bandP24 => Sys2Proof.Machine.execBandP24 s
  | .bandR25 => Sys2Proof.Machine.execBandR25 s
  | .bandP26 => Sys2Proof.Machine.execBandP26 s
  | .bandP27 => Sys2Proof.Machine.execBandP27 s
  | .bandR28 => Sys2Proof.Machine.execBandR28 s
  | .bandP29 => Sys2Proof.Machine.execBandP29 s
  | .bandR30 => Sys2Proof.Machine.execBandR30 s
  | .bandR31 => Sys2Proof.Machine.execBandR31 s
  | .untransform => Sys2Proof.Machine.execUntransform s
  | .pop => Sys2Proof.Machine.execPop s
  | .fill => Sys2Proof.Machine.execFill s
  | .openCtx L R total => Sys2Proof.Machine.execOpen L R total s
  | .closeCtx => Sys2Proof.Machine.execClose s

end Sys2Proof.Machine
end

