-- ==== Sys2Proof/Machine/Fetch.lean ====
section
/-! DEFINITION. The command port (spec/10_state.md R20, spec/20_memory.md R73, spec/30_encoding.md R95): taking the
next command from it, and placing one on it. -/

namespace Sys2Proof.Machine

open Sys2Proof

/-- What the command port has to offer. -/
inductive Fetched where
  /-- No whole command is there: SSB waits (R342). -/
  | waiting
  /-- A reserved encoding, its one word taken (R101, R304). -/
  | illegal (s : State)
  /-- A command, its words taken and its context number latched. -/
  | command (i : Instr) (s : State)

/-- The state once the first `n` words have been taken from the port and `ctx` is the side-band context number. -/
def State.taken (s : State) (ctx n : Nat) : State := { s with port := s.port.drop n, ctx := ctx }

/-- Takes the next command from the port. Its context number is the one beside its word 0. OPEN's second word is
taken only with a legal word 0 (R304), and until it is there the command has not arrived (log entry 6). -/
def fetch (s : State) : Fetched :=
  match s.port with
  | [] => .waiting
  | p :: _ =>
    match decode (s.port.map PortWord.word) with
    | .ok (i, _) => .command i (s.taken p.ctx i.words)
    | .error .noWord => .waiting
    | .error .noSecondWord => .waiting
    | .error (.reservedOpcode _) => .illegal (s.taken p.ctx 1)
    | .error (.reservedBits _) => .illegal (s.taken p.ctx 1)

/-- The words the `nbits` bits `w` stand for: word 0, and word 1 where word 0 is an OPEN. -/
def fetchWords (nbits w : Nat) : List Word :=
  let v := w % 2 ^ nbits
  if opcodeOf (BitVec.ofNat 32 v) = 7#4 then [BitVec.ofNat 32 v, BitVec.ofNat 32 (v / 2 ^ 32)]
  else [BitVec.ofNat 32 v]

end Sys2Proof.Machine
end

