-- ==== Sys2Proof/Machine/Step.lean ====
section
/-! DEFINITION. One step: SSB takes the next command from its command port and executes it whole
(spec/00_scope.md R12, spec/20_memory.md R73). -/

namespace Sys2Proof.Machine

open Sys2Proof

/-- One step. With no whole command on the port SSB waits, and the state stays as it is (R342). -/
def step (s : State) : Host.Outcome State Fault Refusal :=
  match fetch s with
  | .waiting => .next s
  | .illegal t => .next (illegalCommand t)
  | .command i t => exec i t

/-- The state with one instruction's words put in front on the command port, addressed to context 0 (the default of
R104): the host's next command. -/
def State.withFetchWord (s : State) (nbits w : Nat) : State :=
  { s with port := (fetchWords nbits w).map (fun x => { ctx := 0, word := x }) ++ s.port }

end Sys2Proof.Machine
end

