-- ==== Sys2Proof/Machine/ReadLoop.lean ====
section
/-! DEFINITION. The host's read loop (spec/43_streaming.md R243): not a part of SSB, but the program that drives it.
It is here so that statements can speak of what a host reads. -/

namespace Sys2Proof.Machine

open Sys2Proof

/-- The state after a command, and its response; `none` would be a step that stops, which no command is. -/
def answerOf (o : Host.Outcome State Fault Refusal) : Option (State × Option Response) :=
  match o with
  | .next t => some (t, t.resp)
  | .fault _ => none
  | .refused _ => none

/-- `read(buffer, size)` on the addressed context, `left` bytes of the buffer still free, for at most `turns` turns of
the loop: with R = 0 the loop need not end (R352). Answers the bytes produced and the state left. -/
def readLoop (turns left : Nat) (s : State) : List Byte × State :=
  match turns with
  | 0 => ([], s)
  | n + 1 =>
    if left < 2 then ([], s)
    else
      match answerOf (exec .pop s) with
      | none => ([], s)
      | some (t, some (.status .ok d)) =>
        let rest := readLoop n (left - 2) t
        (pcmBytes d ++ rest.1, rest.2)
      | some (t, _) =>
        match answerOf (exec .fill t) with
        | none => ([], t)
        | some (u, r) => if r = some .okay then readLoop n left u else ([], u)

end Sys2Proof.Machine
end

