-- ==== Sys2Proof/Safety.lean ====
section
/-! DEFINITION. What a good state of SSB is: the invariants the spec states or derives, in the terms the statements
use. -/

namespace Sys2Proof.Machine

open Sys2Proof

/-- A context that is open and has neither faulted nor been refused: its registers and buffers have a meaning
(R33, R305). -/
def Context.live (c : Context) : Prop := c.phase ≠ .closed ∧ c.fault = none ∧ c.refused = false

/-- The geometry registers are the ones OPEN derives from L and R, and the block fits (R7, R26, R261). -/
def Context.geometry (cfg : Config) (c : Context) : Prop :=
  c.S.toNat = subbandsOf c.L ∧ c.BW.toNat = blockWordsOf c.L c.R ∧ c.T.toNat = chunkRowsOf c.L ∧
    c.BW.toNat ≤ cfg.maxBlockWords

/-- The cursors are in their ranges (R28, R29), and both output cursors are 0 while a block is being filled or has
failed (SCALE sets them to 0, R29). -/
def Context.cursors (c : Context) : Prop :=
  c.nextBand ≤ c.S.toNat ∧ c.outPos ≤ c.outCount ∧ c.outCount ≤ c.BW.toNat ∧
    (c.phase = .filling ∨ c.phase = .failed → c.outPos = 0 ∧ c.outCount = 0)

/-- A stored word is a 16-bit value: every value a band rule writes is in [−32768, 32767] (R152, R154). -/
def inSampleRange (v : Word) : Prop := -32768 ≤ v.toInt ∧ v.toInt ≤ 32767

/-- The words a context has written: while a block is filled, all rows of the subbands below `next_band` hold 16-bit
values (R154); in IDLE every word the output cursor can still reach is written (R240). -/
def Context.written (c : Context) : Prop :=
  (c.phase = .filling →
    ∀ sb < c.nextBand, ∀ r < c.R.toNat, ∃ v, Cells.get? c.buf (bufIndex c.S.toNat r sb) = some v ∧ inSampleRange v) ∧
  (c.phase = .idle → ∀ i < c.outCount, (Cells.get? c.buf i).isSome)

/-- The buffers hold nothing outside their index ranges (R60, R69, R207). -/
def Context.inBounds (c : Context) : Prop :=
  (∀ p ∈ c.buf, p.1 < c.BW.toNat) ∧ ∀ p ∈ c.prev, p.1 < prevWordsOf c.L

/-- How many samples the context may still produce: `remaining` and what the output cursor has left (R27, R29, R244). -/
def Context.budget (c : Context) : Nat := c.remaining.toNat + (c.outCount - c.outPos)

/-- How many contexts are not in phase CLOSED (R23, R263). -/
def openContexts (cs : List Context) : Nat := (cs.filter fun c => decide (c.phase ≠ .closed)).length

/-- The reference-count invariant (R23, R263), with what follows from absent storage: no cell and no `lut_e` (R36). -/
def State.refCounted (s : State) : Prop :=
  s.lut.openCount = openContexts s.contexts ∧ (s.lut.present = true ↔ 0 < s.lut.openCount) ∧
    (s.lut.present = false → s.lut.cells = [] ∧ s.lut.e = none)

/-- Every cell of the current window is written (R131), and no cell outside the LUT is (R60). -/
def LutUnit.windowWritten (u : LutUnit) : Prop :=
  (∀ k, u.inWindow k = true → (u.read? k).isSome) ∧ ∀ p ∈ u.cells, p.1 < lutEntries

/-- There are K contexts (R20). -/
def State.sized (s : State) : Prop := s.contexts.length = s.cfg.K

/-- Every live context keeps its geometry and cursors. -/
def State.shaped (s : State) : Prop :=
  ∀ c ∈ s.contexts, c.live → c.geometry s.cfg ∧ c.cursors

/-- Every live context is shaped and has written what its phase says. -/
def State.filled (s : State) : Prop :=
  ∀ c ∈ s.contexts, c.live → c.geometry s.cfg ∧ c.cursors ∧ c.written

/-- Every live context is shaped and inside its index ranges. -/
def State.bounded (s : State) : Prop :=
  ∀ c ∈ s.contexts, c.live → c.geometry s.cfg ∧ c.cursors ∧ c.inBounds

/-- A safe state: all of the above. -/
def State.safe (s : State) : Prop :=
  s.sized ∧ s.refCounted ∧ s.lut.windowWritten ∧ Memory.wf s ∧ s.filled ∧ s.bounded

end Sys2Proof.Machine
end

