-- ==== Sys2Proof/Certificates/Slice0/Obligations.lean ====
section
/-! DEFINITION. The statements for the provers, and the words they are written in. -/

namespace Sys2Proof.Claims

open Sys2Proof Sys2Proof.Machine

/-! ### States and answers -/

/-- The addressed context is `c`, and it executes commands: it has neither faulted nor been refused (R306). -/
def Serves (s : State) (c : Context) : Prop :=
  s.contexts[s.ctx]? = some c ∧ c.fault = none ∧ c.refused = false

/-- The state `s` with nothing changed but the addressed context, now `c`, and the response. -/
def answered (s : State) (c : Context) (r : Response) : State :=
  { s with contexts := s.contexts.set s.ctx c, resp := some r }

/-- The state `s` with nothing changed but the response: a status with data 0. -/
def turnedAway (s : State) (st : Status) : State := { s with resp := some (.status st 0) }

/-- The state after a command. No command stops the machine; were one to, this would be `s`. -/
def nextOf (s : State) (o : Host.Outcome State Fault Refusal) : State :=
  match o with
  | .next t => t
  | .fault _ => s
  | .refused _ => s

/-- The phases in which SCALE and FILL may start a block (R130, R303). -/
def Startable (c : Context) : Prop := (c.phase = .idle ∧ c.outPos = c.outCount) ∨ c.phase = .failed

/-- A BAND is expected: a block is being filled and not all its subbands are written (R150, R303). -/
def Expecting (s : State) (c : Context) : Prop := Serves s c ∧ c.phase = .filling ∧ c.nextBand < c.S.toNat

/-- Row `r` of the column being filled (R31, R62). -/
def rowIndex (c : Context) (r : Nat) : Nat := r * c.S.toNat + c.nextBand

/-- `buf` holds `f r` in every row `r` of the column `next_band`, and in every other word what `c` holds there. -/
def columnHolds (c : Context) (buf : Cells Word) (f : Nat → Word) : Prop :=
  (∀ r < c.R.toNat, Cells.get? buf (rowIndex c r) = some (f r)) ∧
    ∀ i, (∀ r < c.R.toNat, i ≠ rowIndex c r) → Cells.get? buf i = Cells.get? c.buf i

/-- The command `i` answers OK: row `r` of the column `next_band` becomes `f r`, `next_band` moves on by one and the
stream by `bits` bits, and nothing else changes. -/
def FillsColumn (i : Instr) (s : State) (c : Context) (f : Nat → Word) (bits : Nat) : Prop :=
  ∃ buf, columnHolds c buf f ∧
    exec i s = .next (answered s { c with buf := buf, nextBand := c.nextBand + 1, bitPos := c.bitPos + bits } .okay)

/-- The command `i` answers FAULTED with `f`: the context records `f`, its phase, geometry, budget and stream bytes
stay, its buffers, cursors and stream position may be anything (R305, U16), and outside it nothing changes but the
draw counter. -/
def EndsInFault (i : Instr) (s : State) (c : Context) (f : FaultRecord) : Prop :=
  ∃ c' draws,
    c' = { c with
      fault := some f
      nextBand := c'.nextBand, outPos := c'.outPos, outCount := c'.outCount
      buf := c'.buf, prev := c'.prev, bitPos := c'.bitPos } ∧
    exec i s = .next { s with contexts := s.contexts.set s.ctx c', draws := draws, resp := some (.faulted f) }

/-! ### Encodings -/

/-- The bits R92 fixes at 0 are the top bits of word 0: a legal word 0 has a known opcode and is below the first of
them. -/
def legalWord (w : Word) : Prop :=
  match (opcodeOf w).toNat with
  | 1 => w.toNat < 2 ^ 24
  | 2 => w.toNat < 2 ^ 21
  | 3 => w.toNat < 2 ^ 9
  | 4 => w.toNat < 2 ^ 4
  | 5 => w.toNat < 2 ^ 4
  | 6 => w.toNat < 2 ^ 4
  | 7 => w.toNat < 2 ^ 20
  | 8 => w.toNat < 2 ^ 4
  | _ => False

/-! ### The phase table (R303) -/

/-- The cell of R303's table: the response that turns the command away, or `none` for "—". -/
def phaseTable (i : Instr) (ctx : Nat) (c : Context) : Option Response :=
  match i with
  | .scale _ _ =>
    match c.phase with
    | .closed => some (.bare .errState)
    | .idle => if c.outPos = c.outCount then none else some (.bare .errState)
    | .filling => some (.bare .errState)
    | .failed => none
  | .lookup _ =>
    match c.phase with
    | .closed => some (.bare .errState)
    | .idle => none
    | .filling => none
    | .failed => none
  | .untransform =>
    match c.phase with
    | .closed => some (.bare .errState)
    | .idle => some (.bare .errState)
    | .filling => if c.nextBand = c.S.toNat then none else some (.bare .errState)
    | .failed => some (.bare .errState)
  | .pop =>
    match c.phase with
    | .closed => some (.bare .errState)
    | .idle => if c.outPos = c.outCount then some (.bare .empty) else none
    | .filling => some (.bare .empty)
    | .failed => some (.bare .empty)
  | .fill =>
    match c.phase with
    | .closed => some (.bare .errState)
    | .idle =>
      if c.outPos = c.outCount then if c.remaining = 0 then some (.bare .empty) else none
      else some (.bare .errState)
    | .filling => some (.bare .errState)
    | .failed => if c.remaining = 0 then some (.bare .empty) else none
  | .openCtx _ _ _ =>
    match c.phase with
    | .closed => none
    | .idle => some (.bare .errState)
    | .filling => some (.bare .errState)
    | .failed => some (.bare .errState)
  | .closeCtx =>
    match c.phase with
    | .closed => some (.faulted (.doubleClose ctx))
    | .idle => none
    | .filling => none
    | .failed => none
  | _ =>
    match c.phase with
    | .closed => some (.bare .errState)
    | .idle => some (.bare .errState)
    | .filling => if c.nextBand < c.S.toNat then none else some (.bare .errState)
    | .failed => some (.bare .errState)

/-! ### The LUT -/

/-- R130's pseudocode read literally: the accumulator walks from the centre outward, first up, then down, and each
turn writes one cell. -/
def accumulatorWalk (m : Cells Half) (e : BitVec 4) (s : BitVec 16) : Cells Half :=
  let up := forRange (2 ^ e.toNat)
    (fun k (a : Int × Cells Half) => (a.1 + (s.toNat : Int), Cells.put a.2 (lutCell (k : Int)) (trunc16 a.1))) (0, m)
  let down := forRange (2 ^ e.toNat)
    (fun k (a : Int × Cells Half) =>
      (a.1 - (s.toNat : Int), Cells.put a.2 (lutCell (-((k : Int) + 1))) (trunc16 (a.1 - (s.toNat : Int)))))
    (0, up.2)
  down.2

/-! ### Bands -/

/-- The direct n-bit bands, with n (R158 to R171). -/
def directBands : List (Nat × Instr) :=
  [(3, .bandD3), (4, .bandD4), (5, .bandD5), (6, .bandD6), (7, .bandD7), (8, .bandD8), (9, .bandD9), (10, .bandD10),
   (11, .bandD11), (12, .bandD12), (13, .bandD13), (14, .bandD14), (15, .bandD15), (16, .bandD16)]

/-- The reserved format codes (R102). -/
def reservedBands : List Instr := [.bandR1, .bandR2, .bandR25, .bandR28, .bandR30, .bandR31]

/-- The packed format codes (R100). -/
def packedBands : List Instr :=
  [.bandP17, .bandP18, .bandP19, .bandP20, .bandP21, .bandP22, .bandP23, .bandP24, .bandP26, .bandP27, .bandP29]

/-- The scale index of row `r` of a direct n-bit band: `raw − 2^(n−1)`, `raw` the r-th n bits of the payload (R153). -/
def directIndex (c : Context) (n r : Nat) : Int :=
  (streamBits c.source (c.bitPos + n * r) n : Int) - ((2 ^ (n - 1) : Nat) : Int)

/-- What a symbol writes when its index is inside the window (R152). -/
def symbolValue (u : LutUnit) (y : Symbol) : Word :=
  match y with
  | .zero => 0
  | .deq k => sext32 (u.windowCell k)

/-- A codeword of a packed band: the rows it stands for, and its bits, first bit first. -/
abbrev Codeword := List Symbol × List Bool

/-- The codewords that `lead` begins and that go on with one row of a table of indices. -/
def coded (lead : List Bool) (table : List (Int × List Bool)) : List Codeword :=
  table.map fun p => ([.deq p.1], lead ++ p.2)

/-- ±1 in one bit (R187, MAP1). -/
def unitTable : List (Int × List Bool) := [(-1, [false]), (1, [true])]

/-- NEAR2's entries with the two bits that select them, first bit first (R187). -/
def nearTable : List (Int × List Bool) :=
  [(-2, [false, false]), (-1, [true, false]), (1, [false, true]), (2, [true, true])]

/-- FAR2's entries (R187). -/
def farTable : List (Int × List Bool) :=
  [(-3, [false, false]), (-2, [true, false]), (2, [false, true]), (3, [true, true])]

/-- MAP3's entries (R187). -/
def eightTable : List (Int × List Bool) :=
  [(-4, [false, false, false]), (-3, [true, false, false]), (-2, [false, true, false]), (-1, [true, true, false]),
   (1, [false, false, true]), (2, [true, false, true]), (3, [false, true, true]), (4, [true, true, true])]

/-- The packed bands that are prefix codes: the command, the largest |k|, and the codewords (R172, R173, R175, R176,
R178 to R181, R187). -/
def prefixBands : List (Instr × Int × List Codeword) :=
  [(.bandP17, 1, [([.zero, .zero], [false]), ([.zero], [true, false])] ++ coded [true, true] unitTable),
   (.bandP18, 1, [([.zero], [false])] ++ coded [true] unitTable),
   (.bandP20, 2, [([.zero, .zero], [false]), ([.zero], [true, false])] ++ coded [true, true] nearTable),
   (.bandP21, 2, [([.zero], [false])] ++ coded [true] nearTable),
   (.bandP23, 3, [([.zero, .zero], [false]), ([.zero], [true, false])] ++ coded [true, true, false] unitTable ++
      coded [true, true, true] farTable),
   (.bandP24, 3, [([.zero], [false])] ++ coded [true, false] unitTable ++ coded [true, true] farTable),
   (.bandP26, 4, [([.zero, .zero], [false]), ([.zero], [true, false])] ++ coded [true, true] eightTable),
   (.bandP27, 4, [([.zero], [false])] ++ coded [true] eightTable)]

/-- A mixed-radix band: `n` digits of base `base` in `bits` bits (R174, R177, R182). -/
structure RadixBand where
  instr : Instr
  code  : BitVec 5
  bits  : Nat
  base  : Nat
  n     : Nat

/-- The mixed-radix bands. -/
def radixBands : List RadixBand :=
  [{ instr := .bandP19, code := 19, bits := 5, base := 3, n := 3 },
   { instr := .bandP22, code := 22, bits := 7, base := 5, n := 3 },
   { instr := .bandP29, code := 29, bits := 7, base := 11, n := 2 }]

/-- The value of group `j` of the payload. -/
def groupValue (c : Context) (bits j : Nat) : Nat := streamBits c.source (c.bitPos + bits * j) bits

/-- The index of row `r`: digit `r mod n` of group `r / n`, digit 0 the lowest, less the middle digit. -/
def radixIndex (c : Context) (b : RadixBand) (r : Nat) : Int :=
  ((groupValue c b.bits (r / b.n) / b.base ^ (r % b.n) % b.base : Nat) : Int) - (((b.base - 1) / 2 : Nat) : Int)

/-! ### FILL through the other commands -/

/-- The next `n` bits of the addressed context's stream, as a number. -/
def streamAhead (s : State) (n : Nat) : Nat :=
  match s.contexts[s.ctx]? with
  | some c => streamBits c.source c.bitPos n
  | none => 0

/-- The host has moved the addressed context's stream on by `n` bits. -/
def streamMoved (s : State) (n : Nat) : State :=
  { s with contexts := s.contexts.modify s.ctx fun c => { c with bitPos := c.bitPos + n } }

/-- The host parses `n` format codes from the stream and issues the BANDs, and after the last one UNTRANSFORM; it stops
at the first answer that is not OK. -/
def fineBands (n : Nat) (s : State) : State :=
  match n with
  | 0 => nextOf s (exec .untransform s)
  | m + 1 =>
    let code := BitVec.ofNat 5 (streamAhead s 5)
    let t := nextOf s (exec (Instr.band code) (streamMoved s 5))
    if t.resp = some .okay then fineBands m t else t

/-- The host parses a whole block from the stream and drives it through SCALE, BANDs and UNTRANSFORM (R90, R355). -/
def fineFill (subbands : Nat) (s : State) : State :=
  let e := BitVec.ofNat 4 (streamAhead s 4)
  let x := BitVec.ofNat 16 (streamAhead (streamMoved s 4) 16)
  fineBands subbands (nextOf s (exec (.scale e x) (streamMoved s 20)))

end Sys2Proof.Claims

open Sys2Proof Sys2Proof.Machine Sys2Proof.Claims

/-! ### Encoding -/

/-- Decoding an encoded command gives it back with the words after it, for every command and every operand (R92 to
R95). -/
def Obligations.DecodeEncodeRoundTrip : Prop :=
  ∀ (i : Instr) (rest : List Word), decode (encode i ++ rest) = .ok (i, rest)

/-- What the decoder accepts is the encoding of what it answers, so no two word sequences mean one command and no bit
of an accepted word is dropped (R92, R101). -/
def Obligations.AcceptedWordsAreEncodings : Prop :=
  ∀ (ws rest : List Word) (i : Instr), decode ws = .ok (i, rest) → ws = encode i ++ rest

/-- R101: a word with a reserved encoding is taken from the port alone, has no effect on any other state and is
answered ERR_CMD, on any context that is not faulted or refused (R306 puts that first) and for a context number the
machine does not have. The port as a queue, with one word taken and its context number latched, is the model's reading
of R20, R73 and R304 (log entry 6). -/
def Obligations.ReservedEncodingsAnswerErrCmd : Prop :=
  ∀ (s : State) (p : PortWord) (rest : List PortWord), s.port = p :: rest → ¬ legalWord p.word →
    (∀ c, s.contexts[p.ctx]? = some c → c.fault = none ∧ c.refused = false) →
    step s = .next { s with port := rest, ctx := p.ctx, resp := some (.status .errCmd 0) }

/-- Words the spec writes out decode to the commands it names (file 95, E1 to E8; R130, R155, R171, R260, R262). -/
def Obligations.SpecWordsDecode : Prop :=
  decode [0x00000321] = .ok (.scale 2 3, []) ∧
  decode [0x00FFFFF1] = .ok (.scale 15 65535, []) ∧
  decode [0x001FFFC2] = .ok (.lookup (-4), []) ∧
  decode [0x00100002] = .ok (.lookup (-65536), []) ∧
  decode [0x00000003] = .ok (.bandZ, []) ∧
  decode [0x00000103] = .ok (.bandD16, []) ∧
  decode [0x000001D3] = .ok (.bandP29, []) ∧
  decode [0x000001F3] = .ok (.bandR31, []) ∧
  decode [0x00000004] = .ok (.untransform, []) ∧
  decode [0x00000005] = .ok (.pop, []) ∧
  decode [0x00000006] = .ok (.fill, []) ∧
  decode [0x00000217, 0x00000004] = .ok (.openCtx 1 2 4, []) ∧
  decode [0x00000008] = .ok (.closeCtx, [])

/-- A step runs the decoded command: with a whole command at the front of the port, one step is `exec` of it, after its
words are taken from the port and the context number beside its word 0 is latched (R20, R73, R95). That OPEN's context
number is the one beside its word 0, whatever stands beside word 1, and the port as a queue are the model's reading (log
entry 6), not the spec's words. -/
def Obligations.StepRunsDecodedInstruction : Prop :=
  ∀ (s : State) (p : PortWord) (ps : List PortWord) (i : Instr) (rest : List Word),
    s.port = p :: ps → decode (s.port.map PortWord.word) = .ok (i, rest) →
    step s = exec i { s with port := s.port.drop i.words, ctx := p.ctx }

/-- With no whole command on the port SSB waits: an empty port (R342), and, as the model reads R304 (log entry 6),
OPEN's word 0 with word 1 not there yet. -/
def Obligations.PortWithoutACommandWaits : Prop :=
  (∀ s : State, s.port = [] → step s = .next s) ∧
  ∀ (s : State) (p : PortWord), s.port = [p] → opcodeOf p.word = 7#4 → legalWord p.word → step s = .next s

/-! ### Responses, faults and contexts -/

/-- Every command answers: there is a next state with a response, and only the addressed context, the LUT unit and the
draw counter may differ (R12, R20, R300). The free values' counter is the model's own (log entry 2). -/
def Obligations.CommandsAnswerAndTouchOneContext : Prop :=
  ∀ (i : Instr) (s : State), ∃ t r, exec i s = .next t ∧ t.resp = some r ∧ t.cfg = s.cfg ∧ t.port = s.port ∧
    t.ctx = s.ctx ∧ t.contexts.length = s.contexts.length ∧ ∀ j ≠ s.ctx, t.contexts[j]? = s.contexts[j]?

/-- Contexts are isolated but for the LUT unit: two states that agree on the configuration, the LUT unit, the draw
counter and the addressed context give the same answer and leave them the same, whatever the other contexts hold
(R20, R316). The draw counter is the model's own field, and that two such states agree on it, on the stale draws and on
what a faulted or refused context is left with (its buffers, cursors and stream position) is the model's choice of free
values as functions of that counter (log entries 2 and 4): the spec says a draw under no law, any value, no meaning. -/
def Obligations.ContextsAreIsolated : Prop :=
  ∀ (i : Instr) (a b : State), a.cfg = b.cfg → a.ctx = b.ctx → a.lut = b.lut → a.draws = b.draws →
    a.contexts[a.ctx]? = b.contexts[b.ctx]? →
    ∃ t u, exec i a = .next t ∧ exec i b = .next u ∧ t.resp = u.resp ∧ t.lut = u.lut ∧ t.draws = u.draws ∧
      t.contexts[a.ctx]? = u.contexts[b.ctx]?

/-- A command to a faulted context is not executed and answers FAULTED with the recorded fault; to a refused one,
REFUSED (R33, R305, R306). -/
def Obligations.MarkedContextExecutesNothing : Prop :=
  ∀ (i : Instr) (s : State) (c : Context), s.contexts[s.ctx]? = some c →
    (∀ f, c.fault = some f → exec i s = .next { s with resp := some (.faulted f) }) ∧
    (c.fault = none → c.refused = true → exec i s = .next { s with resp := some .refused })

/-- No step clears a fault, with its recorded information, or a refusal, on any context (R33, R305, R341). -/
def Obligations.MarksAreNeverCleared : Prop :=
  ∀ (s t : State) (j : Nat) (c : Context), step s = .next t → s.contexts[j]? = some c →
    ∃ c', t.contexts[j]? = some c' ∧ (∀ f, c.fault = some f → c'.fault = some f) ∧ (c.refused = true → c'.refused = true)

/-- A context number at or above K answers ERR_CMD, before anything else, and changes no state (R304, R306). -/
def Obligations.ContextNumberAtOrAboveKIsErrCmd : Prop :=
  ∀ (i : Instr) (s : State), s.sized → s.cfg.K ≤ s.ctx → exec i s = .next (turnedAway s .errCmd)

/-- Every status outcome other than OK and FAIL_BAND leaves all state unchanged, and its data is 0 (R300, R308). -/
def Obligations.TurnedAwayStatusChangesNothing : Prop :=
  ∀ (i : Instr) (s t : State) (st : Status) (d : Half), exec i s = .next t → t.resp = some (.status st d) →
    st ≠ .ok → st ≠ .failBand → t = turnedAway s st

/-- R303: which command is turned away in which phase, and how; where the table says the command runs, its answer is
none of ERR_STATE, EMPTY and F_DOUBLE_CLOSE. -/
def Obligations.PhaseLegalityTable : Prop :=
  ∀ (i : Instr) (s : State) (c : Context), Serves s c → c.nextBand ≤ c.S.toNat →
    match phaseTable i s.ctx c with
    | some (.status st d) => exec i s = .next { s with resp := some (.status st d) }
    | some r => ∃ t, exec i s = .next t ∧ t.resp = some r
    | none => ∃ t, exec i s = .next t ∧ t.resp ≠ some (.bare .errState) ∧ t.resp ≠ some (.bare .empty) ∧
        ∀ n, t.resp ≠ some (.faulted (.doubleClose n))

/-! ### The bit source -/

/-- R70, R71: a take of n bits is a number below 2^n whose bit j is the j-th bit taken; stream bit 8·j + b is bit b of
byte j, and 0 past the last byte. -/
def Obligations.TakeReadsTheStreamInOrder : Prop :=
  (∀ (bytes : List Byte) (p n : Nat), streamBits bytes p n < 2 ^ n ∧
    ∀ j < n, (streamBits bytes p n).testBit j = streamBit bytes (p + j)) ∧
  ∀ (bytes : List Byte) (j b : Nat), b < 8 →
    streamBit bytes (8 * j + b) = (bytes.getD j 0).getLsbD b ∧
    (bytes.length ≤ j → streamBit bytes (8 * j + b) = false)

/-! ### SCALE and LOOKUP -/

/-- R130: in the phases that allow it SCALE builds the window W(e), leaves every other cell, sets lut_e and starts the
block, and nothing else changes; in the others it answers ERR_STATE and changes nothing. -/
def Obligations.ScaleBuildsTheTable : Prop :=
  ∀ (e : BitVec 4) (x : BitVec 16) (s : State) (c : Context), Serves s c →
    (Startable c →
      ∃ m,
        exec (.scale e x) s = .next
          { s with
            lut := { s.lut with cells := m, e := some e }
            contexts := s.contexts.set s.ctx { c with nextBand := 0, outPos := 0, outCount := 0, phase := .filling }
            resp := some (.status .ok 0) } ∧
        (∀ k : Nat, k < 2 ^ e.toNat → Cells.get? m (lutCell k) = some (trunc16 ((k : Int) * x.toNat))) ∧
        (∀ k : Nat, 1 ≤ k → k ≤ 2 ^ e.toNat → Cells.get? m (lutCell (-(k : Int))) = some (trunc16 (-((k : Int) * x.toNat)))) ∧
        ∀ k : Int, k < -((2 ^ e.toNat : Nat) : Int) ∨ ((2 ^ e.toNat : Nat) : Int) - 1 < k →
          Cells.get? m (lutCell k) = s.lut.read? k) ∧
    (¬ Startable c → exec (.scale e x) s = .next (turnedAway s .errState))

/-- The build the model writes at once is what R130's accumulator leaves, cell by cell, in any canonical table. -/
def Obligations.AccumulatorWalkBuildsTheSameTable : Prop :=
  ∀ (u : LutUnit) (e : BitVec 4) (x : BitVec 16), Cells.WF u.cells → accumulatorWalk u.cells e x = (u.build e x).cells

/-- R133: LOOKUP answers ERR_STATE in CLOSED, WINDOW outside the window (or with no build), and else OK with the cell;
it changes no state. -/
def Obligations.LookupReadsTheWindow : Prop :=
  ∀ (idx : BitVec 17) (s : State) (c : Context), Serves s c →
    (c.phase = .closed → exec (.lookup idx) s = .next (turnedAway s .errState)) ∧
    (c.phase ≠ .closed → s.lut.e = none → exec (.lookup idx) s = .next (turnedAway s .window)) ∧
    ∀ e, c.phase ≠ .closed → s.lut.e = some e →
      (idx.toInt < -((2 ^ e.toNat : Nat) : Int) ∨ ((2 ^ e.toNat : Nat) : Int) - 1 < idx.toInt →
        exec (.lookup idx) s = .next (turnedAway s .window)) ∧
      ∀ v, -((2 ^ e.toNat : Nat) : Int) ≤ idx.toInt → idx.toInt ≤ ((2 ^ e.toNat : Nat) : Int) - 1 →
        s.lut.read? idx.toInt = some v → exec (.lookup idx) s = .next { s with resp := some (.status .ok v) }

/-- R78: after a SCALE by one context, a LOOKUP by any other open context reads the rewritten window. -/
def Obligations.ScaleIsSeenByEveryContext : Prop :=
  ∀ (e : BitVec 4) (x : BitVec 16) (idx : BitVec 17) (s : State) (c d : Context) (j : Nat), Serves s c → Startable c →
    j ≠ s.ctx → s.contexts[j]? = some d → d.live →
    -((2 ^ e.toNat : Nat) : Int) ≤ idx.toInt → idx.toInt ≤ ((2 ^ e.toNat : Nat) : Int) - 1 →
    ∃ t, exec (.scale e x) s = .next t ∧
      exec (.lookup idx) { t with ctx := j } =
        .next { t with ctx := j, resp := some (.status .ok (trunc16 (idx.toInt * x.toNat))) }

/-- Index range of a direct n-bit band: inside W(e) exactly when n − 1 ≤ e (R134). -/
def Obligations.DirectIndicesInsideTheWindow : Prop :=
  ∀ (u : LutUnit) (e : BitVec 4) (n : Nat), u.e = some e → 1 ≤ n →
    ((∀ raw : Nat, raw < 2 ^ n → u.inWindow ((raw : Int) - ((2 ^ (n - 1) : Nat) : Int)) = true) ↔ n - 1 ≤ e.toNat)

/-! ### BAND -/

/-- R155: the zero band writes 0 in every row of its column, takes no bits, and changes nothing else but `next_band`. -/
def Obligations.ZeroBandClearsItsColumn : Prop :=
  ∀ (s : State) (c : Context), Expecting s c → FillsColumn .bandZ s c (fun _ => 0) 0

/-- R156, R157, R183 to R186: a reserved code sets the phase to FAILED and answers FAIL_BAND; it takes no bits, writes
no cell and leaves `next_band`. -/
def Obligations.ReservedCodesFailTheBlock : Prop :=
  ∀ i ∈ reservedBands, ∀ (s : State) (c : Context), Expecting s c →
    exec i s = .next (answered s { c with phase := .failed } (.status .failBand 0))

/-- R153: a direct n-bit band reads row r's cell at k = raw − 2^(n−1), raw the r-th n bits of the payload, and stores it
sign-extended; it takes n·R bits. Every row's index lies inside the window. -/
def Obligations.DirectBandsDequantize : Prop :=
  ∀ p ∈ directBands, ∀ (s : State) (c : Context), Expecting s c →
    (∀ r < c.R.toNat, s.lut.inWindow (directIndex c p.1 r) = true) →
    FillsColumn p.2 s c (fun r => sext32 (s.lut.windowCell (directIndex c p.1 r))) (p.1 * c.R.toNat)

/-- With OOW_POLICY = fault, the first row of a direct band whose index is outside the window faults F_LUT_WINDOW with
the index, the format code, the subband and the row (R132, R301, R305, R306). What a fault leaves free in
the context and what it keeps there are the model's choice (log entry 4). -/
def Obligations.DirectBandFaultsAtItsFirstOutsideRow : Prop :=
  ∀ p ∈ directBands, ∀ (s : State) (c : Context) (row : Nat), Expecting s c → s.cfg.oowPolicy = .fault →
    row < c.R.toNat → s.lut.inWindow (directIndex c p.1 row) = false →
    (∀ r < row, s.lut.inWindow (directIndex c p.1 r) = true) →
    EndsInFault p.2 s c
      (.lutWindow (BitVec.ofInt 17 (directIndex c p.1 row)) (BitVec.ofNat 5 p.1) c.nextBand row)

/-- With OOW_POLICY = stale a direct band never faults: a row outside the window stores what an earlier build left
there, and a draw where none wrote (R132, R351; the draw is a free value, log entry 2). -/
def Obligations.DirectBandsUnderStalePolicyComplete : Prop :=
  ∀ p ∈ directBands, ∀ (s : State) (c : Context), Expecting s c → s.cfg.oowPolicy = .stale →
    ∃ buf draws,
      exec p.2 s = .next
        { s with
          contexts := s.contexts.set s.ctx
            { c with buf := buf, nextBand := c.nextBand + 1, bitPos := c.bitPos + p.1 * c.R.toNat }
          draws := draws
          resp := some (.status .ok 0) } ∧
      (∀ i, (∀ r < c.R.toNat, i ≠ rowIndex c r) → Cells.get? buf i = Cells.get? c.buf i) ∧
      ∀ r < c.R.toNat,
        (s.lut.inWindow (directIndex c p.1 r) = true →
          Cells.get? buf (rowIndex c r) = some (sext32 (s.lut.windowCell (directIndex c p.1 r)))) ∧
        (s.lut.inWindow (directIndex c p.1 r) = false → ∀ v, s.lut.read? (directIndex c p.1 r) = some v →
          Cells.get? buf (rowIndex c r) = some (sext32 v)) ∧
        (s.lut.inWindow (directIndex c p.1 r) = false → s.lut.read? (directIndex c p.1 r) = none →
          ∃ d, s.draws ≤ d ∧ d < draws ∧ Cells.get? buf (rowIndex c r) = some (sext32 (Config.staleDraw d)))

/-- The packed bands that are prefix codes read their codewords: the bits taken are codewords of the code's list one
after another, as few as fill R rows, and row r holds the r-th symbol they stand for. The largest index lies inside
the window (R172, R173, R175, R176, R178 to R181, R187). -/
def Obligations.PrefixBandsReadTheirCodewords : Prop :=
  ∀ p ∈ prefixBands, ∀ (s : State) (c : Context) (e : BitVec 4), Expecting s c → s.cfg.packed = .gk →
    s.lut.e = some e → p.2.1 ≤ ((2 ^ e.toNat : Nat) : Int) - 1 →
    ∃ gs : List Codeword, (∀ g ∈ gs, g ∈ p.2.2) ∧
      (∀ i, i < (gs.flatMap Prod.snd).length →
        (gs.flatMap Prod.snd)[i]? = some (streamBit c.source (c.bitPos + i))) ∧
      c.R.toNat ≤ (gs.flatMap Prod.fst).length ∧
      (∀ hs g, gs = hs ++ [g] → (hs.flatMap Prod.fst).length < c.R.toNat) ∧
      FillsColumn p.1 s c (fun r => symbolValue s.lut ((gs.flatMap Prod.fst).getD r .zero))
        (gs.flatMap Prod.snd).length

/-- The mixed-radix bands unpack their digits: row r holds the cell at digit (r mod n) of group ⌊r/n⌋ less the middle
digit, and ⌈R/n⌉ groups are taken. Every group has a symbol combination and the largest index lies inside the window
(R174, R177, R182, R187, R188). -/
def Obligations.RadixBandsUnpackTheirDigits : Prop :=
  ∀ b ∈ radixBands, ∀ (s : State) (c : Context) (e : BitVec 4), Expecting s c → s.cfg.packed = .gk →
    s.lut.e = some e → (((b.base - 1) / 2 : Nat) : Int) ≤ ((2 ^ e.toNat : Nat) : Int) - 1 →
    (∀ j, j * b.n < c.R.toNat → groupValue c b.bits j < b.base ^ b.n) →
    FillsColumn b.instr s c (fun r => sext32 (s.lut.windowCell (radixIndex c b r)))
      (b.bits * ((c.R.toNat + b.n - 1) / b.n))

/-- The first group of a mixed-radix band whose value has no symbol combination faults F_PACKED_COMBO with the format
code and the value (R187, R301, R305). What a fault leaves free in the context and what it
keeps there are the model's choice (log entry 4). -/
def Obligations.RadixBandFaultsOnAValueWithoutCombination : Prop :=
  ∀ b ∈ radixBands, ∀ (s : State) (c : Context) (e : BitVec 4) (j : Nat), Expecting s c → s.cfg.packed = .gk →
    s.lut.e = some e → (((b.base - 1) / 2 : Nat) : Int) ≤ ((2 ^ e.toNat : Nat) : Int) - 1 →
    j * b.n < c.R.toNat → b.base ^ b.n ≤ groupValue c b.bits j →
    (∀ i < j, groupValue c b.bits i < b.base ^ b.n) →
    EndsInFault b.instr s c (.packedCombo b.code (groupValue c b.bits j))

/-- With OOW_POLICY = fault, the first row of a prefix band whose index is outside the window faults F_LUT_WINDOW with
the index, the format code, the subband and the row: `gs` are the codewords on the stream up to that row's group, and
row r stands for the r-th symbol of them (R132, R152, R301, R305, R306). What a fault leaves free in
the context and what it keeps there are the model's choice (log entry 4). -/
def Obligations.PrefixBandFaultsAtItsFirstOutsideRow : Prop :=
  ∀ p ∈ prefixBands, ∀ (code : BitVec 5) (s : State) (c : Context) (gs : List Codeword) (row : Nat) (k : Int),
    p.1.bandCode = some code → Expecting s c → s.cfg.packed = .gk → s.cfg.oowPolicy = .fault →
    (∀ g ∈ gs, g ∈ p.2.2) →
    (∀ i, i < (gs.flatMap Prod.snd).length → (gs.flatMap Prod.snd)[i]? = some (streamBit c.source (c.bitPos + i))) →
    row < c.R.toNat → (gs.flatMap Prod.fst)[row]? = some (.deq k) → s.lut.inWindow k = false →
    (∀ r < row, ∀ k', (gs.flatMap Prod.fst)[r]? = some (.deq k') → s.lut.inWindow k' = true) →
    EndsInFault p.1 s c (.lutWindow (BitVec.ofInt 17 k) code c.nextBand row)

/-- With OOW_POLICY = fault, the first row of a mixed-radix band whose index is outside the window faults F_LUT_WINDOW,
if every group up to that row's has a symbol combination (R132, R152, R301, R305, R306). What a fault leaves free in
the context and what it keeps there are the model's choice (log entry 4). -/
def Obligations.RadixBandFaultsAtItsFirstOutsideRow : Prop :=
  ∀ b ∈ radixBands, ∀ (s : State) (c : Context) (row : Nat), Expecting s c → s.cfg.packed = .gk →
    s.cfg.oowPolicy = .fault → row < c.R.toNat → (∀ j ≤ row / b.n, groupValue c b.bits j < b.base ^ b.n) →
    s.lut.inWindow (radixIndex c b row) = false → (∀ r < row, s.lut.inWindow (radixIndex c b r) = true) →
    EndsInFault b.instr s c (.lutWindow (BitVec.ofInt 17 (radixIndex c b row)) b.code c.nextBand row)

/-- With OOW_POLICY = stale no command of any kind raises F_LUT_WINDOW (R132, R301). -/
def Obligations.StalePolicyRaisesNoWindowFault : Prop :=
  ∀ (i : Instr) (s t : State) (c : Context) (k : BitVec 17) (code : BitVec 5) (subband row : Nat), Serves s c →
    s.cfg.oowPolicy = .stale → exec i s = .next t → t.resp ≠ some (.faulted (.lutWindow k code subband row))

/-- With PACKED = none a packed band is refused: the context is marked, its phase and stream position stay, its buffers
and cursors lose their meaning, and nothing else changes but the draw counter (R150, R302). What it leaves free
and what it keeps of the context are the model's choice (log entry 4). -/
def Obligations.PackedBandsAreRefusedWithoutAScheme : Prop :=
  ∀ i ∈ packedBands, ∀ (s : State) (c : Context), Expecting s c → s.cfg.packed = .none →
    ∃ c' draws,
      c' = { c with
        refused := true
        nextBand := c'.nextBand, outPos := c'.outPos, outCount := c'.outCount, buf := c'.buf, prev := c'.prev } ∧
      exec i s = .next { s with contexts := s.contexts.set s.ctx c', draws := draws, resp := some .refused }

/-- Whatever the format code, policy and scheme, a BAND that answers OK has written every row of its column with a
value in [−32768, 32767], and nothing else has changed but `next_band`, the stream position and the draw counter
(R154). -/
def Obligations.BandWritesItsColumnOnly : Prop :=
  ∀ (code : BitVec 5) (s t : State) (c : Context), Expecting s c → exec (Instr.band code) s = .next t →
    t.resp = some (.status .ok 0) →
    ∃ buf bits,
      t = { s with
        contexts := s.contexts.set s.ctx { c with buf := buf, nextBand := c.nextBand + 1, bitPos := bits }
        draws := t.draws
        resp := some (.status .ok 0) } ∧
      (∀ r < c.R.toNat, ∃ v, Cells.get? buf (rowIndex c r) = some v ∧ inSampleRange v) ∧
      ∀ i, (∀ r < c.R.toNat, i ≠ rowIndex c r) → Cells.get? buf i = Cells.get? c.buf i

/-! ### UNTRANSFORM -/

/-- UNTRANSFORM on a filled block answers OK and sets up its output: out_count = min(BW, remaining), remaining less
that, out_pos 0, phase IDLE; BUF and PREV become what the transform gives and are unchanged for L = 0 and outside the
block's index ranges; nothing else changes. On any other context it answers ERR_STATE (R200, R207, R208). -/
def Obligations.UntransformSetsUpTheOutput : Prop :=
  ∀ (s : State) (c : Context), Serves s c →
    (c.phase = .filling ∧ c.nextBand = c.S.toNat →
      ∃ b : Banks, b = transformBlock s.cfg.stage0R1Noop c ∧
        exec .untransform s = .next (answered s
          { c with
            buf := b.buf
            prev := b.prev
            outCount := min c.BW.toNat c.remaining.toNat
            remaining := BitVec.ofNat 32 (c.remaining.toNat - min c.BW.toNat c.remaining.toNat)
            outPos := 0
            phase := .idle } (.status .ok 0)) ∧
        (c.L = 0 → b.buf = c.buf ∧ b.prev = c.prev) ∧
        (c.geometry s.cfg →
          (∀ i, c.BW.toNat ≤ i → Cells.get? b.buf i = Cells.get? c.buf i) ∧
          ∀ j, prevWordsOf c.L ≤ j → Cells.get? b.prev j = Cells.get? c.prev j)) ∧
    (¬ (c.phase = .filling ∧ c.nextBand = c.S.toNat) → exec .untransform s = .next (turnedAway s .errState))

/-- R201: the column kernel on `M` row pairs of `C` columns. Each pair's outputs are the lifting pair of its inputs and
the inputs of the pair before (the carried state for the first); the column's new state is its last pair of inputs;
every other BUF word is unchanged, and so is every PREV word outside the region. -/
def Obligations.LiftRunsEveryColumn : Prop :=
  ∀ (base C M : Nat) (st : StateRegion) (b : Banks),
    let x := fun c n => b.readBuf (base + n * C + c)
    let r0 := fun c j => if j = 0 then st.get0 b c else x c (2 * j - 2)
    let r1 := fun c j => if j = 0 then st.get1 b c else x c (2 * j - 1)
    let out := lift base C (2 * M) st b
    (∀ c < C, ∀ j < M,
      out.readBuf (base + 2 * j * C + c) = wrap32 ((x c (2 * j)).toInt + (r0 c j).toInt + 2 * (r1 c j).toInt) ∧
      out.readBuf (base + (2 * j + 1) * C + c) =
        wrap32 (2 * (x c (2 * j)).toInt - ((r1 c j).toInt + (x c (2 * j + 1)).toInt))) ∧
    (∀ c < C,
      (st.packed = true → out.readPrev (st.start + c) = lowHalf (r1 c M) ++ lowHalf (r0 c M)) ∧
      (st.packed = false →
        out.readPrev (st.start + 2 * c) = r0 c M ∧ out.readPrev (st.start + 2 * c + 1) = r1 c M)) ∧
    (∀ i, i < base ∨ base + 2 * M * C ≤ i → out.readBuf i = b.readBuf i) ∧
    ∀ j, j < st.start ∨ st.start + (if st.packed then C else 2 * C) ≤ j → out.readPrev j = b.readPrev j

/-- R203: the bias adds 1, modulo 2^32, to the 2·Rc words of column 0 of the stage-0 view and to no other word, and it
runs even when stage 0 does nothing. -/
def Obligations.BiasAddsOneToColumnZero : Prop :=
  (∀ (S base Rc : Nat) (b : Banks), 2 ≤ S →
    (∀ k < 2 * Rc, (bias S base Rc b).readBuf (base + k * (S / 2)) =
      wrap32 ((b.readBuf (base + k * (S / 2))).toInt + 1)) ∧
    (∀ i, (∀ k < 2 * Rc, i ≠ base + k * (S / 2)) → (bias S base Rc b).readBuf i = b.readBuf i) ∧
    (bias S base Rc b).prev = b.prev) ∧
  ∀ (L S base : Nat) (b : Banks),
    transformChunk true L S base 1 b = forRange (L - 1) (fun i b => stage S base 1 (i + 1) b) (bias S base 1 b)

/-- The lifting pair's sums reduced once are the sums of 32-bit arithmetic (R201: wrap32 is a ring homomorphism). -/
def Obligations.LiftingPairIsModularArithmetic : Prop :=
  ∀ x0 x1 r0 r1 : Word, liftFirst x0 r0 r1 = x0 + r0 + 2 * r1 ∧ liftSecond x0 x1 r1 = 2 * x0 - (r1 + x1)

/-- R212: on 16-bit inputs and state a stage-0 pair does not wrap, and its outputs are at most 2^17 in magnitude. -/
def Obligations.StageZeroDoesNotWrap : Prop :=
  ∀ x0 x1 r0 r1 : Word, inSampleRange x0 → inSampleRange x1 → inSampleRange r0 → inSampleRange r1 →
    (liftFirst x0 r0 r1).toInt = x0.toInt + r0.toInt + 2 * r1.toInt ∧
    (liftSecond x0 x1 r1).toInt = 2 * x0.toInt - (r1.toInt + x1.toInt) ∧
    |(liftFirst x0 r0 r1).toInt| ≤ 2 ^ 17 ∧ |(liftSecond x0 x1 r1).toInt| ≤ 2 ^ 17

/-- R211, L = 1: an all-zero block on an all-zero state gives the value 1 in every word and leaves the state zero, for
any number of rows and any chunk size. -/
def Obligations.ZeroBlockGivesOnes : Prop :=
  ∀ (noop : Bool) (c : Context), c.L = 1 → c.S = 2 → c.T ≠ 0 →
    (∀ i < 2 * c.R.toNat, Cells.get? c.buf i = some 0) → (∀ j, prevRead c.prev j = 0) →
    (∀ i < 2 * c.R.toNat, Cells.get? (transformBlock noop c).buf i = some 1) ∧
      ∀ j, prevRead (transformBlock noop c).prev j = 0

/-- R210: with STAGE0_R1_NOOP = false the transform of a block of 16-bit samples does not depend on the chunk size: every
BUF word and every PREV word comes out the same. -/
def Obligations.TransformDoesNotDependOnChunking : Prop :=
  ∀ (L T T' R : Nat) (b : Banks), 1 ≤ L → 1 ≤ T → 1 ≤ T' → (∀ i < R * 2 ^ L, inSampleRange (b.readBuf i)) →
    (∀ i, (transformChunks false L (2 ^ L) T R R 0 b).readBuf i = (transformChunks false L (2 ^ L) T' R R 0 b).readBuf i) ∧
      ∀ j, (transformChunks false L (2 ^ L) T R R 0 b).readPrev j = (transformChunks false L (2 ^ L) T' R R 0 b).readPrev j

/-- R64: the stages' regions of PREV follow one another from S/2 on and end at PREV_WORDS. -/
def Obligations.PrevRegionsTile : Prop :=
  ∀ L : Nat, 2 ≤ L →
    (stageRegion (2 ^ L) 1).start = 2 ^ L / 2 ∧
    (∀ i, 1 ≤ i → i + 1 < L →
      (stageRegion (2 ^ L) (i + 1)).start = (stageRegion (2 ^ L) i).start + 2 * (2 ^ L / 2 ^ (i + 1))) ∧
    (stageRegion (2 ^ L) (L - 1)).start + 2 * (2 ^ L / 2 ^ L) = 3 * 2 ^ L / 2 - 2

/-! ### POP and FILL -/

/-- R240, R241: POP answers ERR_STATE in CLOSED and EMPTY when no sample is ready, changing nothing; else it answers OK
with the next word shifted right by L, rounding toward −∞, and truncated to 16 bits, and moves out_pos on. -/
def Obligations.PopFormsTheSample : Prop :=
  ∀ (s : State) (c : Context), Serves s c →
    (c.phase = .closed → exec .pop s = .next (turnedAway s .errState)) ∧
    (c.phase ≠ .closed → (c.phase ≠ .idle ∨ c.outPos = c.outCount) → exec .pop s = .next (turnedAway s .empty)) ∧
    ∀ v, c.phase = .idle → c.outPos ≠ c.outCount → Cells.get? c.buf c.outPos = some v →
      exec .pop s = .next (answered s { c with outPos := c.outPos + 1 }
        (.status .ok (trunc16 (v.toInt / ((2 ^ c.L.toNat : Nat) : Int)))))

/-- R242: FILL answers ERR_STATE or EMPTY where it may not run, changing nothing and taking no bits; else it does what a
host does that takes e, s and each format code from the stream and issues SCALE, the BANDs and UNTRANSFORM, up to the
first answer that is not OK. That the two
paths agree on the draw counter, on stale draws and on what a run that faults or is refused leaves in the context (its
buffers, cursors and stream position) is the model's choice of free values as functions of that counter, its own field
(log entries 2 and 4): the spec says a draw under no law, any value, no meaning. -/
def Obligations.FillAgreesWithTheFineGrainedCommands : Prop :=
  ∀ (s : State) (c : Context), Serves s c →
    (¬ Startable c → exec .fill s = .next (turnedAway s .errState)) ∧
    (Startable c → c.remaining = 0 → exec .fill s = .next (turnedAway s .empty)) ∧
    (Startable c → c.remaining ≠ 0 → exec .fill s = .next (fineFill c.S.toNat s))

/-- FILL from an exhausted source decodes a block of zero bands: it answers OK, takes 20 + 5·S bits, builds the window of
e = 0 and s = 0, and sets up the block's output; with L = 0 every stored sample is 0 (R71, R155, R242). -/
def Obligations.FillFromAnExhaustedSource : Prop :=
  ∀ (s : State) (c : Context), Serves s c → Startable c → c.remaining ≠ 0 → 8 * c.source.length ≤ c.bitPos →
    ∃ t c', exec .fill s = .next t ∧ t.resp = some (.status .ok 0) ∧ t.contexts[s.ctx]? = some c' ∧
      c'.phase = .idle ∧ c'.bitPos = c.bitPos + 20 + 5 * c.S.toNat ∧ c'.nextBand = c.S.toNat ∧ c'.outPos = 0 ∧
      c'.outCount = min c.BW.toNat c.remaining.toNat ∧
      c'.remaining = BitVec.ofNat 32 (c.remaining.toNat - min c.BW.toNat c.remaining.toNat) ∧
      t.lut.e = some 0 ∧ t.lut.read? 0 = some 0 ∧ t.lut.read? (-1) = some 0 ∧ t.draws = s.draws ∧
      (c.L = 0 → c.S = 1 → ∀ r < c.R.toNat, Cells.get? c'.buf r = some 0)

/-- A context's budget, `remaining` and what the output cursor has left, falls by one with every OK POP, and no command
but OPEN raises it (R27, R29, R244). For CLOSE this rests on log entry 17: the registers stay. -/
def Obligations.PopsAreBoundedByTheBudget : Prop :=
  ∀ (i : Instr) (s t : State) (c c' : Context), Serves s c → c.cursors → exec i s = .next t →
    t.contexts[s.ctx]? = some c' → c'.fault = none → c'.refused = false → (∀ L R total, i ≠ .openCtx L R total) →
    c'.budget ≤ c.budget ∧ (i = .pop → (∃ d, t.resp = some (.status .ok d)) → c'.budget + 1 = c.budget)

/-- The host's read loop never returns more bytes than it was asked for (R243, R244). The bound on its turns is the model's (log
entry 12). -/
def Obligations.ReadNeverExceedsItsSize : Prop :=
  ∀ (turns size : Nat) (s : State), (readLoop turns size s).1.length ≤ size

/-- On an exhausted context the host's read loop returns no byte and leaves the context exhausted (R245). The bound on its
turns is the model's (log entry 12). -/
def Obligations.ExhaustedContextReadsNothing : Prop :=
  ∀ (turns size : Nat) (s : State) (c : Context), Serves s c → c.phase = .idle → c.outPos = c.outCount →
    c.remaining = 0 → (readLoop turns size s).1 = [] ∧ (readLoop turns size s).2.contexts = s.contexts

/-! ### OPEN and CLOSE -/

/-- R260: OPEN answers ERR_STATE on an open context and ERR_ALLOC when the block does not fit, changing nothing; else it
sets the geometry, the budget, the cursors and the phase, clears BUF to `⊥` and PREV to 0, counts the context, gives
the first open context a fresh LUT and leaves the LUT otherwise, and changes nothing else. -/
def Obligations.OpenSetsTheGeometry : Prop :=
  ∀ (L : BitVec 4) (R : BitVec 12) (total : BitVec 32) (s : State) (c : Context), Serves s c →
    (c.phase ≠ .closed → exec (.openCtx L R total) s = .next (turnedAway s .errState)) ∧
    (c.phase = .closed → s.cfg.maxBlockWords < R.toNat * 2 ^ L.toNat →
      exec (.openCtx L R total) s = .next (turnedAway s .errAlloc)) ∧
    (c.phase = .closed → R.toNat * 2 ^ L.toNat ≤ s.cfg.maxBlockWords →
      ∃ c' u,
        exec (.openCtx L R total) s =
          .next { s with lut := u, contexts := s.contexts.set s.ctx c', resp := some (.status .ok 0) } ∧
        c'.phase = .idle ∧ c'.L = L ∧ c'.S.toNat = 2 ^ L.toNat ∧ c'.R = R ∧ c'.BW.toNat = R.toNat * 2 ^ L.toNat ∧
        c'.T.toNat = max 1 (2048 / 2 ^ L.toNat - 2) ∧ c'.remaining = total ∧ c'.nextBand = 0 ∧ c'.outPos = 0 ∧
        c'.outCount = 0 ∧ (∀ i, Cells.get? c'.buf i = none) ∧ (∀ j, prevRead c'.prev j = 0) ∧ c'.fault = none ∧
        c'.refused = false ∧ c'.source = c.source ∧ c'.bitPos = c.bitPos ∧
        (s.lut.openCount = 0 →
          u.openCount = 1 ∧ u.present = true ∧ u.e = none ∧ ∀ k, u.read? k = none) ∧
        (s.lut.openCount ≠ 0 → u = { s.lut with openCount := s.lut.openCount + 1 }))

/-- R262, R264: CLOSE of an open context closes it, its buffers cease to exist, the count goes down, and with the last
open context the LUT ceases to exist; a second CLOSE is F_DOUBLE_CLOSE with the context number and changes no state but
the fault mark. The count is at least 1 when a context is open (R23). That the closed context's geometry registers,
`remaining` and cursors stay is the model's choice (log entry 17, DEDUCED). -/
def Obligations.CloseReleasesTheLut : Prop :=
  ∀ (s : State) (c : Context), Serves s c →
    (c.phase ≠ .closed → s.lut.openCount = 1 →
      exec .closeCtx s = .next
        { s with
          lut := { present := false, openCount := 0, cells := [], e := none }
          contexts := s.contexts.set s.ctx { c with phase := .closed, buf := [], prev := [] }
          resp := some (.status .ok 0) }) ∧
    (c.phase ≠ .closed → 2 ≤ s.lut.openCount →
      exec .closeCtx s = .next
        { s with
          lut := { s.lut with openCount := s.lut.openCount - 1 }
          contexts := s.contexts.set s.ctx { c with phase := .closed, buf := [], prev := [] }
          resp := some (.status .ok 0) }) ∧
    (c.phase = .closed →
      exec .closeCtx s =
        .next (answered s { c with fault := some (.doubleClose s.ctx) } (.faulted (.doubleClose s.ctx))))

/-! ### Invariants that every step keeps -/

/-- R263: after any step `open_count` is the number of contexts not CLOSED, the LUT is present exactly when it is
positive, and absent storage holds nothing. -/
def Obligations.ReferenceCountKept : Prop :=
  ∀ s t : State, s.refCounted → step s = .next t → t.refCounted

/-- Every step keeps the canonical form of the LUT and of every context's BUF and PREV: rising indices, and no entry of
PREV that holds 0. The form is the model's choice of representation (log entry 9), and for the buffers a fault or a
refusal leaves it is the model's choice too (log entry 4); R60 and R66 give only the element-indexed memories. -/
def Obligations.MemoryFormKept : Prop :=
  ∀ s t : State, Memory.wf s → step s = .next t → Memory.wf t

/-- Every step keeps each live context's geometry as OPEN derives it and its cursors in their ranges (R7, R26, R28,
R29). -/
def Obligations.GeometryAndCursorsKept : Prop :=
  ∀ s t : State, s.shaped → step s = .next t → t.shaped

/-- Every step keeps what a phase says has been written: all rows of the subbands below next_band while a block is
filled (R154), and in IDLE every word the output cursor can reach, so that POP never meets `⊥` (R240). -/
def Obligations.WrittenWordsKept : Prop :=
  ∀ s t : State, s.filled → step s = .next t → t.filled

/-- Every step keeps each live context's BUF and PREV inside their index ranges (R60, R69, R207). -/
def Obligations.IndexRangesKept : Prop :=
  ∀ s t : State, s.bounded → step s = .next t → t.bounded

/-- Every step keeps every cell of the current window written and every listed cell inside the LUT (R60, R131). -/
def Obligations.WindowStaysWritten : Prop :=
  ∀ s t : State, s.lut.windowWritten → step s = .next t → t.lut.windowWritten

/-- Power-on reset is a safe state, whatever the configuration: every invariant above holds in it. The canonical form
among them is the model's choice of representation (log entry 9). -/
def Obligations.ResetIsSafe : Prop :=
  ∀ cfg : Config, (State.resetWith cfg).safe

/-- R340: power-on reset leaves K contexts, every one CLOSED, with no fault, not refused and with no buffers,
open_count 0, lut_present 0, and no LUT storage. -/
def Obligations.PowerOnResetValues : Prop :=
  ∀ cfg : Config,
    (State.resetWith cfg).contexts.length = cfg.K ∧
    (∀ c ∈ (State.resetWith cfg).contexts,
      c.phase = .closed ∧ c.fault = none ∧ c.refused = false ∧ c.buf = [] ∧ c.prev = []) ∧
    (State.resetWith cfg).lut.openCount = 0 ∧ (State.resetWith cfg).lut.present = false ∧
    (State.resetWith cfg).lut.e = none ∧ (State.resetWith cfg).lut.cells = []
end

