-- ==== Sys2Proof/Laws/State.lean ====
section
/-! SUPPORT. What each update of the state leaves in each field: one lemma per field per update, true by rfl. -/

namespace Sys2Proof.Machine

open Sys2Proof

@[simp] theorem State.respond_cfg (s : State) (r : Response) : (s.respond r).cfg = s.cfg := rfl
@[simp] theorem State.respond_port (s : State) (r : Response) : (s.respond r).port = s.port := rfl
@[simp] theorem State.respond_ctx (s : State) (r : Response) : (s.respond r).ctx = s.ctx := rfl
@[simp] theorem State.respond_resp (s : State) (r : Response) : (s.respond r).resp = some r := rfl
@[simp] theorem State.respond_lut (s : State) (r : Response) : (s.respond r).lut = s.lut := rfl
@[simp] theorem State.respond_contexts (s : State) (r : Response) : (s.respond r).contexts = s.contexts := rfl
@[simp] theorem State.respond_draws (s : State) (r : Response) : (s.respond r).draws = s.draws := rfl

@[simp] theorem State.commit_cfg (s : State) (w : Work) (r : Response) : (s.commit w r).cfg = s.cfg := rfl
@[simp] theorem State.commit_port (s : State) (w : Work) (r : Response) : (s.commit w r).port = s.port := rfl
@[simp] theorem State.commit_ctx (s : State) (w : Work) (r : Response) : (s.commit w r).ctx = s.ctx := rfl
@[simp] theorem State.commit_resp (s : State) (w : Work) (r : Response) : (s.commit w r).resp = some r := rfl
@[simp] theorem State.commit_lut (s : State) (w : Work) (r : Response) : (s.commit w r).lut = w.lut := rfl
@[simp] theorem State.commit_contexts (s : State) (w : Work) (r : Response) : (s.commit w r).contexts = s.contexts.set s.ctx w.c := rfl
@[simp] theorem State.commit_draws (s : State) (w : Work) (r : Response) : (s.commit w r).draws = w.draws := rfl

@[simp] theorem State.taken_cfg (s : State) (k n : Nat) : (s.taken k n).cfg = s.cfg := rfl
@[simp] theorem State.taken_port (s : State) (k n : Nat) : (s.taken k n).port = s.port.drop n := rfl
@[simp] theorem State.taken_ctx (s : State) (k n : Nat) : (s.taken k n).ctx = k := rfl
@[simp] theorem State.taken_resp (s : State) (k n : Nat) : (s.taken k n).resp = s.resp := rfl
@[simp] theorem State.taken_lut (s : State) (k n : Nat) : (s.taken k n).lut = s.lut := rfl
@[simp] theorem State.taken_contexts (s : State) (k n : Nat) : (s.taken k n).contexts = s.contexts := rfl
@[simp] theorem State.taken_draws (s : State) (k n : Nat) : (s.taken k n).draws = s.draws := rfl

@[simp] theorem State.withFetchWord_cfg (s : State) (nbits x : Nat) : (s.withFetchWord nbits x).cfg = s.cfg := rfl
@[simp] theorem State.withFetchWord_port (s : State) (nbits x : Nat) : (s.withFetchWord nbits x).port = (fetchWords nbits x).map (fun y => { ctx := 0, word := y }) ++ s.port := rfl
@[simp] theorem State.withFetchWord_ctx (s : State) (nbits x : Nat) : (s.withFetchWord nbits x).ctx = s.ctx := rfl
@[simp] theorem State.withFetchWord_resp (s : State) (nbits x : Nat) : (s.withFetchWord nbits x).resp = s.resp := rfl
@[simp] theorem State.withFetchWord_lut (s : State) (nbits x : Nat) : (s.withFetchWord nbits x).lut = s.lut := rfl
@[simp] theorem State.withFetchWord_contexts (s : State) (nbits x : Nat) : (s.withFetchWord nbits x).contexts = s.contexts := rfl
@[simp] theorem State.withFetchWord_draws (s : State) (nbits x : Nat) : (s.withFetchWord nbits x).draws = s.draws := rfl

@[simp] theorem State.work_cfg (s : State) (c : Context) : (s.work c).cfg = s.cfg := rfl
@[simp] theorem State.work_ctx (s : State) (c : Context) : (s.work c).ctx = s.ctx := rfl
@[simp] theorem State.work_lut (s : State) (c : Context) : (s.work c).lut = s.lut := rfl
@[simp] theorem State.work_c (s : State) (c : Context) : (s.work c).c = c := rfl
@[simp] theorem State.work_draws (s : State) (c : Context) : (s.work c).draws = s.draws := rfl

@[simp] theorem Work.skip_cfg (w : Work) (n : Nat) : (w.skip n).cfg = w.cfg := rfl
@[simp] theorem Work.skip_ctx (w : Work) (n : Nat) : (w.skip n).ctx = w.ctx := rfl
@[simp] theorem Work.skip_lut (w : Work) (n : Nat) : (w.skip n).lut = w.lut := rfl
@[simp] theorem Work.skip_draws (w : Work) (n : Nat) : (w.skip n).draws = w.draws := rfl
@[simp] theorem Work.skip_c_phase (w : Work) (n : Nat) : (w.skip n).c.phase = w.c.phase := rfl
@[simp] theorem Work.skip_c_L (w : Work) (n : Nat) : (w.skip n).c.L = w.c.L := rfl
@[simp] theorem Work.skip_c_S (w : Work) (n : Nat) : (w.skip n).c.S = w.c.S := rfl
@[simp] theorem Work.skip_c_R (w : Work) (n : Nat) : (w.skip n).c.R = w.c.R := rfl
@[simp] theorem Work.skip_c_BW (w : Work) (n : Nat) : (w.skip n).c.BW = w.c.BW := rfl
@[simp] theorem Work.skip_c_T (w : Work) (n : Nat) : (w.skip n).c.T = w.c.T := rfl
@[simp] theorem Work.skip_c_remaining (w : Work) (n : Nat) : (w.skip n).c.remaining = w.c.remaining := rfl
@[simp] theorem Work.skip_c_nextBand (w : Work) (n : Nat) : (w.skip n).c.nextBand = w.c.nextBand := rfl
@[simp] theorem Work.skip_c_outPos (w : Work) (n : Nat) : (w.skip n).c.outPos = w.c.outPos := rfl
@[simp] theorem Work.skip_c_outCount (w : Work) (n : Nat) : (w.skip n).c.outCount = w.c.outCount := rfl
@[simp] theorem Work.skip_c_buf (w : Work) (n : Nat) : (w.skip n).c.buf = w.c.buf := rfl
@[simp] theorem Work.skip_c_prev (w : Work) (n : Nat) : (w.skip n).c.prev = w.c.prev := rfl
@[simp] theorem Work.skip_c_fault (w : Work) (n : Nat) : (w.skip n).c.fault = w.c.fault := rfl
@[simp] theorem Work.skip_c_refused (w : Work) (n : Nat) : (w.skip n).c.refused = w.c.refused := rfl
@[simp] theorem Work.skip_c_source (w : Work) (n : Nat) : (w.skip n).c.source = w.c.source := rfl
@[simp] theorem Work.skip_c_bitPos (w : Work) (n : Nat) : (w.skip n).c.bitPos = w.c.bitPos + n := rfl

@[simp] theorem Work.bufWrite_cfg (w : Work) (i : Nat) (v : Word) : (w.bufWrite i v).cfg = w.cfg := rfl
@[simp] theorem Work.bufWrite_ctx (w : Work) (i : Nat) (v : Word) : (w.bufWrite i v).ctx = w.ctx := rfl
@[simp] theorem Work.bufWrite_lut (w : Work) (i : Nat) (v : Word) : (w.bufWrite i v).lut = w.lut := rfl
@[simp] theorem Work.bufWrite_draws (w : Work) (i : Nat) (v : Word) : (w.bufWrite i v).draws = w.draws := rfl
@[simp] theorem Work.bufWrite_c_phase (w : Work) (i : Nat) (v : Word) : (w.bufWrite i v).c.phase = w.c.phase := rfl
@[simp] theorem Work.bufWrite_c_L (w : Work) (i : Nat) (v : Word) : (w.bufWrite i v).c.L = w.c.L := rfl
@[simp] theorem Work.bufWrite_c_S (w : Work) (i : Nat) (v : Word) : (w.bufWrite i v).c.S = w.c.S := rfl
@[simp] theorem Work.bufWrite_c_R (w : Work) (i : Nat) (v : Word) : (w.bufWrite i v).c.R = w.c.R := rfl
@[simp] theorem Work.bufWrite_c_BW (w : Work) (i : Nat) (v : Word) : (w.bufWrite i v).c.BW = w.c.BW := rfl
@[simp] theorem Work.bufWrite_c_T (w : Work) (i : Nat) (v : Word) : (w.bufWrite i v).c.T = w.c.T := rfl
@[simp] theorem Work.bufWrite_c_remaining (w : Work) (i : Nat) (v : Word) : (w.bufWrite i v).c.remaining = w.c.remaining := rfl
@[simp] theorem Work.bufWrite_c_nextBand (w : Work) (i : Nat) (v : Word) : (w.bufWrite i v).c.nextBand = w.c.nextBand := rfl
@[simp] theorem Work.bufWrite_c_outPos (w : Work) (i : Nat) (v : Word) : (w.bufWrite i v).c.outPos = w.c.outPos := rfl
@[simp] theorem Work.bufWrite_c_outCount (w : Work) (i : Nat) (v : Word) : (w.bufWrite i v).c.outCount = w.c.outCount := rfl
@[simp] theorem Work.bufWrite_c_buf (w : Work) (i : Nat) (v : Word) : (w.bufWrite i v).c.buf = Cells.put w.c.buf i v := rfl
@[simp] theorem Work.bufWrite_c_prev (w : Work) (i : Nat) (v : Word) : (w.bufWrite i v).c.prev = w.c.prev := rfl
@[simp] theorem Work.bufWrite_c_fault (w : Work) (i : Nat) (v : Word) : (w.bufWrite i v).c.fault = w.c.fault := rfl
@[simp] theorem Work.bufWrite_c_refused (w : Work) (i : Nat) (v : Word) : (w.bufWrite i v).c.refused = w.c.refused := rfl
@[simp] theorem Work.bufWrite_c_source (w : Work) (i : Nat) (v : Word) : (w.bufWrite i v).c.source = w.c.source := rfl
@[simp] theorem Work.bufWrite_c_bitPos (w : Work) (i : Nat) (v : Word) : (w.bufWrite i v).c.bitPos = w.c.bitPos := rfl

@[simp] theorem Work.lose_cfg (w : Work) : (w.lose).cfg = w.cfg := rfl
@[simp] theorem Work.lose_ctx (w : Work) : (w.lose).ctx = w.ctx := rfl
@[simp] theorem Work.lose_lut (w : Work) : (w.lose).lut = w.lut := rfl
@[simp] theorem Work.lose_draws (w : Work) : (w.lose).draws = w.draws + 1 := rfl
@[simp] theorem Work.lose_c_phase (w : Work) : (w.lose).c.phase = w.c.phase := rfl
@[simp] theorem Work.lose_c_L (w : Work) : (w.lose).c.L = w.c.L := rfl
@[simp] theorem Work.lose_c_S (w : Work) : (w.lose).c.S = w.c.S := rfl
@[simp] theorem Work.lose_c_R (w : Work) : (w.lose).c.R = w.c.R := rfl
@[simp] theorem Work.lose_c_BW (w : Work) : (w.lose).c.BW = w.c.BW := rfl
@[simp] theorem Work.lose_c_T (w : Work) : (w.lose).c.T = w.c.T := rfl
@[simp] theorem Work.lose_c_remaining (w : Work) : (w.lose).c.remaining = w.c.remaining := rfl
@[simp] theorem Work.lose_c_nextBand (w : Work) : (w.lose).c.nextBand = Config.lostNextBand w.draws := rfl
@[simp] theorem Work.lose_c_outPos (w : Work) : (w.lose).c.outPos = Config.lostOutPos w.draws := rfl
@[simp] theorem Work.lose_c_outCount (w : Work) : (w.lose).c.outCount = Config.lostOutCount w.draws := rfl
@[simp] theorem Work.lose_c_buf (w : Work) : (w.lose).c.buf = Cells.ofWrites (Config.lostBuf w.draws) := rfl
@[simp] theorem Work.lose_c_prev (w : Work) : (w.lose).c.prev = Cells.ofWrites ((Config.lostPrev w.draws).filter fun p => p.2 ≠ 0) := rfl
@[simp] theorem Work.lose_c_fault (w : Work) : (w.lose).c.fault = w.c.fault := rfl
@[simp] theorem Work.lose_c_refused (w : Work) : (w.lose).c.refused = w.c.refused := rfl
@[simp] theorem Work.lose_c_source (w : Work) : (w.lose).c.source = w.c.source := rfl
@[simp] theorem Work.lose_c_bitPos (w : Work) : (w.lose).c.bitPos = w.c.bitPos := rfl

@[simp] theorem Work.recordFault_cfg (w : Work) (f : FaultRecord) : ((w.recordFault f).1).cfg = w.cfg := rfl
@[simp] theorem Work.recordFault_ctx (w : Work) (f : FaultRecord) : ((w.recordFault f).1).ctx = w.ctx := rfl
@[simp] theorem Work.recordFault_lut (w : Work) (f : FaultRecord) : ((w.recordFault f).1).lut = w.lut := rfl
@[simp] theorem Work.recordFault_draws (w : Work) (f : FaultRecord) : ((w.recordFault f).1).draws = w.draws := rfl
@[simp] theorem Work.recordFault_c_phase (w : Work) (f : FaultRecord) : ((w.recordFault f).1).c.phase = w.c.phase := rfl
@[simp] theorem Work.recordFault_c_L (w : Work) (f : FaultRecord) : ((w.recordFault f).1).c.L = w.c.L := rfl
@[simp] theorem Work.recordFault_c_S (w : Work) (f : FaultRecord) : ((w.recordFault f).1).c.S = w.c.S := rfl
@[simp] theorem Work.recordFault_c_R (w : Work) (f : FaultRecord) : ((w.recordFault f).1).c.R = w.c.R := rfl
@[simp] theorem Work.recordFault_c_BW (w : Work) (f : FaultRecord) : ((w.recordFault f).1).c.BW = w.c.BW := rfl
@[simp] theorem Work.recordFault_c_T (w : Work) (f : FaultRecord) : ((w.recordFault f).1).c.T = w.c.T := rfl
@[simp] theorem Work.recordFault_c_remaining (w : Work) (f : FaultRecord) : ((w.recordFault f).1).c.remaining = w.c.remaining := rfl
@[simp] theorem Work.recordFault_c_nextBand (w : Work) (f : FaultRecord) : ((w.recordFault f).1).c.nextBand = w.c.nextBand := rfl
@[simp] theorem Work.recordFault_c_outPos (w : Work) (f : FaultRecord) : ((w.recordFault f).1).c.outPos = w.c.outPos := rfl
@[simp] theorem Work.recordFault_c_outCount (w : Work) (f : FaultRecord) : ((w.recordFault f).1).c.outCount = w.c.outCount := rfl
@[simp] theorem Work.recordFault_c_buf (w : Work) (f : FaultRecord) : ((w.recordFault f).1).c.buf = w.c.buf := rfl
@[simp] theorem Work.recordFault_c_prev (w : Work) (f : FaultRecord) : ((w.recordFault f).1).c.prev = w.c.prev := rfl
@[simp] theorem Work.recordFault_c_fault (w : Work) (f : FaultRecord) : ((w.recordFault f).1).c.fault = some f := rfl
@[simp] theorem Work.recordFault_c_refused (w : Work) (f : FaultRecord) : ((w.recordFault f).1).c.refused = w.c.refused := rfl
@[simp] theorem Work.recordFault_c_source (w : Work) (f : FaultRecord) : ((w.recordFault f).1).c.source = w.c.source := rfl
@[simp] theorem Work.recordFault_c_bitPos (w : Work) (f : FaultRecord) : ((w.recordFault f).1).c.bitPos = w.c.bitPos := rfl

@[simp] theorem Work.takeFault_cfg (w : Work) (f : FaultRecord) : ((w.takeFault f).1).cfg = w.cfg := rfl
@[simp] theorem Work.takeFault_ctx (w : Work) (f : FaultRecord) : ((w.takeFault f).1).ctx = w.ctx := rfl
@[simp] theorem Work.takeFault_lut (w : Work) (f : FaultRecord) : ((w.takeFault f).1).lut = w.lut := rfl
@[simp] theorem Work.takeFault_draws (w : Work) (f : FaultRecord) : ((w.takeFault f).1).draws = w.draws + 1 := rfl
@[simp] theorem Work.takeFault_c_phase (w : Work) (f : FaultRecord) : ((w.takeFault f).1).c.phase = w.c.phase := rfl
@[simp] theorem Work.takeFault_c_L (w : Work) (f : FaultRecord) : ((w.takeFault f).1).c.L = w.c.L := rfl
@[simp] theorem Work.takeFault_c_S (w : Work) (f : FaultRecord) : ((w.takeFault f).1).c.S = w.c.S := rfl
@[simp] theorem Work.takeFault_c_R (w : Work) (f : FaultRecord) : ((w.takeFault f).1).c.R = w.c.R := rfl
@[simp] theorem Work.takeFault_c_BW (w : Work) (f : FaultRecord) : ((w.takeFault f).1).c.BW = w.c.BW := rfl
@[simp] theorem Work.takeFault_c_T (w : Work) (f : FaultRecord) : ((w.takeFault f).1).c.T = w.c.T := rfl
@[simp] theorem Work.takeFault_c_remaining (w : Work) (f : FaultRecord) : ((w.takeFault f).1).c.remaining = w.c.remaining := rfl
@[simp] theorem Work.takeFault_c_nextBand (w : Work) (f : FaultRecord) : ((w.takeFault f).1).c.nextBand = Config.lostNextBand w.draws := rfl
@[simp] theorem Work.takeFault_c_outPos (w : Work) (f : FaultRecord) : ((w.takeFault f).1).c.outPos = Config.lostOutPos w.draws := rfl
@[simp] theorem Work.takeFault_c_outCount (w : Work) (f : FaultRecord) : ((w.takeFault f).1).c.outCount = Config.lostOutCount w.draws := rfl
@[simp] theorem Work.takeFault_c_buf (w : Work) (f : FaultRecord) : ((w.takeFault f).1).c.buf = Cells.ofWrites (Config.lostBuf w.draws) := rfl
@[simp] theorem Work.takeFault_c_prev (w : Work) (f : FaultRecord) : ((w.takeFault f).1).c.prev = Cells.ofWrites ((Config.lostPrev w.draws).filter fun p => p.2 ≠ 0) := rfl
@[simp] theorem Work.takeFault_c_fault (w : Work) (f : FaultRecord) : ((w.takeFault f).1).c.fault = some f := rfl
@[simp] theorem Work.takeFault_c_refused (w : Work) (f : FaultRecord) : ((w.takeFault f).1).c.refused = w.c.refused := rfl
@[simp] theorem Work.takeFault_c_source (w : Work) (f : FaultRecord) : ((w.takeFault f).1).c.source = w.c.source := rfl
@[simp] theorem Work.takeFault_c_bitPos (w : Work) (f : FaultRecord) : ((w.takeFault f).1).c.bitPos = Config.lostBitPos w.draws := rfl

@[simp] theorem Work.takeRefusal_cfg (w : Work) : (w.takeRefusal.1).cfg = w.cfg := rfl
@[simp] theorem Work.takeRefusal_ctx (w : Work) : (w.takeRefusal.1).ctx = w.ctx := rfl
@[simp] theorem Work.takeRefusal_lut (w : Work) : (w.takeRefusal.1).lut = w.lut := rfl
@[simp] theorem Work.takeRefusal_draws (w : Work) : (w.takeRefusal.1).draws = w.draws + 1 := rfl
@[simp] theorem Work.takeRefusal_c_phase (w : Work) : (w.takeRefusal.1).c.phase = w.c.phase := rfl
@[simp] theorem Work.takeRefusal_c_L (w : Work) : (w.takeRefusal.1).c.L = w.c.L := rfl
@[simp] theorem Work.takeRefusal_c_S (w : Work) : (w.takeRefusal.1).c.S = w.c.S := rfl
@[simp] theorem Work.takeRefusal_c_R (w : Work) : (w.takeRefusal.1).c.R = w.c.R := rfl
@[simp] theorem Work.takeRefusal_c_BW (w : Work) : (w.takeRefusal.1).c.BW = w.c.BW := rfl
@[simp] theorem Work.takeRefusal_c_T (w : Work) : (w.takeRefusal.1).c.T = w.c.T := rfl
@[simp] theorem Work.takeRefusal_c_remaining (w : Work) : (w.takeRefusal.1).c.remaining = w.c.remaining := rfl
@[simp] theorem Work.takeRefusal_c_nextBand (w : Work) : (w.takeRefusal.1).c.nextBand = Config.lostNextBand w.draws := rfl
@[simp] theorem Work.takeRefusal_c_outPos (w : Work) : (w.takeRefusal.1).c.outPos = Config.lostOutPos w.draws := rfl
@[simp] theorem Work.takeRefusal_c_outCount (w : Work) : (w.takeRefusal.1).c.outCount = Config.lostOutCount w.draws := rfl
@[simp] theorem Work.takeRefusal_c_buf (w : Work) : (w.takeRefusal.1).c.buf = Cells.ofWrites (Config.lostBuf w.draws) := rfl
@[simp] theorem Work.takeRefusal_c_prev (w : Work) : (w.takeRefusal.1).c.prev = Cells.ofWrites ((Config.lostPrev w.draws).filter fun p => p.2 ≠ 0) := rfl
@[simp] theorem Work.takeRefusal_c_fault (w : Work) : (w.takeRefusal.1).c.fault = w.c.fault := rfl
@[simp] theorem Work.takeRefusal_c_refused (w : Work) : (w.takeRefusal.1).c.refused = true := rfl
@[simp] theorem Work.takeRefusal_c_source (w : Work) : (w.takeRefusal.1).c.source = w.c.source := rfl
@[simp] theorem Work.takeRefusal_c_bitPos (w : Work) : (w.takeRefusal.1).c.bitPos = w.c.bitPos := rfl

@[simp] theorem scaleBuild_cfg (w : Work) (e : BitVec 4) (x : BitVec 16) : (scaleBuild e x w).cfg = w.cfg := rfl
@[simp] theorem scaleBuild_ctx (w : Work) (e : BitVec 4) (x : BitVec 16) : (scaleBuild e x w).ctx = w.ctx := rfl
@[simp] theorem scaleBuild_lut (w : Work) (e : BitVec 4) (x : BitVec 16) : (scaleBuild e x w).lut = w.lut.build e x := rfl
@[simp] theorem scaleBuild_draws (w : Work) (e : BitVec 4) (x : BitVec 16) : (scaleBuild e x w).draws = w.draws := rfl
@[simp] theorem scaleBuild_c_phase (w : Work) (e : BitVec 4) (x : BitVec 16) : (scaleBuild e x w).c.phase = .filling := rfl
@[simp] theorem scaleBuild_c_L (w : Work) (e : BitVec 4) (x : BitVec 16) : (scaleBuild e x w).c.L = w.c.L := rfl
@[simp] theorem scaleBuild_c_S (w : Work) (e : BitVec 4) (x : BitVec 16) : (scaleBuild e x w).c.S = w.c.S := rfl
@[simp] theorem scaleBuild_c_R (w : Work) (e : BitVec 4) (x : BitVec 16) : (scaleBuild e x w).c.R = w.c.R := rfl
@[simp] theorem scaleBuild_c_BW (w : Work) (e : BitVec 4) (x : BitVec 16) : (scaleBuild e x w).c.BW = w.c.BW := rfl
@[simp] theorem scaleBuild_c_T (w : Work) (e : BitVec 4) (x : BitVec 16) : (scaleBuild e x w).c.T = w.c.T := rfl
@[simp] theorem scaleBuild_c_remaining (w : Work) (e : BitVec 4) (x : BitVec 16) : (scaleBuild e x w).c.remaining = w.c.remaining := rfl
@[simp] theorem scaleBuild_c_nextBand (w : Work) (e : BitVec 4) (x : BitVec 16) : (scaleBuild e x w).c.nextBand = 0 := rfl
@[simp] theorem scaleBuild_c_outPos (w : Work) (e : BitVec 4) (x : BitVec 16) : (scaleBuild e x w).c.outPos = 0 := rfl
@[simp] theorem scaleBuild_c_outCount (w : Work) (e : BitVec 4) (x : BitVec 16) : (scaleBuild e x w).c.outCount = 0 := rfl
@[simp] theorem scaleBuild_c_buf (w : Work) (e : BitVec 4) (x : BitVec 16) : (scaleBuild e x w).c.buf = w.c.buf := rfl
@[simp] theorem scaleBuild_c_prev (w : Work) (e : BitVec 4) (x : BitVec 16) : (scaleBuild e x w).c.prev = w.c.prev := rfl
@[simp] theorem scaleBuild_c_fault (w : Work) (e : BitVec 4) (x : BitVec 16) : (scaleBuild e x w).c.fault = w.c.fault := rfl
@[simp] theorem scaleBuild_c_refused (w : Work) (e : BitVec 4) (x : BitVec 16) : (scaleBuild e x w).c.refused = w.c.refused := rfl
@[simp] theorem scaleBuild_c_source (w : Work) (e : BitVec 4) (x : BitVec 16) : (scaleBuild e x w).c.source = w.c.source := rfl
@[simp] theorem scaleBuild_c_bitPos (w : Work) (e : BitVec 4) (x : BitVec 16) : (scaleBuild e x w).c.bitPos = w.c.bitPos := rfl

@[simp] theorem failBand_cfg (w : Work) : ((failBand w).1).cfg = w.cfg := rfl
@[simp] theorem failBand_ctx (w : Work) : ((failBand w).1).ctx = w.ctx := rfl
@[simp] theorem failBand_lut (w : Work) : ((failBand w).1).lut = w.lut := rfl
@[simp] theorem failBand_draws (w : Work) : ((failBand w).1).draws = w.draws := rfl
@[simp] theorem failBand_c_phase (w : Work) : ((failBand w).1).c.phase = .failed := rfl
@[simp] theorem failBand_c_L (w : Work) : ((failBand w).1).c.L = w.c.L := rfl
@[simp] theorem failBand_c_S (w : Work) : ((failBand w).1).c.S = w.c.S := rfl
@[simp] theorem failBand_c_R (w : Work) : ((failBand w).1).c.R = w.c.R := rfl
@[simp] theorem failBand_c_BW (w : Work) : ((failBand w).1).c.BW = w.c.BW := rfl
@[simp] theorem failBand_c_T (w : Work) : ((failBand w).1).c.T = w.c.T := rfl
@[simp] theorem failBand_c_remaining (w : Work) : ((failBand w).1).c.remaining = w.c.remaining := rfl
@[simp] theorem failBand_c_nextBand (w : Work) : ((failBand w).1).c.nextBand = w.c.nextBand := rfl
@[simp] theorem failBand_c_outPos (w : Work) : ((failBand w).1).c.outPos = w.c.outPos := rfl
@[simp] theorem failBand_c_outCount (w : Work) : ((failBand w).1).c.outCount = w.c.outCount := rfl
@[simp] theorem failBand_c_buf (w : Work) : ((failBand w).1).c.buf = w.c.buf := rfl
@[simp] theorem failBand_c_prev (w : Work) : ((failBand w).1).c.prev = w.c.prev := rfl
@[simp] theorem failBand_c_fault (w : Work) : ((failBand w).1).c.fault = w.c.fault := rfl
@[simp] theorem failBand_c_refused (w : Work) : ((failBand w).1).c.refused = w.c.refused := rfl
@[simp] theorem failBand_c_source (w : Work) : ((failBand w).1).c.source = w.c.source := rfl
@[simp] theorem failBand_c_bitPos (w : Work) : ((failBand w).1).c.bitPos = w.c.bitPos := rfl

@[simp] theorem finishBlock_cfg (w : Work) : (finishBlock w).cfg = w.cfg := rfl
@[simp] theorem finishBlock_ctx (w : Work) : (finishBlock w).ctx = w.ctx := rfl
@[simp] theorem finishBlock_lut (w : Work) : (finishBlock w).lut = w.lut := rfl
@[simp] theorem finishBlock_draws (w : Work) : (finishBlock w).draws = w.draws := rfl
@[simp] theorem finishBlock_c_phase (w : Work) : (finishBlock w).c.phase = .idle := rfl
@[simp] theorem finishBlock_c_L (w : Work) : (finishBlock w).c.L = w.c.L := rfl
@[simp] theorem finishBlock_c_S (w : Work) : (finishBlock w).c.S = w.c.S := rfl
@[simp] theorem finishBlock_c_R (w : Work) : (finishBlock w).c.R = w.c.R := rfl
@[simp] theorem finishBlock_c_BW (w : Work) : (finishBlock w).c.BW = w.c.BW := rfl
@[simp] theorem finishBlock_c_T (w : Work) : (finishBlock w).c.T = w.c.T := rfl
@[simp] theorem finishBlock_c_remaining (w : Work) : (finishBlock w).c.remaining = w.c.remaining - BitVec.ofNat 32 (blockOutput w.c) := rfl
@[simp] theorem finishBlock_c_nextBand (w : Work) : (finishBlock w).c.nextBand = w.c.nextBand := rfl
@[simp] theorem finishBlock_c_outPos (w : Work) : (finishBlock w).c.outPos = 0 := rfl
@[simp] theorem finishBlock_c_outCount (w : Work) : (finishBlock w).c.outCount = blockOutput w.c := rfl
@[simp] theorem finishBlock_c_buf (w : Work) : (finishBlock w).c.buf = (transformBlock w.cfg.stage0R1Noop w.c).buf := rfl
@[simp] theorem finishBlock_c_prev (w : Work) : (finishBlock w).c.prev = (transformBlock w.cfg.stage0R1Noop w.c).prev := rfl
@[simp] theorem finishBlock_c_fault (w : Work) : (finishBlock w).c.fault = w.c.fault := rfl
@[simp] theorem finishBlock_c_refused (w : Work) : (finishBlock w).c.refused = w.c.refused := rfl
@[simp] theorem finishBlock_c_source (w : Work) : (finishBlock w).c.source = w.c.source := rfl
@[simp] theorem finishBlock_c_bitPos (w : Work) : (finishBlock w).c.bitPos = w.c.bitPos := rfl

@[simp] theorem Work.recordFault_response (w : Work) (f : FaultRecord) : (w.recordFault f).2 = .faulted f := rfl
@[simp] theorem Work.takeFault_response (w : Work) (f : FaultRecord) : (w.takeFault f).2 = .faulted f := rfl
@[simp] theorem Work.takeRefusal_response (w : Work) : w.takeRefusal.2 = .refused := rfl
@[simp] theorem failBand_response (w : Work) : (failBand w).2 = .bare .failBand := rfl
@[simp] theorem Work.take_value (w : Work) (n : Nat) : (w.take n).1 = w.peek n := rfl
@[simp] theorem Work.take_rest (w : Work) (n : Nat) : (w.take n).2 = w.skip n := rfl

@[simp] theorem Context.opened_phase (c : Context) (L : BitVec 4) (R : BitVec 12) (total : BitVec 32) : (c.opened L R total).phase = .idle := rfl
@[simp] theorem Context.opened_L (c : Context) (L : BitVec 4) (R : BitVec 12) (total : BitVec 32) : (c.opened L R total).L = L := rfl
@[simp] theorem Context.opened_S (c : Context) (L : BitVec 4) (R : BitVec 12) (total : BitVec 32) : (c.opened L R total).S = BitVec.ofNat 16 (subbandsOf L) := rfl
@[simp] theorem Context.opened_R (c : Context) (L : BitVec 4) (R : BitVec 12) (total : BitVec 32) : (c.opened L R total).R = R := rfl
@[simp] theorem Context.opened_BW (c : Context) (L : BitVec 4) (R : BitVec 12) (total : BitVec 32) : (c.opened L R total).BW = BitVec.ofNat 27 (blockWordsOf L R) := rfl
@[simp] theorem Context.opened_T (c : Context) (L : BitVec 4) (R : BitVec 12) (total : BitVec 32) : (c.opened L R total).T = BitVec.ofNat 11 (chunkRowsOf L) := rfl
@[simp] theorem Context.opened_remaining (c : Context) (L : BitVec 4) (R : BitVec 12) (total : BitVec 32) : (c.opened L R total).remaining = total := rfl
@[simp] theorem Context.opened_nextBand (c : Context) (L : BitVec 4) (R : BitVec 12) (total : BitVec 32) : (c.opened L R total).nextBand = 0 := rfl
@[simp] theorem Context.opened_outPos (c : Context) (L : BitVec 4) (R : BitVec 12) (total : BitVec 32) : (c.opened L R total).outPos = 0 := rfl
@[simp] theorem Context.opened_outCount (c : Context) (L : BitVec 4) (R : BitVec 12) (total : BitVec 32) : (c.opened L R total).outCount = 0 := rfl
@[simp] theorem Context.opened_buf (c : Context) (L : BitVec 4) (R : BitVec 12) (total : BitVec 32) : (c.opened L R total).buf = [] := rfl
@[simp] theorem Context.opened_prev (c : Context) (L : BitVec 4) (R : BitVec 12) (total : BitVec 32) : (c.opened L R total).prev = [] := rfl
@[simp] theorem Context.opened_fault (c : Context) (L : BitVec 4) (R : BitVec 12) (total : BitVec 32) : (c.opened L R total).fault = c.fault := rfl
@[simp] theorem Context.opened_refused (c : Context) (L : BitVec 4) (R : BitVec 12) (total : BitVec 32) : (c.opened L R total).refused = c.refused := rfl
@[simp] theorem Context.opened_source (c : Context) (L : BitVec 4) (R : BitVec 12) (total : BitVec 32) : (c.opened L R total).source = c.source := rfl
@[simp] theorem Context.opened_bitPos (c : Context) (L : BitVec 4) (R : BitVec 12) (total : BitVec 32) : (c.opened L R total).bitPos = c.bitPos := rfl

@[simp] theorem LutUnit.build_present (u : LutUnit) (e : BitVec 4) (x : BitVec 16) : (u.build e x).present = u.present := rfl
@[simp] theorem LutUnit.build_openCount (u : LutUnit) (e : BitVec 4) (x : BitVec 16) : (u.build e x).openCount = u.openCount := rfl
@[simp] theorem LutUnit.build_e (u : LutUnit) (e : BitVec 4) (x : BitVec 16) : (u.build e x).e = some e := rfl

@[simp] theorem Banks.writeBuf_buf (b : Banks) (i : Nat) (v : Word) : (b.writeBuf i v).buf = Cells.put b.buf i v := rfl
@[simp] theorem Banks.writeBuf_prev (b : Banks) (i : Nat) (v : Word) : (b.writeBuf i v).prev = b.prev := rfl
@[simp] theorem Banks.writePrev_buf (b : Banks) (i : Nat) (v : Word) : (b.writePrev i v).buf = b.buf := rfl
@[simp] theorem Banks.writePrev_prev (b : Banks) (i : Nat) (v : Word) : (b.writePrev i v).prev = prevWrite b.prev i v := rfl

@[simp] theorem liftPair_r0 (p q : Nat) (k : Column) : (liftPair p q k).r0 = k.banks.readBuf p := rfl
@[simp] theorem liftPair_r1 (p q : Nat) (k : Column) : (liftPair p q k).r1 = k.banks.readBuf q := rfl
@[simp] theorem liftPair_prev (p q : Nat) (k : Column) : (liftPair p q k).banks.prev = k.banks.prev := rfl

end Sys2Proof.Machine
end

