-- ==== Sys2Proof/Laws/Cells.lean ====
section
/-! SUPPORT. The laws of an element-indexed memory: a read after a write, every other element left alone, and the
canonical form kept by every operation. -/

namespace Sys2Proof.Machine

open Sys2Proof

variable {α β : Type}

/-! ### Reading after writing -/

@[simp] theorem Cells.get?_nil (k : Nat) : Cells.get? ([] : Cells α) k = none := rfl

theorem Cells.get?_cons (p : Nat × α) (m : Cells α) (k : Nat) :
    Cells.get? (p :: m) k = if k = p.1 then some p.2 else Cells.get? m k := rfl

theorem Cells.get?_put (m : Cells α) (k j : Nat) (v : α) :
    Cells.get? (Cells.put m k v) j = if j = k then some v else Cells.get? m j := by
  induction m with
  | nil => simp [Cells.put, Cells.get?_cons]
  | cons p m ih =>
    simp only [Cells.put]
    split
    · simp [Cells.get?_cons]
    · split
      · subst k
        by_cases h : j = p.1 <;> simp [Cells.get?_cons, h]
      · rw [Cells.get?_cons, Cells.get?_cons, ih]
        split <;> split <;> simp_all

@[simp] theorem Cells.get?_put_self (m : Cells α) (k : Nat) (v : α) : Cells.get? (Cells.put m k v) k = some v := by
  simp [Cells.get?_put]

theorem Cells.get?_put_ne (m : Cells α) {k j : Nat} (v : α) (h : j ≠ k) :
    Cells.get? (Cells.put m k v) j = Cells.get? m j := by
  simp [Cells.get?_put, h]

theorem Cells.get?_append (m n : Cells α) (k : Nat) :
    Cells.get? (m ++ n) k = (Cells.get? m k).or (Cells.get? n k) := by
  induction m with
  | nil => simp
  | cons p m ih =>
    simp only [List.cons_append, Cells.get?_cons, ih]
    split <;> simp

theorem Cells.get?_filter (m : Cells α) (P : Nat → Bool) (k : Nat) :
    Cells.get? (m.filter fun p => P p.1) k = if P k then Cells.get? m k else none := by
  induction m with
  | nil => simp
  | cons p m ih =>
    simp only [List.filter_cons, Cells.get?_cons]
    by_cases hk : k = p.1
    · subst hk
      cases h : P p.1 <;> simp [h, Cells.get?_cons, ih]
    · cases h : P p.1 <;> simp [Cells.get?_cons, ih, hk]

theorem Cells.get?_erase (m : Cells α) (k j : Nat) :
    Cells.get? (Cells.erase m k) j = if j = k then none else Cells.get? m j := by
  have h := Cells.get?_filter m (fun i => decide (i ≠ k)) j
  simp only [Cells.erase] at *
  rw [h]
  by_cases hj : j = k <;> simp [hj]

theorem Cells.get?_range (lo n : Nat) (f : Nat → α) (k : Nat) :
    Cells.get? ((List.range' lo n).map fun i => (i, f i)) k = if lo ≤ k ∧ k < lo + n then some (f k) else none := by
  induction n generalizing lo with
  | zero => simp
  | succ n ih =>
    simp only [List.range'_succ, List.map_cons, Cells.get?_cons, ih]
    by_cases h : k = lo
    · subst h; simp
    · simp only [h, if_false]
      congr 1
      simp only [eq_iff_iff]; omega

/-- A range write: inside the range the new values, outside it the old contents. -/
theorem Cells.get?_fill (m : Cells α) (lo n : Nat) (f : Nat → α) (k : Nat) :
    Cells.get? (Cells.fill m lo n f) k = if lo ≤ k ∧ k < lo + n then some (f k) else Cells.get? m k := by
  have h1 := Cells.get?_filter m (fun i => decide (i < lo)) k
  have h2 := Cells.get?_filter m (fun i => decide (lo + n ≤ i)) k
  simp only [Cells.fill, Cells.get?_append, Cells.get?_range, h1, h2]
  by_cases a : k < lo
  · simp [a, show ¬ (lo ≤ k ∧ k < lo + n) by omega, show ¬ (lo + n ≤ k) by omega]
  · by_cases b : lo + n ≤ k
    · simp [a, b, show ¬ (lo ≤ k ∧ k < lo + n) by omega]
    · simp [show lo ≤ k ∧ k < lo + n by omega, a]

/-- An index at which something is listed is listed with what a read of it gives, in a canonical memory. -/
theorem Cells.get?_of_mem {m : Cells α} (h : Cells.WF m) {p : Nat × α} (hp : p ∈ m) : Cells.get? m p.1 = some p.2 := by
  induction m with
  | nil => cases hp
  | cons q m ih =>
    obtain ⟨h1, h2⟩ := List.pairwise_cons.mp h
    rcases List.mem_cons.mp hp with rfl | hm
    · simp [Cells.get?_cons]
    · have := h1 p hm
      rw [Cells.get?_cons, if_neg (by omega), ih h2 hm]

theorem Cells.mem_of_get? {m : Cells α} {k : Nat} {v : α} (h : Cells.get? m k = some v) : (k, v) ∈ m := by
  induction m with
  | nil => simp at h
  | cons q m ih =>
    rw [Cells.get?_cons] at h
    split at h
    · rename_i hk
      cases h
      subst hk
      exact List.mem_cons_self ..
    · exact List.mem_cons_of_mem _ (ih h)

/-- Two canonical memories that read alike are the same list. -/
theorem Cells.eq_of_get? {m n : Cells α} (hm : Cells.WF m) (hn : Cells.WF n)
    (h : ∀ k, Cells.get? m k = Cells.get? n k) : m = n := by
  induction m generalizing n with
  | nil =>
    cases n with
    | nil => rfl
    | cons q n => simpa [Cells.get?_cons] using h q.1
  | cons p m ih =>
    cases n with
    | nil => simpa [Cells.get?_cons] using h p.1
    | cons q n =>
      obtain ⟨hp, hm'⟩ := List.pairwise_cons.mp hm
      obtain ⟨hq, hn'⟩ := List.pairwise_cons.mp hn
      have key : p.1 = q.1 := by
        rcases Nat.lt_trichotomy p.1 q.1 with hlt | heq | hgt
        · have e := h p.1
          rw [Cells.get?_cons, if_pos rfl] at e
          have hmem := Cells.mem_of_get? e.symm
          rcases List.mem_cons.mp hmem with e' | hmem
          · exact congrArg Prod.fst e'
          · have := hq _ hmem
            simp only at this
            omega
        · exact heq
        · have e := h q.1
          rw [Cells.get?_cons q, if_pos rfl] at e
          have hmem := Cells.mem_of_get? e
          rcases List.mem_cons.mp hmem with e' | hmem
          · exact (congrArg Prod.fst e').symm
          · have := hp _ hmem
            simp only at this
            omega
      have hv : p = q := by
        have e := h p.1
        rw [Cells.get?_cons, Cells.get?_cons, if_pos rfl, if_pos key] at e
        exact Prod.ext key (by simpa using e)
      subst hv
      congr 1
      refine ih hm' hn' fun k => ?_
      by_cases hk : k = p.1
      · subst hk
        have none_of : ∀ {x : Cells α}, (∀ a ∈ x, p.1 < a.1) → Cells.get? x p.1 = none := by
          intro x hx
          cases hg : Cells.get? x p.1 with
          | none => rfl
          | some v => exact absurd (hx _ (Cells.mem_of_get? hg)) (Nat.lt_irrefl _)
        rw [none_of hp, none_of hq]
      · have e := h k
        rwa [Cells.get?_cons, Cells.get?_cons, if_neg hk, if_neg hk] at e

/-! ### What an operation may list -/

theorem Cells.mem_put {m : Cells α} {k : Nat} {v : α} {p : Nat × α} (h : p ∈ Cells.put m k v) : p = (k, v) ∨ p ∈ m := by
  induction m with
  | nil => simp_all [Cells.put]
  | cons q m ih =>
    simp only [Cells.put] at h
    split at h
    · rcases List.mem_cons.mp h with h | h <;> simp_all
    · split at h
      · rcases List.mem_cons.mp h with h | h <;> simp_all
      · rcases List.mem_cons.mp h with h | h
        · simp_all
        · rcases ih h with h | h <;> simp_all

theorem Cells.mem_fill {m : Cells α} {lo n : Nat} {f : Nat → α} {p : Nat × α} (h : p ∈ Cells.fill m lo n f) :
    (lo ≤ p.1 ∧ p.1 < lo + n) ∨ p ∈ m := by
  simp only [Cells.fill, List.mem_append, List.mem_filter, List.mem_map, List.mem_range'_1] at h
  rcases h with (h | ⟨i, hi, rfl⟩) | h
  · exact .inr h.1
  · exact .inl hi
  · exact .inr h.1

theorem Cells.mem_erase {m : Cells α} {k : Nat} {p : Nat × α} (h : p ∈ Cells.erase m k) : p ∈ m :=
  List.mem_of_mem_filter h

theorem prevWrite_mem {m : Cells Word} {j : Nat} {v : Word} {p : Nat × Word} (h : p ∈ prevWrite m j v) :
    p = (j, v) ∨ p ∈ m := by
  simp only [prevWrite] at h
  split at h
  · exact .inr (Cells.mem_erase h)
  · exact Cells.mem_put h

/-! ### The canonical form -/

theorem Cells.put_wf {m : Cells α} (h : Cells.WF m) (k : Nat) (v : α) : Cells.WF (Cells.put m k v) := by
  induction m with
  | nil => simp [Cells.put, Cells.WF]
  | cons p m ih =>
    obtain ⟨h1, h2⟩ := List.pairwise_cons.mp h
    simp only [Cells.put]
    split
    · refine List.pairwise_cons.mpr ⟨fun q hq => ?_, h⟩
      rcases List.mem_cons.mp hq with rfl | hq
      · assumption
      · have := h1 q hq
        omega
    · split
      · subst k
        exact List.pairwise_cons.mpr ⟨h1, h2⟩
      · refine List.pairwise_cons.mpr ⟨fun q hq => ?_, ih h2⟩
        rcases Cells.mem_put hq with rfl | hq
        · show p.1 < k
          omega
        · exact h1 q hq

theorem Cells.erase_wf {m : Cells α} (h : Cells.WF m) (k : Nat) : Cells.WF (Cells.erase m k) :=
  List.Pairwise.filter _ h

theorem Cells.fill_wf {m : Cells α} (h : Cells.WF m) (lo n : Nat) (f : Nat → α) : Cells.WF (Cells.fill m lo n f) := by
  simp only [Cells.fill, Cells.WF, List.pairwise_append, List.mem_append, List.mem_filter, List.mem_map,
    List.mem_range'_1, List.pairwise_map]
  refine ⟨⟨List.Pairwise.filter _ h, ?_, ?_⟩, List.Pairwise.filter _ h, ?_⟩
  · exact List.pairwise_lt_range'
  · rintro a ⟨-, ha⟩ b ⟨i, hi, rfl⟩
    have := of_decide_eq_true ha
    show a.1 < i
    omega
  · rintro a ha b ⟨-, hb⟩
    have hb := of_decide_eq_true hb
    rcases ha with ⟨-, ha⟩ | ⟨i, hi, rfl⟩
    · have := of_decide_eq_true ha
      omega
    · show i < b.1
      omega

theorem Cells.ofWrites_wf (ws : List (Nat × α)) : Cells.WF (Cells.ofWrites ws) := by
  suffices h : ∀ (ws : List (Nat × α)) (m : Cells α), Cells.WF m →
      Cells.WF (ws.foldl (fun m p => Cells.put m p.1 p.2) m) from h ws [] .nil
  intro ws
  induction ws with
  | nil => exact fun _ h => h
  | cons p ws ih => exact fun m h => ih _ (Cells.put_wf h _ _)

theorem Cells.ofWrites_mem {ws : List (Nat × α)} {p : Nat × α} (h : p ∈ Cells.ofWrites ws) : p ∈ ws := by
  suffices H : ∀ (ws : List (Nat × α)) (m : Cells α),
      p ∈ ws.foldl (fun m p => Cells.put m p.1 p.2) m → p ∈ ws ∨ p ∈ m by
    rcases H ws [] h with h | h
    · exact h
    · cases h
  intro ws
  induction ws with
  | nil => exact fun _ h => .inr h
  | cons q ws ih =>
    intro m h
    rcases ih _ h with h | h
    · exact .inl (List.mem_cons_of_mem _ h)
    · rcases Cells.mem_put h with rfl | h
      · exact .inl (List.mem_cons_self ..)
      · exact .inr h

/-! ### PREV -/

theorem prevRead_prevWrite (m : Cells Word) (k j : Nat) (v : Word) :
    prevRead (prevWrite m k v) j = if j = k then v else prevRead m j := by
  simp only [prevRead, prevWrite]
  by_cases h : v = 0
  · simp only [h, if_true, Cells.get?_erase]
    split <;> simp
  · simp only [h, if_false, Cells.get?_put]
    split <;> simp

theorem prevWrite_wf {m : Cells Word} (h : prevWF m) (j : Nat) (v : Word) : prevWF (prevWrite m j v) := by
  refine ⟨?_, fun p hp => ?_⟩
  · simp only [prevWrite]
    split
    · exact Cells.erase_wf h.1 _
    · exact Cells.put_wf h.1 _ _
  · rcases prevWrite_mem hp with rfl | hp'
    · intro (h0 : v = 0)
      simp [prevWrite, h0, Cells.erase] at hp
    · exact h.2 p hp'

theorem lostPrev_wf (ws : List (Nat × Word)) : prevWF (Cells.ofWrites (ws.filter fun p => p.2 ≠ 0)) :=
  ⟨Cells.ofWrites_wf _, fun p hp => by simpa using (List.mem_filter.mp (Cells.ofWrites_mem hp)).2⟩

/-! ### The whole of memory -/

/-- Power-on reset leaves every memory in the canonical form, whatever the configuration. -/
theorem resetWith_memory_wf (cfg : Config) : Memory.wf (State.resetWith cfg) := by
  refine ⟨List.Pairwise.nil, fun c hc => ?_⟩
  obtain rfl : c = .reset := List.eq_of_mem_replicate hc
  exact ⟨List.Pairwise.nil, List.Pairwise.nil, fun p hp => nomatch hp⟩

theorem reset_memory_wf : Memory.wf State.reset := resetWith_memory_wf _

/-! ### Loops -/

@[simp] theorem forRange_zero (f : Nat → β → β) (a : β) : forRange 0 f a = a := rfl

theorem forRange_succ (n : Nat) (f : Nat → β → β) (a : β) : forRange (n + 1) f a = f n (forRange n f a) := rfl

/-- What every turn keeps, the loop keeps. -/
theorem forRange_keeps (P : β → Prop) (n : Nat) (f : Nat → β → β) (a : β) (h0 : P a)
    (h : ∀ i < n, ∀ b, P b → P (f i b)) : P (forRange n f a) := by
  induction n with
  | zero => exact h0
  | succ n ih => exact h n (by omega) _ (ih fun i hi => h i (by omega))

/-- What holds before turn `i` for every `i` holds, with the number of turns, after the loop. -/
theorem forRange_invariant (P : Nat → β → Prop) (n : Nat) (f : Nat → β → β) (a : β) (h0 : P 0 a)
    (h : ∀ i < n, ∀ b, P i b → P (i + 1) (f i b)) : P n (forRange n f a) := by
  induction n with
  | zero => exact h0
  | succ n ih => exact h n (by omega) _ (ih fun i hi => h i (by omega))

end Sys2Proof.Machine
end

