-- ==== Sys2Proof/Laws/Ops.lean ====
section
/-! SUPPORT. What each shared operation of Machine/Ops.lean and Machine/Operands.lean can do. -/

namespace Sys2Proof.Machine

open Sys2Proof

/-! ### The gate -/

/-- Everything `runCommand` can do (R306): the two checks it makes first, and then the command's body. -/
theorem runCommand_cases (s : State) (body : Work → Work × Response) :
    (s.contexts[s.ctx]? = none ∧ runCommand s body = s.respond (.bare .errCmd)) ∨
    (∃ c f, s.contexts[s.ctx]? = some c ∧ c.fault = some f ∧ runCommand s body = s.respond (.faulted f)) ∨
    (∃ c, s.contexts[s.ctx]? = some c ∧ c.fault = none ∧ c.refused = true ∧ runCommand s body = s.respond .refused) ∨
    (∃ c, s.contexts[s.ctx]? = some c ∧ c.fault = none ∧ c.refused = false ∧
      runCommand s body = s.commit (body (s.work c)).1 (body (s.work c)).2) := by
  cases hc : s.contexts[s.ctx]? with
  | none => exact .inl ⟨rfl, by simp [runCommand, hc]⟩
  | some c =>
    refine .inr ?_
    cases hf : c.fault with
    | some f => exact .inl ⟨c, f, rfl, hf, by simp [runCommand, hc, hf]⟩
    | none =>
      refine .inr ?_
      cases hr : c.refused with
      | true => exact .inl ⟨c, rfl, hf, hr, by simp [runCommand, hc, hf, hr]⟩
      | false => exact .inr ⟨c, rfl, hf, hr, by simp [runCommand, hc, hf, hr]⟩

theorem runCommand_noContext {s : State} (h : s.contexts[s.ctx]? = none) (body : Work → Work × Response) :
    runCommand s body = s.respond (.bare .errCmd) := by
  simp [runCommand, h]

theorem runCommand_faulted {s : State} {c : Context} {f : FaultRecord} (hc : s.contexts[s.ctx]? = some c)
    (hf : c.fault = some f) (body : Work → Work × Response) : runCommand s body = s.respond (.faulted f) := by
  simp [runCommand, hc, hf]

theorem runCommand_refused {s : State} {c : Context} (hc : s.contexts[s.ctx]? = some c)
    (hf : c.fault = none) (hr : c.refused = true) (body : Work → Work × Response) :
    runCommand s body = s.respond .refused := by
  simp [runCommand, hc, hf, hr]

theorem runCommand_runs {s : State} {c : Context} (hc : s.contexts[s.ctx]? = some c) (hf : c.fault = none)
    (hr : c.refused = false) (body : Work → Work × Response) :
    runCommand s body = s.commit (body (s.work c)).1 (body (s.work c)).2 := by
  simp [runCommand, hc, hf, hr]

@[simp] theorem runCommand_cfg (s : State) (body : Work → Work × Response) : (runCommand s body).cfg = s.cfg := by
  rcases runCommand_cases s body with ⟨-, h⟩ | ⟨_, _, -, -, h⟩ | ⟨_, -, -, -, h⟩ | ⟨_, -, -, -, h⟩ <;> rw [h] <;> rfl

@[simp] theorem runCommand_port (s : State) (body : Work → Work × Response) : (runCommand s body).port = s.port := by
  rcases runCommand_cases s body with ⟨-, h⟩ | ⟨_, _, -, -, h⟩ | ⟨_, -, -, -, h⟩ | ⟨_, -, -, -, h⟩ <;> rw [h] <;> rfl

@[simp] theorem runCommand_ctx (s : State) (body : Work → Work × Response) : (runCommand s body).ctx = s.ctx := by
  rcases runCommand_cases s body with ⟨-, h⟩ | ⟨_, _, -, -, h⟩ | ⟨_, -, -, -, h⟩ | ⟨_, -, -, -, h⟩ <;> rw [h] <;> rfl

@[simp] theorem runCommand_length (s : State) (body : Work → Work × Response) :
    (runCommand s body).contexts.length = s.contexts.length := by
  rcases runCommand_cases s body with ⟨-, h⟩ | ⟨_, _, -, -, h⟩ | ⟨_, -, -, -, h⟩ | ⟨_, -, -, -, h⟩ <;> rw [h] <;> simp

/-- No command touches a context it does not address (R20, R316). -/
theorem runCommand_otherContext (s : State) (body : Work → Work × Response) {j : Nat} (h : j ≠ s.ctx) :
    (runCommand s body).contexts[j]? = s.contexts[j]? := by
  rcases runCommand_cases s body with ⟨-, e⟩ | ⟨_, _, -, -, e⟩ | ⟨_, -, -, -, e⟩ | ⟨_, -, -, -, e⟩ <;> rw [e] <;>
    simp [h.symm]

/-! ### The bit source -/

theorem streamBits_lt (bytes : List Byte) (p n : Nat) : streamBits bytes p n < 2 ^ n := by
  induction n generalizing p with
  | zero => simp [streamBits]
  | succ n ih =>
    have := ih (p + 1)
    have h1 : (streamBit bytes p).toNat ≤ 1 := Bool.toNat_le _
    simp only [streamBits, Nat.pow_succ]
    omega

/-- Past the caller's bytes the port delivers zero bits (R71). -/
theorem streamBit_exhausted {bytes : List Byte} {p : Nat} (h : 8 * bytes.length ≤ p) : streamBit bytes p = false := by
  have : bytes.length ≤ p / 8 := by omega
  simp [streamBit, List.getD_eq_getElem?_getD, List.getElem?_eq_none this]

theorem streamBits_exhausted {bytes : List Byte} {p : Nat} (n : Nat) (h : 8 * bytes.length ≤ p) :
    streamBits bytes p n = 0 := by
  induction n generalizing p with
  | zero => rfl
  | succ n ih => simp [streamBits, streamBit_exhausted h, ih (p := p + 1) (by omega)]

/-- Taking `m + n` bits is taking `m` and then `n`, the first taken being the low ones (R70). -/
theorem streamBits_add (bytes : List Byte) (p m n : Nat) :
    streamBits bytes p (m + n) = streamBits bytes p m + 2 ^ m * streamBits bytes (p + m) n := by
  induction m generalizing p with
  | zero => simp [streamBits]
  | succ m ih =>
    rw [show m + 1 + n = (m + n) + 1 by omega]
    simp only [streamBits, ih, Nat.pow_succ]
    rw [show p + 1 + m = p + (m + 1) by omega]
    ring

theorem Work.peek_lt (w : Work) (n : Nat) : w.peek n < 2 ^ n := streamBits_lt _ _ _

@[simp] theorem Work.skip_skip (w : Work) (m n : Nat) : (w.skip m).skip n = w.skip (m + n) := by
  simp [Work.skip, Nat.add_assoc]

@[simp] theorem Work.skip_zero (w : Work) : w.skip 0 = w := rfl

/-! ### The LUT -/

theorem LutUnit.inWindow_iff (u : LutUnit) (k : Int) :
    u.inWindow k = true ↔ ∃ e, u.e = some e ∧ -((2 ^ e.toNat : Nat) : Int) ≤ k ∧ k ≤ ((2 ^ e.toNat : Nat) : Int) - 1 := by
  cases h : u.e <;> simp [LutUnit.inWindow, h]

/-- Everything `LutRead` can do (R132). -/
theorem Work.lutRead_cases (w : Work) (k : Int) :
    (w.lut.inWindow k = true ∧ w.lutRead k = some (w.lut.windowCell k, w)) ∨
    (w.lut.inWindow k = false ∧ w.cfg.oowPolicy = .fault ∧ w.lutRead k = none) ∨
    (w.lut.inWindow k = false ∧ w.cfg.oowPolicy = .stale ∧ ∃ v, w.lut.read? k = some v ∧ w.lutRead k = some (v, w)) ∨
    (w.lut.inWindow k = false ∧ w.cfg.oowPolicy = .stale ∧ w.lut.read? k = none ∧
      w.lutRead k = some (Config.staleDraw w.draws, { w with draws := w.draws + 1 })) := by
  cases hw : w.lut.inWindow k with
  | true => exact .inl ⟨rfl, by simp [Work.lutRead, hw]⟩
  | false =>
    refine .inr ?_
    cases hp : w.cfg.oowPolicy with
    | fault => exact .inl ⟨rfl, rfl, by simp [Work.lutRead, hw, hp]⟩
    | stale =>
      refine .inr ?_
      cases hr : w.lut.read? k with
      | some v => exact .inl ⟨rfl, rfl, v, rfl, by simp [Work.lutRead, hw, hp, hr]⟩
      | none => exact .inr ⟨rfl, rfl, rfl, by simp [Work.lutRead, hw, hp, hr]⟩

/-- Index 0 is inside every window (R131). -/
theorem LutUnit.inWindow_zero {u : LutUnit} {e : BitVec 4} (h : u.e = some e) : u.inWindow 0 = true := by
  have : 0 < 2 ^ e.toNat := Nat.pos_of_ne_zero (by simp)
  exact (u.inWindow_iff 0).mpr ⟨e, h, by omega, by omega⟩

/-! ### Number formats -/

theorem sext32_range (v : Half) : inSampleRange (sext32 v) := by
  have h : (sext32 v).toInt = v.toInt := BitVec.toInt_signExtend_of_le (by decide)
  have h1 := BitVec.le_toInt v
  have h2 := BitVec.toInt_lt (x := v)
  unfold inSampleRange
  omega

theorem zero_range : inSampleRange 0 := by
  unfold inSampleRange
  decide

end Sys2Proof.Machine
end

