-- ==== Sys2Proof/Laws/Band.lean ====
section
/-! SUPPORT. What a band rule can do: it changes nothing but the BUF words of its column, the stream position and the
draw counter, and when it ends it has written every row with a 16-bit value (R154). -/

namespace Sys2Proof.Machine

open Sys2Proof

/-- `w'` differs from `w` at most in the context's `buf` and stream position and in the draw counter. -/
def Work.fillsTo (w w' : Work) : Prop :=
  w' = { w with c := { w.c with buf := w'.c.buf, bitPos := w'.c.bitPos }, draws := w'.draws }

theorem Work.fillsTo_refl (w : Work) : w.fillsTo w := rfl

theorem Work.fillsTo_trans {a b c : Work} (h : a.fillsTo b) (k : b.fillsTo c) : a.fillsTo c := by
  unfold Work.fillsTo at *
  rw [h] at k
  exact k

theorem Work.fillsTo_skip (w : Work) (n : Nat) : w.fillsTo (w.skip n) := rfl

theorem Work.fillsTo_bufWrite (w : Work) (i : Nat) (v : Word) : w.fillsTo (w.bufWrite i v) := rfl

theorem Work.fillsTo_drawWrite (w : Work) (n i : Nat) (v : Word) :
    w.fillsTo (({ w with draws := n } : Work).bufWrite i v) := rfl

theorem Work.fillsTo_drawn (w : Work) (n : Nat) : w.fillsTo { w with draws := n } := rfl

/-- The BUF index row `r` of the column being filled has. -/
def Work.cell (w : Work) (r : Nat) : Nat := bufIndex w.c.S.toNat r w.c.nextBand

theorem Work.fillsTo_cell {w w' : Work} (h : w.fillsTo w') (r : Nat) : w'.cell r = w.cell r := by
  rw [h]; rfl

theorem Work.fillsTo_rows {w w' : Work} (h : w.fillsTo w') : w'.c.R = w.c.R := by
  rw [h]

/-- Everything one row's write can do (R152). -/
theorem writeSymbol_cases (code : BitVec 5) (r : Nat) (y : Symbol) (w : Work) :
    (∃ k, y = .deq k ∧ w.lutRead k = none ∧
      writeSymbol code r y w = .raised (.lutWindow (BitVec.ofInt 17 k) code w.c.nextBand r) w) ∨
    (∃ v n, inSampleRange v ∧ writeSymbol code r y w = .going (({ w with draws := n } : Work).bufWrite (w.cell r) v)) := by
  cases y with
  | zero => exact .inr ⟨0, w.draws, zero_range, rfl⟩
  | deq k =>
    rcases w.lutRead_cases k with ⟨-, h⟩ | ⟨-, -, h⟩ | ⟨-, -, v, -, h⟩ | ⟨-, -, -, h⟩
    · exact .inr ⟨sext32 (w.lut.windowCell k), w.draws, sext32_range _, by simp only [writeSymbol, h]; rfl⟩
    · exact .inl ⟨k, rfl, h, by simp only [writeSymbol, h]⟩
    · exact .inr ⟨sext32 v, w.draws, sext32_range _, by simp only [writeSymbol, h]; rfl⟩
    · exact .inr ⟨sext32 (Config.staleDraw w.draws), w.draws + 1, sext32_range _, by simp only [writeSymbol, h]; rfl⟩

/-- What writing the rows `P` of the column has done to the buffer: every word that is no row of `P` reads as before,
every row of `P` holds a 16-bit value, and the canonical form is kept. -/
def Work.writesRows (w w' : Work) (P : Nat → Prop) : Prop :=
  (∀ i, (∀ q, P q → i ≠ w.cell q) → Cells.get? w'.c.buf i = Cells.get? w.c.buf i) ∧
  (∀ q, P q → ∃ v, Cells.get? w'.c.buf (w.cell q) = some v ∧ inSampleRange v) ∧
  (Cells.WF w.c.buf → Cells.WF w'.c.buf)

theorem Work.writesRows_none {w w' : Work} (h : w'.c.buf = w.c.buf) {P : Nat → Prop} (hP : ∀ q, ¬ P q) :
    w.writesRows w' P :=
  ⟨fun i _ => by rw [h], fun q hq => absurd hq (hP q), fun hw => by rwa [h]⟩

theorem Work.writesRows_one (w : Work) (n r : Nat) {v : Word} (hv : inSampleRange v) :
    w.writesRows (({ w with draws := n } : Work).bufWrite (w.cell r) v) (· = r) := by
  refine ⟨fun i h => Cells.get?_put_ne _ v (h r rfl), fun q hq => ⟨v, ?_, hv⟩, fun hw => Cells.put_wf hw _ _⟩
  subst hq
  exact Cells.get?_put_self _ _ _

theorem Work.writesRows_trans {a b c : Work} (hab : a.fillsTo b) {P Q T : Nat → Prop} (h : a.writesRows b P)
    (k : b.writesRows c Q) (hT : ∀ q, T q ↔ P q ∨ Q q) : a.writesRows c T := by
  have hcell := Work.fillsTo_cell hab
  refine ⟨fun i hi => ?_, fun q hq => ?_, fun hw => k.2.2 (h.2.2 hw)⟩
  · rw [k.1 i fun q hq => hcell q ▸ hi q ((hT q).mpr (.inr hq)), h.1 i fun q hq => hi q ((hT q).mpr (.inl hq))]
  · by_cases hb : ∃ p, Q p ∧ a.cell q = b.cell p
    · obtain ⟨p, hp, e⟩ := hb
      rw [e]
      exact k.2.1 p hp
    · rw [k.1 _ fun p hp e => hb ⟨p, hp, e⟩]
      rcases (hT q).mp hq with hp | hq'
      · exact h.2.1 q hp
      · exact absurd ⟨q, hq', (hcell q).symm⟩ hb

/-- Everything writing a group's symbols can do (file 41, section 4): on success the rows from `r` on below R are
written, one for each symbol. -/
theorem writeSymbols_spec (code : BitVec 5) (ys : List Symbol) (r : Nat) (w : Work) :
    (∃ w', writeSymbols code r ys w = .going w' ∧ w.fillsTo w' ∧ w'.c.bitPos = w.c.bitPos ∧
      w.writesRows w' fun q => r ≤ q ∧ q < r + ys.length ∧ q < w.c.R.toNat) ∨
    (∃ k row w', r ≤ row ∧ row < w.c.R.toNat ∧ w'.lutRead k = none ∧ w.fillsTo w' ∧
      writeSymbols code r ys w = .raised (.lutWindow (BitVec.ofInt 17 k) code w.c.nextBand row) w') := by
  induction ys generalizing r w with
  | nil => exact .inl ⟨w, rfl, rfl, rfl, Work.writesRows_none rfl fun q h => by simp at h; omega⟩
  | cons y ys ih =>
    by_cases hr : r < w.c.R.toNat
    · rcases writeSymbol_cases code r y w with ⟨k, -, hk, h⟩ | ⟨v, n, hv, h⟩
      · exact .inr ⟨k, r, w, Nat.le_refl _, hr, hk, rfl, by simp [writeSymbols, hr, h]⟩
      · have hone := w.writesRows_one n r hv
        rcases ih (r + 1) (({ w with draws := n } : Work).bufWrite (w.cell r) v) with
          ⟨w', h1, h2, h3, h4⟩ | ⟨k, row, w', h1, h2, h3, h4, h5⟩
        · refine .inl ⟨w', by simp [writeSymbols, hr, h, h1], Work.fillsTo_trans (w.fillsTo_drawWrite n _ v) h2, h3, ?_⟩
          refine Work.writesRows_trans (w.fillsTo_drawWrite n _ v) hone h4 fun q => ?_
          simp only [Work.bufWrite_c_R, List.length_cons]
          omega
        · exact .inr ⟨k, row, w', by omega, h2, h3, Work.fillsTo_trans (w.fillsTo_drawWrite n _ v) h4, by
            simpa [writeSymbols, hr, h] using h5⟩
    · refine .inl ⟨w, by simp [writeSymbols, hr], rfl, rfl, Work.writesRows_none rfl fun q h => by omega⟩

/-- What is asked of a scheme's group: it takes bits and touches nothing else, and its symbols are one row or more. -/
def groupTakes (group : Work → Group) : Prop :=
  ∀ w, (∃ ys n, group w = .symbols ys (w.skip n) ∧ 1 ≤ ys.length) ∨ ∃ v n, group w = .noCombination v (w.skip n)

/-- Everything a band rule can do (R154): on success the rows from `r` on are written; else F_LUT_WINDOW or
F_PACKED_COMBO was raised on the way. `turns` is enough when it reaches the last row. -/
theorem bandRows_spec (code : BitVec 5) {group : Work → Group} (hg : groupTakes group) (turns r : Nat) (w : Work)
    (ht : w.c.R.toNat ≤ r + turns) :
    (∃ w', bandRows code group turns r w = .going w' ∧ w.fillsTo w' ∧
      w.writesRows w' fun q => r ≤ q ∧ q < w.c.R.toNat) ∨
    (∃ f w', bandRows code group turns r w = .raised f w' ∧ w.fillsTo w' ∧
      ((∃ k row, row < w.c.R.toNat ∧ w'.lutRead k = none ∧
          f = .lutWindow (BitVec.ofInt 17 k) code w.c.nextBand row) ∨ ∃ v, f = .packedCombo code v)) := by
  induction turns generalizing r w with
  | zero => exact .inl ⟨w, rfl, rfl, Work.writesRows_none rfl fun q h => by omega⟩
  | succ n ih =>
    by_cases hr : r < w.c.R.toNat
    · rcases hg w with ⟨ys, m, h, hy⟩ | ⟨v, m, h⟩
      · rcases writeSymbols_spec code ys r (w.skip m) with ⟨w', h1, h2, -, h4⟩ | ⟨k, row, w', -, h2, h3, h4, h5⟩
        · have hf : w.fillsTo w' := Work.fillsTo_trans (w.fillsTo_skip m) h2
          have hR : w'.c.R = w.c.R := Work.fillsTo_rows hf
          have hw : w.writesRows w' fun q => r ≤ q ∧ q < r + ys.length ∧ q < w.c.R.toNat := h4
          have hn : w'.c.nextBand = w.c.nextBand := by rw [hf]
          have e : bandRows code group (n + 1) r w = bandRows code group n (r + ys.length) w' := by
            simp [bandRows, hr, h, h1]
          rw [e]
          rcases ih (r + ys.length) w' (by rw [hR]; omega) with ⟨u, u1, u2, u3⟩ | ⟨f, u, u1, u2, u3⟩
          · refine .inl ⟨u, u1, Work.fillsTo_trans hf u2, Work.writesRows_trans hf hw u3 fun q => ?_⟩
            rw [hR]
            omega
          · exact .inr ⟨f, u, u1, Work.fillsTo_trans hf u2, by simpa only [hR, hn] using u3⟩
        · exact .inr ⟨_, w', by simp [bandRows, hr, h, h5], Work.fillsTo_trans (w.fillsTo_skip m) h4,
            .inl ⟨k, row, h2, h3, rfl⟩⟩
      · exact .inr ⟨_, w.skip m, by simp [bandRows, hr, h], w.fillsTo_skip m, .inr ⟨v, rfl⟩⟩
    · exact .inl ⟨w, by simp [bandRows, hr], rfl, Work.writesRows_none rfl fun q h => by omega⟩

/-! ### Every scheme's group only takes bits -/

theorem groupZero_takes : groupTakes groupZero := fun _ => .inl ⟨[.zero], 0, rfl, Nat.le_refl _⟩

theorem groupDirect_takes (n : Nat) : groupTakes (groupDirect n) := fun _ => .inl ⟨_, n, rfl, Nat.le_refl _⟩

theorem mapped_takes (n : Nat) (map : Nat → Int) : groupTakes (mapped n map) := fun _ => .inl ⟨_, n, rfl, Nat.le_refl _⟩

theorem oneZero_takes : groupTakes oneZero := fun _ => .inl ⟨_, 0, rfl, Nat.le_refl _⟩

theorem twoZeros_takes : groupTakes twoZeros := fun _ => .inl ⟨_, 0, rfl, by decide⟩

theorem onBit_takes {a b : Work → Group} (ha : groupTakes a) (hb : groupTakes b) : groupTakes (onBit a b) := by
  intro w
  have key : ∀ g : Work → Group, groupTakes g →
      (∃ ys n, g (w.skip 1) = .symbols ys (w.skip n) ∧ 1 ≤ ys.length) ∨
        ∃ v n, g (w.skip 1) = .noCombination v (w.skip n) := by
    intro g hg
    rcases hg (w.skip 1) with ⟨ys, n, h, hy⟩ | ⟨v, n, h⟩
    · exact .inl ⟨ys, 1 + n, by rw [h, Work.skip_skip], hy⟩
    · exact .inr ⟨v, 1 + n, by rw [h, Work.skip_skip]⟩
  by_cases h : w.peek 1 = 0
  · simpa [onBit, h] using key a ha
  · simpa [onBit, h] using key b hb

@[simp] theorem digits_length (b n v : Nat) : (digits b n v).length = n := by
  induction n generalizing v with
  | zero => rfl
  | succ n ih => simp [digits, ih]

theorem groupRadix_takes (bits b n : Nat) (hn : 1 ≤ n) : groupTakes (groupRadix bits b n) := by
  intro w
  by_cases h : w.peek bits < b ^ n
  · exact .inl ⟨(digits b n (w.peek bits)).map fun d : Nat => Symbol.deq ((d : Int) - (((b - 1) / 2 : Nat) : Int)), bits,
      by simp only [groupRadix, Work.take_value, Work.take_rest, h, if_true], by simpa using hn⟩
  · exact .inr ⟨w.peek bits, bits, by simp only [groupRadix, Work.take_value, Work.take_rest, h, if_false]⟩

theorem groupK13_takes : groupTakes groupK13 := onBit_takes twoZeros_takes (onBit_takes oneZero_takes (mapped_takes _ _))
theorem groupK12_takes : groupTakes groupK12 := onBit_takes oneZero_takes (mapped_takes _ _)
theorem groupK24_takes : groupTakes groupK24 := onBit_takes twoZeros_takes (onBit_takes oneZero_takes (mapped_takes _ _))
theorem groupK23_takes : groupTakes groupK23 := onBit_takes oneZero_takes (mapped_takes _ _)
theorem groupK35_takes : groupTakes groupK35 :=
  onBit_takes twoZeros_takes (onBit_takes oneZero_takes (onBit_takes (mapped_takes _ _) (mapped_takes _ _)))
theorem groupK34_takes : groupTakes groupK34 := onBit_takes oneZero_takes (onBit_takes (mapped_takes _ _) (mapped_takes _ _))
theorem groupK45_takes : groupTakes groupK45 := onBit_takes twoZeros_takes (onBit_takes oneZero_takes (mapped_takes _ _))
theorem groupK44_takes : groupTakes groupK44 := onBit_takes oneZero_takes (mapped_takes _ _)
theorem groupT15_takes : groupTakes groupT15 := groupRadix_takes _ _ _ (by decide)
theorem groupT27_takes : groupTakes groupT27 := groupRadix_takes _ _ _ (by decide)
theorem groupT37_takes : groupTakes groupT37 := groupRadix_takes _ _ _ (by decide)

/-- Everything a band's run can do (R150): success, with the column written and `next_band` moved on, or a fault
taken. -/
theorem runBand_cases (code : BitVec 5) {group : Work → Group} (hg : groupTakes group) (w : Work) :
    (∃ w', w.fillsTo w' ∧ (w.writesRows w' fun q => q < w.c.R.toNat) ∧
      runBand code group w = ({ w' with c := { w'.c with nextBand := w.c.nextBand + 1 } }, .okay)) ∨
    (∃ f w', w.fillsTo w' ∧ f.code ≠ 2 ∧ runBand code group w = w'.takeFault f) := by
  rcases bandRows_spec code hg w.c.R.toNat 0 w (by omega) with ⟨w', h1, h2, h3⟩ | ⟨f, w', h1, h2, h3⟩
  · exact .inl ⟨w', h2, by simpa using h3, by simp [runBand, h1]⟩
  · refine .inr ⟨f, w', h2, ?_, by simp [runBand, h1]⟩
    rcases h3 with ⟨k, row, -, -, rfl⟩ | ⟨v, rfl⟩ <;> simp [FaultRecord.code]

/-- The four ways a format code's rule can end (R100, R150): success with the column written, a fault of a
band taken (never F_DOUBLE_CLOSE), a refusal taken, or FAIL_BAND. -/
def bandOutcome (w : Work) (out : Work × Response) : Prop :=
  (∃ w', w.fillsTo w' ∧ (w.writesRows w' fun q => q < w.c.R.toNat) ∧
    out = ({ w' with c := { w'.c with nextBand := w.c.nextBand + 1 } }, .okay)) ∨
  (∃ f w', w.fillsTo w' ∧ f.code ≠ 2 ∧ out = w'.takeFault f) ∨ out = w.takeRefusal ∨ out = failBand w

theorem runBand_outcome (code : BitVec 5) {group : Work → Group} (hg : groupTakes group) (w : Work) :
    bandOutcome w (runBand code group w) := by
  rcases runBand_cases code hg w with h | h
  · exact .inl h
  · exact .inr (.inl h)

theorem runPacked_outcome (code : BitVec 5) {group : Work → Group} (hg : groupTakes group) (w : Work) :
    bandOutcome w (runPacked code group w) := by
  cases hp : w.cfg.packed with
  | none => exact .inr (.inr (.inl (by rw [runPacked, hp])))
  | gk =>
    rw [runPacked, hp]
    exact runBand_outcome code hg w

theorem failBand_outcome (w : Work) : bandOutcome w (failBand w) := .inr (.inr (.inr rfl))

theorem bandZ_outcome (w : Work) : bandOutcome w (bandZ w) := runBand_outcome _ groupZero_takes w
theorem bandR1_outcome (w : Work) : bandOutcome w (bandR1 w) := failBand_outcome w
theorem bandR2_outcome (w : Work) : bandOutcome w (bandR2 w) := failBand_outcome w
theorem bandD3_outcome (w : Work) : bandOutcome w (bandD3 w) := runBand_outcome _ (groupDirect_takes _) w
theorem bandD4_outcome (w : Work) : bandOutcome w (bandD4 w) := runBand_outcome _ (groupDirect_takes _) w
theorem bandD5_outcome (w : Work) : bandOutcome w (bandD5 w) := runBand_outcome _ (groupDirect_takes _) w
theorem bandD6_outcome (w : Work) : bandOutcome w (bandD6 w) := runBand_outcome _ (groupDirect_takes _) w
theorem bandD7_outcome (w : Work) : bandOutcome w (bandD7 w) := runBand_outcome _ (groupDirect_takes _) w
theorem bandD8_outcome (w : Work) : bandOutcome w (bandD8 w) := runBand_outcome _ (groupDirect_takes _) w
theorem bandD9_outcome (w : Work) : bandOutcome w (bandD9 w) := runBand_outcome _ (groupDirect_takes _) w
theorem bandD10_outcome (w : Work) : bandOutcome w (bandD10 w) := runBand_outcome _ (groupDirect_takes _) w
theorem bandD11_outcome (w : Work) : bandOutcome w (bandD11 w) := runBand_outcome _ (groupDirect_takes _) w
theorem bandD12_outcome (w : Work) : bandOutcome w (bandD12 w) := runBand_outcome _ (groupDirect_takes _) w
theorem bandD13_outcome (w : Work) : bandOutcome w (bandD13 w) := runBand_outcome _ (groupDirect_takes _) w
theorem bandD14_outcome (w : Work) : bandOutcome w (bandD14 w) := runBand_outcome _ (groupDirect_takes _) w
theorem bandD15_outcome (w : Work) : bandOutcome w (bandD15 w) := runBand_outcome _ (groupDirect_takes _) w
theorem bandD16_outcome (w : Work) : bandOutcome w (bandD16 w) := runBand_outcome _ (groupDirect_takes _) w
theorem bandP17_outcome (w : Work) : bandOutcome w (bandP17 w) := runPacked_outcome _ groupK13_takes w
theorem bandP18_outcome (w : Work) : bandOutcome w (bandP18 w) := runPacked_outcome _ groupK12_takes w
theorem bandP19_outcome (w : Work) : bandOutcome w (bandP19 w) := runPacked_outcome _ groupT15_takes w
theorem bandP20_outcome (w : Work) : bandOutcome w (bandP20 w) := runPacked_outcome _ groupK24_takes w
theorem bandP21_outcome (w : Work) : bandOutcome w (bandP21 w) := runPacked_outcome _ groupK23_takes w
theorem bandP22_outcome (w : Work) : bandOutcome w (bandP22 w) := runPacked_outcome _ groupT27_takes w
theorem bandP23_outcome (w : Work) : bandOutcome w (bandP23 w) := runPacked_outcome _ groupK35_takes w
theorem bandP24_outcome (w : Work) : bandOutcome w (bandP24 w) := runPacked_outcome _ groupK34_takes w
theorem bandR25_outcome (w : Work) : bandOutcome w (bandR25 w) := failBand_outcome w
theorem bandP26_outcome (w : Work) : bandOutcome w (bandP26 w) := runPacked_outcome _ groupK45_takes w
theorem bandP27_outcome (w : Work) : bandOutcome w (bandP27 w) := runPacked_outcome _ groupK44_takes w
theorem bandR28_outcome (w : Work) : bandOutcome w (bandR28 w) := failBand_outcome w
theorem bandP29_outcome (w : Work) : bandOutcome w (bandP29 w) := runPacked_outcome _ groupT37_takes w
theorem bandR30_outcome (w : Work) : bandOutcome w (bandR30 w) := failBand_outcome w
theorem bandR31_outcome (w : Work) : bandOutcome w (bandR31 w) := failBand_outcome w

/-- Everything BAND's dispatch can do, whatever the format code (R100, R150). -/
theorem bandDispatch_outcome (code : BitVec 5) (w : Work) : bandOutcome w (bandDispatch code w) := by
  unfold bandDispatch
  split
  exacts [bandZ_outcome w, bandR1_outcome w, bandR2_outcome w, bandD3_outcome w,
    bandD4_outcome w, bandD5_outcome w, bandD6_outcome w, bandD7_outcome w,
    bandD8_outcome w, bandD9_outcome w, bandD10_outcome w, bandD11_outcome w,
    bandD12_outcome w, bandD13_outcome w, bandD14_outcome w, bandD15_outcome w,
    bandD16_outcome w, bandP17_outcome w, bandP18_outcome w, bandP19_outcome w,
    bandP20_outcome w, bandP21_outcome w, bandP22_outcome w, bandP23_outcome w,
    bandP24_outcome w, bandR25_outcome w, bandP26_outcome w, bandP27_outcome w,
    bandR28_outcome w, bandP29_outcome w, bandR30_outcome w, bandR31_outcome w]

end Sys2Proof.Machine
end

