-- ==== Sys2Proof/Laws/Encode.lean ====
section
/-! SUPPORT. The fields of the command words the encoder writes (R92, R93). -/

namespace Sys2Proof

theorem extract_append_low {v w : Nat} (hi : BitVec v) (lo : BitVec w) : (hi ++ lo).extractLsb' 0 w = lo :=
  BitVec.extractLsb'_append_eq_right

theorem extract_append_high {v w : Nat} (hi : BitVec v) (lo : BitVec w) (k n : Nat) :
    (hi ++ lo).extractLsb' (w + k) n = hi.extractLsb' k n := by
  rw [BitVec.extractLsb'_append_eq_of_le (by omega), Nat.add_sub_cancel_left]

/-- SCALE's word carries opcode 1, `e` at [7:4], `s` at [23:8], and zeros at [31:24]. -/
theorem scaleWord_fields (e : BitVec 4) (s : BitVec 16) :
    opcodeOf (0#8 ++ s ++ e ++ 1#4 : Word) = 1#4 ∧ (0#8 ++ s ++ e ++ 1#4 : Word).extractLsb' 4 4 = e ∧
      (0#8 ++ s ++ e ++ 1#4 : Word).extractLsb' 8 16 = s ∧ (0#8 ++ s ++ e ++ 1#4 : Word).extractLsb' 24 8 = 0 := by
  refine ⟨extract_append_low _ _, ?_, ?_, ?_⟩
  · exact (extract_append_high (0#8 ++ s ++ e) 1#4 0 4).trans (extract_append_low (0#8 ++ s) e)
  · exact (extract_append_high (0#8 ++ s ++ e) 1#4 4 16).trans
      ((extract_append_high (0#8 ++ s) e 0 16).trans (extract_append_low 0#8 s))
  · exact (extract_append_high (0#8 ++ s ++ e) 1#4 20 8).trans
      ((extract_append_high (0#8 ++ s) e 16 8).trans ((extract_append_high 0#8 s 0 8).trans (by decide)))

/-- LOOKUP's word carries opcode 2, the index at [20:4], and zeros at [31:21]. -/
theorem lookupWord_fields (idx : BitVec 17) :
    opcodeOf (0#11 ++ idx ++ 2#4 : Word) = 2#4 ∧ (0#11 ++ idx ++ 2#4 : Word).extractLsb' 4 17 = idx ∧
      (0#11 ++ idx ++ 2#4 : Word).extractLsb' 21 11 = 0 := by
  refine ⟨extract_append_low _ _, ?_, ?_⟩
  · exact (extract_append_high (0#11 ++ idx) 2#4 0 17).trans (extract_append_low 0#11 idx)
  · exact (extract_append_high (0#11 ++ idx) 2#4 17 11).trans
      ((extract_append_high 0#11 idx 0 11).trans (by decide))

/-- BAND's word carries opcode 3, the format code at [8:4], and zeros at [31:9]. -/
theorem bandWord_fields (code : BitVec 5) :
    opcodeOf (bandWord code) = 3#4 ∧ (bandWord code).extractLsb' 4 5 = code ∧ (bandWord code).extractLsb' 9 23 = 0 := by
  refine ⟨extract_append_low _ _, ?_, ?_⟩
  · exact (extract_append_high (0#23 ++ code) 3#4 0 5).trans (extract_append_low 0#23 code)
  · exact (extract_append_high (0#23 ++ code) 3#4 5 23).trans
      ((extract_append_high 0#23 code 0 23).trans (by decide))

/-- OPEN's word 0 carries opcode 7, L at [7:4], R at [19:8], and zeros at [31:20]. -/
theorem openWord_fields (L : BitVec 4) (R : BitVec 12) :
    opcodeOf (0#12 ++ R ++ L ++ 7#4 : Word) = 7#4 ∧ (0#12 ++ R ++ L ++ 7#4 : Word).extractLsb' 4 4 = L ∧
      (0#12 ++ R ++ L ++ 7#4 : Word).extractLsb' 8 12 = R ∧ (0#12 ++ R ++ L ++ 7#4 : Word).extractLsb' 20 12 = 0 := by
  refine ⟨extract_append_low _ _, ?_, ?_, ?_⟩
  · exact (extract_append_high (0#12 ++ R ++ L) 7#4 0 4).trans (extract_append_low (0#12 ++ R) L)
  · exact (extract_append_high (0#12 ++ R ++ L) 7#4 4 12).trans
      ((extract_append_high (0#12 ++ R) L 0 12).trans (extract_append_low 0#12 R))
  · exact (extract_append_high (0#12 ++ R ++ L) 7#4 16 12).trans
      ((extract_append_high (0#12 ++ R) L 12 12).trans ((extract_append_high 0#12 R 0 12).trans (by decide)))

end Sys2Proof
end

