-- ==== Sys2Proof/Laws/PerInstr.lean ====
section
/-! SUPPORT. The family of laws stated for each instruction: the form of its encoding (R92, R95). -/

namespace Sys2Proof.Laws.EncodedForm

open Sys2Proof

/-- An instruction is encoded in as many words as R95 gives it, and word 0 has opcode 0x7 exactly when there is a
second word. -/
def Statement (i : Instr) : Prop :=
  ∃ w rest, encode i = w :: rest ∧ rest.length + 1 = i.words ∧ (opcodeOf w = 7#4 ↔ i.words = 2)

/-- A one-word encoding whose opcode is not 0x7. -/
theorem oneWord {i : Instr} {w : Word} (h : encode i = [w]) (hw : i.words = 1) (ho : opcodeOf w ≠ 7#4) : Statement i :=
  ⟨w, [], h, by rw [hw]; rfl, by rw [hw]; exact ⟨fun e => absurd e ho, fun e => absurd e (by decide)⟩⟩

theorem band {i : Instr} {code : BitVec 5} (h : encode i = [bandWord code]) (hw : i.words = 1) : Statement i :=
  oneWord h hw (by rw [(bandWord_fields code).1]; decide)

theorem scale (e : BitVec 4) (s : BitVec 16) : Statement (.scale e s) :=
  oneWord rfl rfl (by rw [(scaleWord_fields e s).1]; decide)
theorem lookup (idx : BitVec 17) : Statement (.lookup idx) :=
  oneWord rfl rfl (by rw [(lookupWord_fields idx).1]; decide)
theorem bandZ : Statement .bandZ := band rfl rfl
theorem bandR1 : Statement .bandR1 := band rfl rfl
theorem bandR2 : Statement .bandR2 := band rfl rfl
theorem bandD3 : Statement .bandD3 := band rfl rfl
theorem bandD4 : Statement .bandD4 := band rfl rfl
theorem bandD5 : Statement .bandD5 := band rfl rfl
theorem bandD6 : Statement .bandD6 := band rfl rfl
theorem bandD7 : Statement .bandD7 := band rfl rfl
theorem bandD8 : Statement .bandD8 := band rfl rfl
theorem bandD9 : Statement .bandD9 := band rfl rfl
theorem bandD10 : Statement .bandD10 := band rfl rfl
theorem bandD11 : Statement .bandD11 := band rfl rfl
theorem bandD12 : Statement .bandD12 := band rfl rfl
theorem bandD13 : Statement .bandD13 := band rfl rfl
theorem bandD14 : Statement .bandD14 := band rfl rfl
theorem bandD15 : Statement .bandD15 := band rfl rfl
theorem bandD16 : Statement .bandD16 := band rfl rfl
theorem bandP17 : Statement .bandP17 := band rfl rfl
theorem bandP18 : Statement .bandP18 := band rfl rfl
theorem bandP19 : Statement .bandP19 := band rfl rfl
theorem bandP20 : Statement .bandP20 := band rfl rfl
theorem bandP21 : Statement .bandP21 := band rfl rfl
theorem bandP22 : Statement .bandP22 := band rfl rfl
theorem bandP23 : Statement .bandP23 := band rfl rfl
theorem bandP24 : Statement .bandP24 := band rfl rfl
theorem bandR25 : Statement .bandR25 := band rfl rfl
theorem bandP26 : Statement .bandP26 := band rfl rfl
theorem bandP27 : Statement .bandP27 := band rfl rfl
theorem bandR28 : Statement .bandR28 := band rfl rfl
theorem bandP29 : Statement .bandP29 := band rfl rfl
theorem bandR30 : Statement .bandR30 := band rfl rfl
theorem bandR31 : Statement .bandR31 := band rfl rfl
theorem untransform : Statement .untransform := oneWord rfl rfl (by decide)
theorem pop : Statement .pop := oneWord rfl rfl (by decide)
theorem fill : Statement .fill := oneWord rfl rfl (by decide)
theorem openCtx (L : BitVec 4) (R : BitVec 12) (total : BitVec 32) : Statement (.openCtx L R total) :=
  ⟨_, _, rfl, rfl, ⟨fun _ => rfl, fun _ => (openWord_fields L R).1⟩⟩
theorem closeCtx : Statement .closeCtx := oneWord rfl rfl (by decide)

end Sys2Proof.Laws.EncodedForm
end

