-- ==== Sys2Proof/Laws/Scale.lean ====
section
/-! SUPPORT. What a LUT build does to the cells (R130, R131), and the two counts of OPEN and CLOSE (R260, R262). -/

namespace Sys2Proof.Machine

open Sys2Proof

theorem pow_le_32768 (e : BitVec 4) : 2 ^ e.toNat ≤ 32768 :=
  Nat.pow_le_pow_right (by decide) (show e.toNat ≤ 15 by have := e.isLt; omega)

theorem lutCell_lower (e : BitVec 4) : lutCell (-((2 ^ e.toNat : Nat) : Int)) = 65536 - 2 ^ e.toNat := by
  have := pow_le_32768 e
  unfold lutCell
  omega

/-- A cell after a build: the built value inside W(e), the old contents outside (R130). -/
theorem LutUnit.get?_build (u : LutUnit) (e : BitVec 4) (x : BitVec 16) (i : Nat) :
    Cells.get? (u.build e x).cells i =
      if 65536 - 2 ^ e.toNat ≤ i ∧ i < 65536 + 2 ^ e.toNat then some (scaleValue x i) else Cells.get? u.cells i := by
  have h := pow_le_32768 e
  simp only [LutUnit.build, Cells.get?_fill, lutCell_lower]
  congr 1
  simp only [eq_iff_iff]
  omega

theorem LutUnit.build_wf {u : LutUnit} (h : Cells.WF u.cells) (e : BitVec 4) (x : BitVec 16) :
    Cells.WF (u.build e x).cells := Cells.fill_wf h _ _ _

/-- Which words a build may list: those of the window, and what was listed before. -/
theorem LutUnit.mem_build {u : LutUnit} {e : BitVec 4} {x : BitVec 16} {p : Nat × Half} (h : p ∈ (u.build e x).cells) :
    p.1 < 65536 + 2 ^ e.toNat ∨ p ∈ u.cells := by
  rcases Cells.mem_fill h with ⟨-, h2⟩ | h
  · rw [lutCell_lower] at h2
    have := pow_le_32768 e
    exact .inl (by omega)
  · exact .inr h

theorem LutUnit.acquire_openCount (u : LutUnit) : u.acquire.openCount = u.openCount + 1 := by
  unfold LutUnit.acquire
  split <;> simp_all

theorem LutUnit.release_openCount (u : LutUnit) : u.release.openCount = u.openCount - 1 := by
  unfold LutUnit.release
  split <;> simp_all

theorem LutUnit.acquire_fresh {u : LutUnit} (h : u.openCount = 0) :
    u.acquire = { present := true, openCount := 1, cells := [], e := none } := by
  simp [LutUnit.acquire, h]

theorem LutUnit.acquire_shared {u : LutUnit} (h : u.openCount ≠ 0) :
    u.acquire = { u with openCount := u.openCount + 1 } := by
  simp [LutUnit.acquire, h]

theorem LutUnit.release_last {u : LutUnit} (h : u.openCount = 1) :
    u.release = { present := false, openCount := 0, cells := [], e := none } := by
  simp [LutUnit.release, h]

theorem LutUnit.release_shared {u : LutUnit} (h : 2 ≤ u.openCount) :
    u.release = { u with openCount := u.openCount - 1 } := by
  simp [LutUnit.release, show u.openCount - 1 ≠ 0 by omega]

/-- Everything SCALE can do (R130). -/
theorem scaleCommand_cases (e : BitVec 4) (x : BitVec 16) (w : Work) :
    (w.mayStartBlock = true ∧ scaleCommand e x w = (scaleBuild e x w, .okay)) ∨
    (w.mayStartBlock = false ∧ scaleCommand e x w = (w, .bare .errState)) := by
  cases h : w.mayStartBlock
  · exact .inr ⟨rfl, by simp [scaleCommand, h]⟩
  · exact .inl ⟨rfl, by simp [scaleCommand, h]⟩

theorem Work.mayStartBlock_iff (w : Work) :
    w.mayStartBlock = true ↔ (w.c.phase = .idle ∧ w.c.outPos = w.c.outCount) ∨ w.c.phase = .failed := by
  cases h : w.c.phase <;> simp [Work.mayStartBlock, Work.drained, h]

end Sys2Proof.Machine
end

