-- ==== Sys2Proof/Laws/Transform.lean ====
section
/-! SUPPORT. Where the transform writes (R207): every stage of a chunk writes BUF words of that chunk and PREV words of
its own region. A property of the two memories that such writes keep, the whole transform keeps. -/

namespace Sys2Proof.Machine

open Sys2Proof

/-! ### Reads after writes -/

theorem Banks.readBuf_writeBuf (b : Banks) (i j : Nat) (v : Word) :
    (b.writeBuf i v).readBuf j = if j = i then v else b.readBuf j := by
  simp only [Banks.readBuf, bufRead, Banks.writeBuf_buf, Cells.get?_put]
  split <;> simp

theorem Banks.readPrev_writePrev (b : Banks) (i j : Nat) (v : Word) :
    (b.writePrev i v).readPrev j = if j = i then v else b.readPrev j := prevRead_prevWrite _ _ _ _

@[simp] theorem Banks.readBuf_writePrev (b : Banks) (i j : Nat) (v : Word) :
    (b.writePrev i v).readBuf j = b.readBuf j := rfl

@[simp] theorem Banks.readPrev_writeBuf (b : Banks) (i j : Nat) (v : Word) :
    (b.writeBuf i v).readPrev j = b.readPrev j := rfl

/-- Every word after a lifting pair on two different words (R201). -/
theorem liftPair_readBuf {p q : Nat} (h : p ≠ q) (k : Column) (i : Nat) :
    (liftPair p q k).banks.readBuf i =
      if i = p then liftFirst (k.banks.readBuf p) k.r0 k.r1
      else if i = q then liftSecond (k.banks.readBuf p) (k.banks.readBuf q) k.r1
      else k.banks.readBuf i := by
  simp only [liftPair, Banks.readBuf_writeBuf]
  by_cases h1 : i = p
  · subst h1
    simp [h]
  · simp [h1]

/-! ### What writes inside the index ranges keep -/

/-- `P` is kept by writes of the BUF words in [lo, hi) and of the PREV words below `n`. -/
def Banks.keptBy (P : Banks → Prop) (lo hi n : Nat) : Prop :=
  (∀ b i v, lo ≤ i → i < hi → P b → P (b.writeBuf i v)) ∧ ∀ b j v, j < n → P b → P (b.writePrev j v)

theorem Banks.keptBy_mono {P : Banks → Prop} {lo hi lo' hi' n : Nat} (h : Banks.keptBy P lo hi n) (hl : lo ≤ lo')
    (hh : hi' ≤ hi) : Banks.keptBy P lo' hi' n :=
  ⟨fun b i v h1 h2 => h.1 b i v (by omega) (by omega), h.2⟩

theorem liftColumn_keeps {P : Banks → Prop} {base C N n c : Nat} (h : Banks.keptBy P base (base + N * C) n) (hc : c < C)
    {k : Column} (hk : P k.banks) : P (liftColumn base C N c k).banks := by
  refine forRange_keeps (fun k : Column => P k.banks) _ _ _ hk fun j hj b hb => ?_
  have h2 : 2 * j * C + 2 * C ≤ N * C := by
    have := Nat.mul_le_mul_right C (show 2 * j + 2 ≤ N by omega)
    linarith
  exact h.1 _ _ _ (by omega) (by omega) (h.1 _ _ _ (by omega) (by omega) hb)

/-- The words of a state region for `C` columns lie below `n`. -/
def StateRegion.below (st : StateRegion) (C n : Nat) : Prop :=
  ∀ c < C, if st.packed then st.start + c < n else st.start + 2 * c + 1 < n

theorem StateRegion.put_keeps {P : Banks → Prop} {lo hi n C c : Nat} {st : StateRegion} (h : Banks.keptBy P lo hi n)
    (hs : st.below C n) (hc : c < C) {b : Banks} (hb : P b) (r0 r1 : Word) : P (st.put b c r0 r1) := by
  have hs := hs c hc
  unfold StateRegion.put
  split at hs <;> rename_i hp
  · simp only [hp, if_true]
    exact h.2 _ _ _ hs hb
  · simp only [hp]
    exact h.2 _ _ _ hs (h.2 _ _ _ (by omega) hb)

theorem lift_keeps {P : Banks → Prop} {base C N n : Nat} {st : StateRegion} (h : Banks.keptBy P base (base + N * C) n)
    (hs : st.below C n) {b : Banks} (hb : P b) : P (lift base C N st b) :=
  forRange_keeps P _ _ _ hb fun _ hc _ hb => StateRegion.put_keeps h hs hc (liftColumn_keeps h hc hb) _ _

/-! ### The stages of one context, S = 2^L -/

theorem half_pow {L i : Nat} (h : i + 1 ≤ L) : 2 ^ L / 2 ^ (i + 1) * 2 ^ (i + 1) = 2 ^ L :=
  Nat.div_mul_cancel (Nat.pow_dvd_pow 2 h)

theorem stageZeroRegion_below {L : Nat} (h : 1 ≤ L) : stageZeroRegion.below (2 ^ L / 2) (3 * 2 ^ L / 2 - 2) := by
  intro c hc
  obtain ⟨m, rfl⟩ : ∃ m, L = m + 1 := ⟨L - 1, by omega⟩
  simp only [stageZeroRegion, if_true, Nat.pow_succ] at *
  have : 0 < 2 ^ m := Nat.pos_of_ne_zero (by simp)
  omega

theorem stageRegion_below {L i : Nat} (h0 : 1 ≤ i) (h : i + 1 ≤ L) :
    (stageRegion (2 ^ L) i).below (2 ^ L / 2 ^ (i + 1)) (3 * 2 ^ L / 2 - 2) := by
  intro c hc
  obtain ⟨m, rfl⟩ : ∃ m, L = m + (i + 1) := ⟨L - (i + 1), by omega⟩
  obtain ⟨k, rfl⟩ : ∃ k, i = k + 1 := ⟨i - 1, by omega⟩
  have e1 : 2 ^ (m + (k + 1 + 1)) / 2 ^ (k + 1 + 1) = 2 ^ m := by
    rw [Nat.pow_add, Nat.mul_div_cancel _ (Nat.pos_of_ne_zero (by simp))]
  have e2 : 2 ^ (m + (k + 1 + 1)) / 2 ^ (k + 1 - 1) = 4 * 2 ^ m := by
    rw [show m + (k + 1 + 1) = (m + 2) + k by omega, Nat.pow_add, Nat.add_sub_cancel,
      Nat.mul_div_cancel _ (Nat.pos_of_ne_zero (by simp)), Nat.pow_add]
    omega
  have e3 : 2 ^ (m + (k + 1 + 1)) = 4 * 2 ^ m * 2 ^ k := by
    rw [show m + (k + 1 + 1) = m + 2 + k by omega, Nat.pow_add, Nat.pow_add]
    ring
  have hm : 0 < 2 ^ m := Nat.pos_of_ne_zero (by simp)
  have hk : 0 < 2 ^ k := Nat.pos_of_ne_zero (by simp)
  have hle : 4 * 2 ^ m ≤ 4 * 2 ^ m * 2 ^ k := Nat.le_mul_of_pos_right _ hk
  simp only [stageRegion, e1, e2] at *
  rw [e3] at *
  simp only [Bool.false_eq_true, if_false]
  omega

theorem stageZero_keeps {P : Banks → Prop} {L base Rc : Nat} (hL : 1 ≤ L) (noop : Bool)
    (h : Banks.keptBy P base (base + Rc * 2 ^ L) (3 * 2 ^ L / 2 - 2)) {b : Banks} (hb : P b) :
    P (stageZero noop (2 ^ L) base Rc b) := by
  have e := half_pow (L := L) (i := 0) (by omega)
  unfold stageZero
  split
  · exact hb
  · refine lift_keeps (n := 3 * 2 ^ L / 2 - 2) ?_ (stageZeroRegion_below hL) hb
    have : 2 * Rc * (2 ^ L / 2) = Rc * 2 ^ L := by
      rw [← e]
      simp only [Nat.zero_add, Nat.pow_one] at *
      rw [e]
      calc 2 * Rc * (2 ^ L / 2) = Rc * (2 ^ L / 2 * 2) := by ring
        _ = Rc * 2 ^ L := by rw [e]
    rwa [this]

theorem bias_keeps {P : Banks → Prop} {L base Rc n : Nat} (hL : 1 ≤ L)
    (h : Banks.keptBy P base (base + Rc * 2 ^ L) n) {b : Banks} (hb : P b) : P (bias (2 ^ L) base Rc b) := by
  obtain ⟨m, rfl⟩ : ∃ m, L = m + 1 := ⟨L - 1, by omega⟩
  refine forRange_keeps P _ _ _ hb fun k hk b hb => h.1 _ _ _ (by omega) ?_ hb
  have e : 2 ^ (m + 1) / 2 = 2 ^ m := by rw [Nat.pow_succ]; omega
  have hm : 0 < 2 ^ m := Nat.pos_of_ne_zero (by simp)
  rw [e, Nat.pow_succ]
  have := Nat.mul_lt_mul_of_pos_right hk hm
  nlinarith

theorem stage_keeps {P : Banks → Prop} {L base Rc i : Nat} (h0 : 1 ≤ i) (hi : i + 1 ≤ L)
    (h : Banks.keptBy P base (base + Rc * 2 ^ L) (3 * 2 ^ L / 2 - 2)) {b : Banks} (hb : P b) :
    P (stage (2 ^ L) base Rc i b) := by
  refine lift_keeps (n := 3 * 2 ^ L / 2 - 2) ?_ (stageRegion_below h0 hi) hb
  have : 2 ^ (i + 1) * Rc * (2 ^ L / 2 ^ (i + 1)) = Rc * 2 ^ L := by
    calc 2 ^ (i + 1) * Rc * (2 ^ L / 2 ^ (i + 1)) = Rc * (2 ^ L / 2 ^ (i + 1) * 2 ^ (i + 1)) := by ring
      _ = Rc * 2 ^ L := by rw [half_pow hi]
  rwa [this]

/-- A chunk writes only its own BUF words and PREV words below PREV_WORDS (R207). -/
theorem transformChunk_keeps {P : Banks → Prop} {L base Rc : Nat} (hL : 1 ≤ L) (noop : Bool)
    (h : Banks.keptBy P base (base + Rc * 2 ^ L) (3 * 2 ^ L / 2 - 2)) {b : Banks} (hb : P b) :
    P (transformChunk noop L (2 ^ L) base Rc b) :=
  forRange_keeps P _ _ _ (bias_keeps hL h (stageZero_keeps hL noop h hb)) fun i hi _ hb =>
    stage_keeps (by omega) (by omega) h hb

theorem transformChunks_keeps {P : Banks → Prop} {L : Nat} (hL : 1 ≤ L) (noop : Bool) (T R : Nat)
    (h : Banks.keptBy P 0 (R * 2 ^ L) (3 * 2 ^ L / 2 - 2)) (turns j : Nat) {b : Banks} (hb : P b) :
    P (transformChunks noop L (2 ^ L) T R turns j b) := by
  induction turns generalizing j b with
  | zero => exact hb
  | succ n ih =>
    unfold transformChunks
    split
    · rename_i hj
      refine ih (j + 1) (transformChunk_keeps hL noop (Banks.keptBy_mono h (by omega) ?_) hb)
      rw [← Nat.add_mul]
      exact Nat.mul_le_mul_right _ (by omega)
    · exact hb

/-- What writes to the block's BUF words and to PREV keep, a context's transform keeps (R207). -/
theorem transformBlock_keeps {P : Banks → Prop} {c : Context} (hS : c.S.toNat = subbandsOf c.L) (noop : Bool)
    (h : Banks.keptBy P 0 (c.R.toNat * 2 ^ c.L.toNat) (prevWordsOf c.L)) (hP : P { buf := c.buf, prev := c.prev }) :
    P (transformBlock noop c) := by
  unfold transformBlock
  simp only [prevWordsOf] at h
  split <;> rename_i hL
  · exact hP
  · simp only [hL, if_false] at h
    have h1 : 1 ≤ c.L.toNat := by
      have : c.L.toNat ≠ 0 := fun h0 => hL (by simpa using BitVec.eq_of_toNat_eq (y := 0#4) (by simpa using h0))
      omega
    rw [hS]
    exact transformChunks_keeps h1 noop _ _ h _ _ hP

/-- The transform keeps the canonical form of both memories, in any state. -/
theorem transformBlock_wf (noop : Bool) (c : Context) (hb : Cells.WF c.buf) (hp : prevWF c.prev) :
    Cells.WF (transformBlock noop c).buf ∧ prevWF (transformBlock noop c).prev := by
  let P : Banks → Prop := fun b => Cells.WF b.buf ∧ prevWF b.prev
  have hbuf : ∀ (b : Banks) i v, P b → P (b.writeBuf i v) := fun b i v h => ⟨Cells.put_wf h.1 _ _, h.2⟩
  have hprev : ∀ (b : Banks) j v, P b → P (b.writePrev j v) := fun b j v h => ⟨h.1, prevWrite_wf h.2 _ _⟩
  have hput : ∀ (st : StateRegion) (b : Banks) n r0 r1, P b → P (st.put b n r0 r1) := by
    intro st b n r0 r1 h
    unfold StateRegion.put
    split
    · exact hprev _ _ _ h
    · exact hprev _ _ _ (hprev _ _ _ h)
  have hlift : ∀ base C N st (b : Banks), P b → P (lift base C N st b) := fun base C N st b h =>
    forRange_keeps P _ _ _ h fun n _ b h => hput _ _ _ _ _
      (forRange_keeps (fun k : Column => P k.banks) _ _ _ h fun j _ k hk => hbuf _ _ _ (hbuf _ _ _ hk))
  have hchunk : ∀ S base Rc (b : Banks), P b → P (transformChunk noop c.L.toNat S base Rc b) := by
    intro S base Rc b h
    refine forRange_keeps P _ _ _ (forRange_keeps P _ _ _ ?_ fun _ _ _ h => hbuf _ _ _ h) fun _ _ _ h => hlift _ _ _ _ _ h
    unfold stageZero
    split
    · exact h
    · exact hlift _ _ _ _ _ h
  have hall : ∀ S T R turns j (b : Banks), P b → P (transformChunks noop c.L.toNat S T R turns j b) := by
    intro S T R turns
    induction turns with
    | zero => exact fun _ _ h => h
    | succ n ih =>
      intro j b h
      unfold transformChunks
      split
      · exact ih _ _ (hchunk _ _ _ _ h)
      · exact h
  show P (transformBlock noop c)
  unfold transformBlock
  split
  · exact ⟨hb, hp⟩
  · exact hall _ _ _ _ _ _ ⟨hb, hp⟩

end Sys2Proof.Machine
end

