-- ==== Sys2Proof/Tests/Slice0.lean ====
section
/-! SUPPORT. Tests. Every expected value is the spec's: its encoding tables (spec/30_encoding.md), the examples of its
rules, or its vectors (spec/95_test_vectors.md, named in the docstrings), never this model's own answer. The last part
gives, for each statement that has hypotheses, a concrete state and operands that meet them. -/

namespace Sys2Proof.Tests

open Sys2Proof Sys2Proof.Machine Sys2Proof.Claims

/-! ### Builders -/

/-- The bytes of a bit string in take order: stream bit 8·j + b is bit b of byte j (R70). -/
def bytesOf (bits : List Bool) : List Byte :=
  (List.range ((bits.length + 7) / 8)).map fun j =>
    BitVec.ofNat 8 (((List.range 8).map fun b => (bits.getD (8 * j + b) false).toNat * 2 ^ b).sum)

/-- The first `n` bits of a number written with the first bit taken as its most significant digit. -/
def bits (n v : Nat) : List Bool := (List.range n).map fun i => v.testBit (n - 1 - i)

/-- An open context with `L` and `R`, `total` samples to go, in phase `p`, with `n` subbands done. -/
def ctxIn (p : Phase) (L : BitVec 4) (R : BitVec 12) (total : BitVec 32) (n : Nat) : Context :=
  { Context.reset.opened L R total with phase := p, nextBand := n }

/-- The LUT unit with one open context and the table of `scale e, x` as the latest build. -/
def tableOf (e : BitVec 4) (x : BitVec 16) : LutUnit := LutUnit.reset.acquire.build e x

/-- Context 0 is `c`, context 1 is closed, and the latest build is `scale 3, 3`. -/
def stateOf (c : Context) : State := { State.reset with contexts := [c, .reset], lut := tableOf 3 3 }

/-- A block with S = 1 and `R` rows is being filled, and `payload` is on the bit source. -/
def fillingOf (R : BitVec 12) (payload : List Bool) : State :=
  stateOf { ctxIn .filling 0 R 4 0 with source := bytesOf payload }

/-- The state after a command. -/
def after (i : Instr) (s : State) : State := nextOf s (exec i s)

/-- What a band left: the response, the words of the column, and the bits taken. -/
def bandResult (i : Instr) (s : State) : Option Response × List Int × List Nat :=
  let t := after i s
  (t.resp, (t.contexts.take 1).flatMap (fun c => c.buf.map fun p => p.2.toInt), (t.contexts.take 1).map Context.bitPos)

/-- UNTRANSFORM on a filled block: BUF and PREV after it. -/
def transformed (noop : Bool) (L : BitVec 4) (R : BitVec 12) (words : List Int) (prev : Cells Word) :
    List Int × Cells Word :=
  let b := transformBlock noop
    { ctxIn .filling L R 100 (subbandsOf L) with
      buf := (words.zipIdx).map (fun p => (p.2, wrap32 p.1))
      prev := prev }
  (b.buf.map (fun p => p.2.toInt), b.prev)

/-- POP's answer where the next word is `v`. -/
def popped (L : BitVec 4) (v : Int) : Option Response :=
  (after .pop (stateOf { ctxIn .idle L 1 0 0 with buf := [(0, wrap32 v)], outCount := 1 })).resp

/-! ### WellFormed: each check refuses an ill-formed term -/

theorem test_config_standard : Config.standard.wellFormed = true := by decide
theorem test_config_no_context : { Config.standard with K := 0 }.wellFormed = false := by decide
theorem test_config_no_buffer : { Config.standard with maxBlockWords := 0 }.wellFormed = false := by decide
theorem test_dband_operand : [2, 3, 16, 17].map dbandOperand = [false, true, true, false] := by decide
theorem test_pband_operand : [16, 17, 24, 25, 28, 29, 30].map pbandOperand =
    [false, true, true, false, false, true, false] := by decide
theorem test_reserved_code : [0, 1, 2, 3, 25, 28, 30, 31, 29].map reservedFormatCode =
    [false, true, true, false, true, true, true, true, false] := by decide
theorem test_command_context : [0, 1, 2].map (fun n => Command.wellFormed .standard { ctx := n, instr := .pop }) =
    [true, true, false] := by decide

/-! ### Decoding: words written out from R92, R93 and the rules of the commands -/

/-- R93: `00000000sssssssssssssssseeee0001` with s = 0x8001, e = 9. -/
theorem test_decode_scale : decode [0b00000000100000000000000110010001] = .ok (.scale 9 0x8001, []) := by rfl
/-- R93: `00000000000iiiiiiiiiiiiiiiii0010` with i = −2. -/
theorem test_decode_lookup : decode [0b00000000000111111111111111100010] = .ok (.lookup (-2), []) := by rfl
/-- R93: OPEN with r = 0x802, l = 5, and word 1. -/
theorem test_decode_open : decode [0b00000000000010000000001001010111, 0x80000003] =
    .ok (.openCtx 5 0x802 0x80000003, []) := by rfl
/-- R93: the commands without operands. -/
theorem test_decode_bare : decode [0b0100] = .ok (.untransform, []) ∧ decode [0b0101] = .ok (.pop, []) ∧
    decode [0b0110] = .ok (.fill, []) ∧ decode [0b1000] = .ok (.closeCtx, []) := ⟨rfl, rfl, rfl, rfl⟩
/-- The words of R155 to R163. -/
theorem test_decode_band_0_8 :
    [0x003, 0x013, 0x023, 0x033, 0x043, 0x053, 0x063, 0x073, 0x083].map (decodeTableWord 32) =
    [some .bandZ, some .bandR1, some .bandR2, some .bandD3, some .bandD4, some .bandD5, some .bandD6, some .bandD7,
      some .bandD8] := by decide
/-- The words of R164 to R171. -/
theorem test_decode_band_9_16 :
    [0x093, 0x0A3, 0x0B3, 0x0C3, 0x0D3, 0x0E3, 0x0F3, 0x103].map (decodeTableWord 32) =
    [some .bandD9, some .bandD10, some .bandD11, some .bandD12, some .bandD13, some .bandD14, some .bandD15,
      some .bandD16] := by decide
/-- The words of R172 to R179. -/
theorem test_decode_band_17_24 :
    [0x113, 0x123, 0x133, 0x143, 0x153, 0x163, 0x173, 0x183].map (decodeTableWord 32) =
    [some .bandP17, some .bandP18, some .bandP19, some .bandP20, some .bandP21, some .bandP22, some .bandP23,
      some .bandP24] := by decide
/-- The words of R180 to R186. -/
theorem test_decode_band_25_31 :
    [0x193, 0x1A3, 0x1B3, 0x1C3, 0x1D3, 0x1E3, 0x1F3].map (decodeTableWord 32) =
    [some .bandR25, some .bandP26, some .bandP27, some .bandR28, some .bandP29, some .bandR30, some .bandR31] := by
  decide
/-- E9 to E13, and OPEN with bit 20 set: no command. -/
theorem test_decode_reserved :
    [0x0, 0x9, 0xF, 0x01000001, 0x204, 0x203, 0x00200002, 0x00100007, 0x18].map (decodeTableWord 32) =
    List.replicate 9 none := by decide
/-- The words the encoder writes, against R93. -/
theorem test_encode : encode (.scale 9 0x8001) = [0x00800191] ∧ encode (.lookup (-2)) = [0x001FFFE2] ∧
    encode (.openCtx 5 0x802 0x80000003) = [0x00080257, 0x80000003] ∧ encode .bandR31 = [0x000001F3] :=
  ⟨by decide, by decide, by decide, by decide⟩
/-- R105: the pseudo-instructions. -/
theorem test_pseudo : Instr.zband = .bandZ ∧ Instr.dband 16 = .bandD16 ∧ Instr.pband 29 = .bandP29 ∧
    encode Instr.nop = [0x2] := ⟨rfl, rfl, rfl, by decide⟩
/-- W1: the bit order of the bit source. -/
theorem test_bit_order : streamBits [0x35, 0x01] 0 4 = 5 ∧ streamBits [0x35, 0x01] 4 5 = 19 ∧
    streamBits [0x35, 0x01] 9 7 = 0 := by decide

/-! ### SCALE and LOOKUP -/

/-- R130's example: `scale 2, 3`, cells −5 to 4. -/
theorem test_scale : [-5, -4, -3, -2, -1, 0, 1, 2, 3, 4].map
    ((after (.scale 2 3) { stateOf (ctxIn .idle 0 1 1 0) with lut := LutUnit.reset.acquire }).lut.read? ·) =
    [none, some (-12), some (-9), some (-6), some (-3), some 0, some 3, some 6, some 9, none] := by decide
/-- L4, L5: products wrap at 16 bits. -/
theorem test_scale_wraps : scaleValue 3 (lutCell 20000) = -5536 ∧ scaleValue 3 (lutCell (-20000)) = 5536 ∧
    scaleValue 65535 (lutCell 32767) = -32767 ∧ scaleValue 65535 (lutCell (-32768)) = -32768 := by decide
/-- The window of `scale 3, 3` from both ends: −8 and 7 are inside. -/
theorem test_lookup_inside : [-8, 7].map (fun k => (after (.lookup k) (stateOf (ctxIn .idle 0 1 1 0))).resp) =
    [some (.status .ok (-24)), some (.status .ok 21)] := by decide
/-- −9, 8, and the ends of the index range are WINDOW (E4, E5). -/
theorem test_lookup_outside :
    [-9, 8, -65536, 65535].map (fun k => (after (.lookup k) (stateOf (ctxIn .idle 0 1 1 0))).resp) =
    List.replicate 4 (some (.status .window 0)) := by decide

/-! ### BAND -/

/-- B1. -/
theorem test_bandZ : bandResult .bandZ (fillingOf 4 (bits 4 0b1111)) = (some (.status .ok 0), [0, 0, 0, 0], [0]) := by
  decide
/-- B2 to B7. -/
theorem test_bandR : reservedBands.map (fun i => bandResult i (fillingOf 4 [])) =
    List.replicate 6 (some (.status .failBand 0), [], [0]) := by decide
/-- B8. -/
theorem test_bandD3 : bandResult .bandD3 (fillingOf 4 (bits 12 0b000100111011)) =
    (some (.status .ok 0), [-12, -9, 9, 6], [12]) := by decide
/-- B9. -/
theorem test_bandD4 : bandResult .bandD4 (fillingOf 4 (bits 16 0b0000100001111111)) =
    (some (.status .ok 0), [-24, -21, 18, 21], [16]) := by decide
/-- The examples of R160 to R170: raw = 2^(n−1) + 1 gives Lut[1] = 3. -/
theorem test_bandD_example : [(5, Instr.bandD5), (6, .bandD6), (7, .bandD7), (8, .bandD8), (9, .bandD9), (10, .bandD10),
    (11, .bandD11), (12, .bandD12), (13, .bandD13), (14, .bandD14), (15, .bandD15), (16, .bandD16)].all
    (fun p => bandResult p.2 (fillingOf 1 (bits p.1 (2 ^ (p.1 - 1) + 1))) == (some (.status .ok 0), [3], [p.1])) =
    true := by decide
/-- B11 and the corner cases of R160 to R171: raw = 0 with lut_e = 3 reads k = −2^(n−1), outside the window. -/
theorem test_bandD_window : (directBands.drop 2).all (fun p => (after p.2 (fillingOf 1 [])).resp ==
    some (.faulted (.lutWindow (BitVec.ofInt 17 (-(2 ^ (p.1 - 1) : Nat))) (BitVec.ofNat 5 p.1) 0 0))) = true := by
  decide
/-- B15. -/
theorem test_bandP17 : bandResult .bandP17 (fillingOf 4 (bits 6 0b010111)) =
    (some (.status .ok 0), [0, 0, 0, 3], [6]) := by decide
/-- B16. -/
theorem test_bandP18 : bandResult .bandP18 (fillingOf 4 (bits 7 0b0101110)) =
    (some (.status .ok 0), [0, -3, 3, -3], [7]) := by decide
/-- B17. -/
theorem test_bandP19 : bandResult .bandP19 (fillingOf 4 (bits 10 0b1101000000)) =
    (some (.status .ok 0), [3, -3, 0, -3], [10]) := by decide
/-- B18. -/
theorem test_bandP19_combo : (after .bandP19 (fillingOf 1 (bits 5 0b11011))).resp =
    some (.faulted (.packedCombo 19 27)) := by decide
/-- B19. -/
theorem test_bandP20 : bandResult .bandP20 (fillingOf 4 (bits 7 0b0101111)) =
    (some (.status .ok 0), [0, 0, 0, 6], [7]) := by decide
/-- B20. -/
theorem test_bandP21 : bandResult .bandP21 (fillingOf 4 (bits 10 0b0100111101)) =
    (some (.status .ok 0), [0, -6, 6, 3], [10]) := by decide
/-- B21. -/
theorem test_bandP22 : bandResult .bandP22 (fillingOf 4 (bits 14 0b11111000000000)) =
    (some (.status .ok 0), [-3, -3, -3, -6], [14]) := by decide
/-- B22. -/
theorem test_bandP22_combo : (after .bandP22 (fillingOf 1 (bits 7 0b1011111))).resp =
    some (.faulted (.packedCombo 22 125)) := by decide
/-- B23. -/
theorem test_bandP23 : bandResult .bandP23 (fillingOf 4 (bits 7 0b0101101)) =
    (some (.status .ok 0), [0, 0, 0, 3], [7]) := by decide
/-- B24. -/
theorem test_bandP24 : bandResult .bandP24 (fillingOf 4 (bits 12 0b010111001111)) =
    (some (.status .ok 0), [0, 3, -9, 9], [12]) := by decide
/-- B25. -/
theorem test_bandP26 : bandResult .bandP26 (fillingOf 4 (bits 8 0b01011111)) =
    (some (.status .ok 0), [0, 0, 0, 12], [8]) := by decide
/-- B26. -/
theorem test_bandP26_window : (after .bandP26 { fillingOf 1 (bits 5 0b11111) with lut := tableOf 2 3 }).resp =
    some (.faulted (.lutWindow 4 26 0 0)) := by decide
/-- B27. -/
theorem test_bandP27 : bandResult .bandP27 (fillingOf 4 (bits 13 0b0111110001011)) =
    (some (.status .ok 0), [0, 12, -12, 9], [13]) := by decide
/-- B28. -/
theorem test_bandP29 : bandResult .bandP29 (fillingOf 4 (bits 14 0b01111000000000)) =
    (some (.status .ok 0), [9, -9, -15, -15], [14]) := by decide
/-- B29. -/
theorem test_bandP29_combo : (after .bandP29 (fillingOf 1 (bits 7 0b1001111))).resp =
    some (.faulted (.packedCombo 29 121)) := by decide
/-- B30. -/
theorem test_band_refused :
    (after .bandP17 { fillingOf 1 [] with cfg := { Config.standard with packed := .none } }).resp = some .refused := by
  decide
/-- B31, B32, B33. -/
theorem test_band_phase : (after .bandD3 (stateOf (ctxIn .idle 0 1 1 0))).resp = some (.status .errState 0) ∧
    (after .bandD3 (stateOf (ctxIn .filling 0 1 1 1))).resp = some (.status .errState 0) ∧
    bandResult .bandD3 (fillingOf 0 []) = (some (.status .ok 0), [], [0]) := by decide
/-- R351's example under `OOW_POLICY = stale`: the cell of the first build. -/
theorem test_band_stale : bandResult .bandD4
    { fillingOf 1 (bits 4 0b1011) with
      cfg := { Config.standard with oowPolicy := .stale }, lut := (tableOf 4 3).build 2 7 } =
    (some (.status .ok 0), [15], [4]) := by decide

/-! ### UNTRANSFORM -/

/-- T1. -/
theorem test_transform_levels0 : transformed false 0 2 [7, -9] [] = ([7, -9], []) := by decide
/-- T5 and T6: the state is carried into the next block. -/
theorem test_transform_carries : transformed false 1 2 [3, -3, 6, 0] [] = ([4, 10, 4, 16], [(0, 6)]) ∧
    transformed false 1 2 [0, 0, 0, 0] [(0, 6)] = ([7, 1, 1, 1], []) := by decide
/-- T7. -/
theorem test_transform_levels2 : transformed false 2 2 [1, 2, 3, 4, 5, 6, 7, 8] [] =
    ([2, 2, 6, -2, 13, 10, 46, -14], [(0, 0x00070005), (1, 0x00080006), (2, 1)]) := by decide
/-- T4. -/
theorem test_transform_levels3 : transformed false 3 2 (List.replicate 16 0) [] =
    ([1, 2, 3, 4, 4, 4, 4, 4, 4, 4, 4, 4, 4, 4, 4, 4], [(4, 1), (8, 2)]) := by decide
/-- T8. -/
theorem test_transform_extremes : transformed false 1 1 [32767, -32768] [(0, 0x7FFF7FFF)] =
    ([131069, 65536], [(0, 0x80007FFF)]) := by decide
/-- T9 and T10: `STAGE0_R1_NOOP`. -/
theorem test_transform_one_row : transformed false 1 1 [5, 7] [] = ([6, 4], [(0, 0x00070005)]) ∧
    transformed true 1 1 [5, 7] [] = ([6, 8], []) := by decide
/-- T11. -/
theorem test_lifting_pair : (liftFirst 0x40000000 0 0x40000000).toInt = -1073741824 ∧
    (liftSecond 0x40000000 0 0x40000000).toInt = 1073741824 := by decide
/-- T13, T14: the phase check, and the clamp of the last block. -/
theorem test_untransform : (after .untransform (stateOf (ctxIn .filling 1 2 3 1))).resp = some (.status .errState 0) ∧
    ((after .untransform (stateOf { ctxIn .filling 0 4 3 1 with
      buf := [(0, 1), (1, 1), (2, 1), (3, 1)] })).contexts.map fun c => (c.outCount, c.remaining)) =
      [(3, 0), (0, 0)] := by decide

/-! ### POP and FILL -/

/-- P-1 to P-4. -/
theorem test_pop : popped 2 (-14) = some (.status .ok (-4)) ∧ popped 0 (-32769) = some (.status .ok 32767) ∧
    popped 15 0x7FFFFFFF = some (.status .ok (-1)) ∧ popped 1 (-7) = some (.status .ok (-4)) := by decide
/-- P-5 and P-6. -/
theorem test_pop_phase : [ctxIn .filling 0 1 1 0, ctxIn .failed 0 1 1 0, ctxIn .idle 0 1 1 0, Context.reset].map
    (fun c => (after .pop (stateOf c)).resp) =
    [some (.status .empty 0), some (.status .empty 0), some (.status .empty 0), some (.status .errState 0)] := by decide
/-- R242's example: 25 zero bits, L = 0, R = 4. -/
theorem test_fill :
    let t := after .fill (stateOf (ctxIn .idle 0 4 4 0))
    t.resp = some (.status .ok 0) ∧ (t.contexts.map fun c => (c.bitPos, c.outCount, c.remaining)) =
      [(25, 4, 0), (0, 0, 0)] ∧ (t.contexts.take 1).map Context.buf = [[(0, 0), (1, 0), (2, 0), (3, 0)]] := by decide
/-- F-4: a reserved code for subband 0,
    after 25 bits (P4's first block has code 1 there). F-1: the end of the stream. -/
theorem test_fill_fails :
    let t := after .fill (stateOf { ctxIn .idle 0 2 2 0 with source := bytesOf (bits 25 0b10000) })
    t.resp = some (.status .failBand 0) ∧ (t.contexts.map fun c => (c.phase, c.bitPos)) =
      [(.failed, 25), (.closed, 0)] ∧ (after .fill (stateOf (ctxIn .idle 0 4 0 0))).resp = some (.status .empty 0) := by
  decide
/-- R65: the bytes of a sample. P-1's −4 is FC FF. -/
theorem test_pcm_bytes : pcmBytes (-4) = [0xFC, 0xFF] := by decide

/-! ### OPEN, CLOSE and the command port -/

/-- O1. -/
theorem test_open :
    let t := after (.openCtx 1 2 4) State.reset
    t.resp = some (.status .ok 0) ∧ t.lut = { present := true, openCount := 1, cells := [], e := none } ∧
      (t.contexts.map fun c => (c.phase, c.S, c.BW, c.T, c.remaining)) =
        [(.idle, 2, 4, 1022, 4), (.closed, 0, 0, 0, 0)] := by decide
/-- O2, O5, O6: the context is open already, the block does not fit, `open 10, 1, 8`. -/
theorem test_open_limits : (after (.openCtx 0 1 1) (stateOf (ctxIn .idle 0 1 1 0))).resp = some (.status .errState 0) ∧
    (after (.openCtx 15 4095 0) (State.resetWith { Config.standard with maxBlockWords := 134184959 })).resp =
      some (.status .errAlloc 0) ∧
    (after (.openCtx 15 4095 0) State.reset).resp = some (.status .ok 0) ∧
    ((after (.openCtx 10 1 8) State.reset).contexts.map Context.T) = [1, 0] ∧ prevWordsOf 10 = 1534 := by decide
/-- R262's example: the last open context. -/
theorem test_close :
    let t := after .closeCtx (stateOf (ctxIn .filling 0 1 1 0))
    t.resp = some (.status .ok 0) ∧ t.lut = .reset ∧ t.contexts.map Context.phase = [.closed, .closed] := by decide
/-- O4: the second CLOSE, and a command after it. -/
theorem test_double_close :
    let t := after .closeCtx State.reset
    t.resp = some (.faulted (.doubleClose 0)) ∧ t.lut = .reset ∧
      (after .pop t).resp = some (.faulted (.doubleClose 0)) := by decide
/-- E9 to E14 at the port: ERR_CMD, the one word taken. -/
theorem test_illegal_words : [0x0, 0x9, 0xF, 0x01000001, 0x204, 0x203].all (fun w : Word =>
    nextOf .reset (step { State.reset with port := [{ ctx := 0, word := w }, { ctx := 0, word := 5 }] }) ==
      { State.reset with port := [{ ctx := 0, word := 5 }], resp := some (.status .errCmd 0) }) = true := by decide
/-- E14: a context number at K. R306: a faulted context answers FAULTED to an illegal word as well. -/
theorem test_priorities : (after .pop { State.reset with ctx := 2 }).resp = some (.status .errCmd 0) ∧
    (nextOf .reset (step { stateOf { Context.reset with fault := some (.doubleClose 0) } with
      port := [{ ctx := 0, word := 0 }] })).resp = some (.faulted (.doubleClose 0)) := by decide
/-- The first command after reset, through the port: `open 1, 2, 4` (E8). -/
theorem test_first_command :
    (nextOf .reset (step (State.reset.withFetchWord 64 0x0000000400000217))).contexts.map Context.phase =
      [.idle, .closed] := by decide

/-! ### Witnesses: for each statement with hypotheses, a state and operands that meet all of them, at boundary values
where a statement has clauses over a range -/

/-- A state whose context 0 is a live context serves. -/
theorem stateOf_serves (c : Context) (hf : c.fault = none) (hr : c.refused = false) : Serves (stateOf c) c :=
  ⟨rfl, hf, hr⟩

/-- A block being filled, with the table of `scale e, x`. -/
def fillingWith (e : BitVec 4) (R : BitVec 12) (payload : List Bool) : State :=
  { fillingOf R payload with lut := tableOf e 3 }

/-- Its context. -/
def fillingContext (R : BitVec 12) (payload : List Bool) : Context :=
  { ctxIn .filling 0 R 4 0 with source := bytesOf payload }

theorem fillingWith_expecting (e : BitVec 4) (R : BitVec 12) (payload : List Bool) :
    Expecting (fillingWith e R payload) (fillingContext R payload) := ⟨⟨rfl, rfl, rfl⟩, rfl, Nat.zero_lt_one⟩

theorem test_witness_AcceptedWordsAreEncodings : decode [0x00FFFFF1] = .ok (.scale 15 65535, []) := by rfl

/-- The smallest reserved word of each opcode that has operands, and of opcode 4; the largest legal ones. -/
theorem test_witness_ReservedEncodingsAnswerErrCmd :
    (∀ w ∈ [(0x0 : Word), 0x9, 0x01000001, 0x00200002, 0x00000203, 0x00000014, 0x00100007],
      ∃ (s : State) (p : PortWord), s.port = p :: [] ∧ p.word = w ∧ ¬ legalWord p.word ∧
        ∀ c, s.contexts[p.ctx]? = some c → c.fault = none ∧ c.refused = false) ∧
    ∀ w ∈ [(0x00FFFFF1 : Word), 0x001FFFF2, 0x000001F3, 0x00000004, 0x000FFFF7], legalWord w := by
  refine ⟨fun w hw => ⟨{ State.reset with port := [⟨0, w⟩] }, ⟨0, w⟩, rfl, rfl, ?_, ?_⟩, ?_⟩
  · simp only [List.mem_cons, List.not_mem_nil, or_false] at hw
    rcases hw with rfl | rfl | rfl | rfl | rfl | rfl | rfl <;> simp [legalWord, opcodeOf]
  · intro c hc
    obtain rfl : Context.reset = c := Option.some.inj hc
    exact ⟨rfl, rfl⟩
  · intro w hw
    simp only [List.mem_cons, List.not_mem_nil, or_false] at hw
    rcases hw with rfl | rfl | rfl | rfl | rfl <;> simp [legalWord, opcodeOf]

theorem test_witness_StepRunsDecodedInstruction :
    let s : State := { State.reset with port := [⟨1, 0x217⟩, ⟨0, 4⟩, ⟨0, 5⟩] }
    s.port = ⟨1, 0x217⟩ :: [⟨0, 4⟩, ⟨0, 5⟩] ∧ decode (s.port.map PortWord.word) = .ok (.openCtx 1 2 4, [5]) :=
  ⟨rfl, rfl⟩

theorem test_witness_PortWithoutACommandWaits :
    opcodeOf 0x217 = 7#4 ∧ legalWord 0x217 ∧ (State.reset.withFetchWord 32 0x217).port ≠ [] :=
  ⟨by decide, by simp [legalWord, opcodeOf], by decide⟩

/-- Two states that differ in context 1 alone. -/
theorem test_witness_ContextsAreIsolated :
    let a := stateOf (ctxIn .idle 0 1 1 0)
    let b := { a with contexts := [ctxIn .idle 0 1 1 0, ctxIn .filling 1 2 3 0] }
    a ≠ b ∧ a.cfg = b.cfg ∧ a.ctx = b.ctx ∧ a.lut = b.lut ∧ a.draws = b.draws ∧
      a.contexts[a.ctx]? = b.contexts[b.ctx]? := by decide

theorem test_witness_MarkedContextExecutesNothing :
    (∃ (s : State) (c : Context) (f : FaultRecord), s.contexts[s.ctx]? = some c ∧ c.fault = some f) ∧
    ∃ (s : State) (c : Context), s.contexts[s.ctx]? = some c ∧ c.fault = none ∧ c.refused = true :=
  ⟨⟨stateOf { Context.reset with fault := some (.doubleClose 0) }, _, _, rfl, rfl⟩,
    ⟨stateOf { Context.reset with refused := true }, _, rfl, rfl, rfl⟩⟩

theorem test_witness_MarksAreNeverCleared :
    ∃ (s : State) (t : State) (c : Context), step s = .next t ∧ s.contexts[0]? = some c ∧
    c.fault = some (.doubleClose 0) ∧ c.refused = true :=
  ⟨{ stateOf { Context.reset with fault := some (.doubleClose 0), refused := true } with port := [⟨0, 8⟩] },
    _, _, rfl, rfl, rfl, rfl⟩

theorem test_witness_ContextNumberAtOrAboveKIsErrCmd :
    let s := { State.reset with ctx := 2 }
    s.sized ∧ s.cfg.K = s.ctx := ⟨rfl, rfl⟩

theorem test_witness_TurnedAwayStatusChangesNothing :
    ∃ (i : Instr) (s : State) (t : State), exec i s = .next t ∧ t.resp = some (.status .errState 0) := ⟨.pop, .reset,
    _, rfl, rfl⟩

/-- A BAND with `next_band` below S, and with `next_band` at S. -/
theorem test_witness_PhaseLegalityTable :
    (∃ (s : State) (c : Context), Serves s c ∧ c.nextBand < c.S.toNat ∧ phaseTable .bandZ s.ctx c = none) ∧
    (∃ (s : State) (c : Context), Serves s c ∧ c.nextBand = c.S.toNat ∧
    phaseTable .bandZ s.ctx c = some (.bare .errState)) ∧
    ∃ (s : State) (c : Context), Serves s c ∧ c.nextBand ≤ c.S.toNat ∧
    phaseTable .closeCtx s.ctx c = some (.faulted (.doubleClose 0)) :=
  ⟨⟨stateOf (ctxIn .filling 1 1 1 1), _, ⟨rfl, rfl, rfl⟩, by decide, by decide⟩,
    ⟨stateOf (ctxIn .filling 1 1 1 2), _, ⟨rfl, rfl, rfl⟩, by decide, by decide⟩,
    ⟨stateOf .reset, _, ⟨rfl, rfl, rfl⟩, by decide, by decide⟩⟩

/-- IDLE and drained, FAILED, and FILLING; the clauses over k meet at 2^e − 1 and 2^e, here for e = 0 and e = 15. -/
theorem test_witness_ScaleBuildsTheTable :
    (∃ (s : State) (c : Context), Serves s c ∧ c.phase = .idle ∧ Startable c) ∧ (∃ (s : State) (c : Context),
    Serves s c ∧ c.phase = .failed ∧ Startable c) ∧
    (∃ (s : State) (c : Context), Serves s c ∧ ¬ Startable c) ∧
    (0 < 2 ^ (0 : BitVec 4).toNat ∧ 1 ≤ 2 ^ (0 : BitVec 4).toNat ∧ 32767 < 2 ^ (15 : BitVec 4).toNat ∧
      32768 ≤ 2 ^ (15 : BitVec 4).toNat ∧ (-32769 : Int) < -((2 ^ (15 : BitVec 4).toNat : Nat) : Int) ∧
      ((2 ^ (15 : BitVec 4).toNat : Nat) : Int) - 1 < 32768) :=
  ⟨⟨stateOf (ctxIn .idle 0 1 1 0), _, ⟨rfl, rfl, rfl⟩, rfl, .inl ⟨rfl, rfl⟩⟩,
    ⟨stateOf (ctxIn .failed 0 1 1 0), _, ⟨rfl, rfl, rfl⟩, rfl, .inr rfl⟩,
    ⟨stateOf (ctxIn .filling 0 1 1 0), _, ⟨rfl, rfl, rfl⟩, by simp [Startable, ctxIn]⟩, by decide⟩

/-- The first byte behind the last, and the bits 0 and 7 of a byte. -/
theorem test_witness_TakeReadsTheStreamInOrder : 0 < 8 ∧ 7 < 8 ∧ ([0x35] : List Byte).length ≤ 1 ∧ 15 < 16 := by decide

theorem test_witness_AccumulatorWalkBuildsTheSameTable : Cells.WF (tableOf 1 3).cells ∧ (tableOf 1 3).cells ≠ [] := by
  decide

/-- Closed; no build; the window of `scale 3, 3` from both ends, inside (−8, 7) and outside (−9, 8). -/
theorem test_witness_LookupReadsTheWindow :
    (∃ (s : State) (c : Context), Serves s c ∧ c.phase = .closed) ∧ (∃ (s : State) (c : Context), Serves s c ∧
    c.phase ≠ .closed ∧ s.lut.e = none) ∧
    ∃ (s : State) (c : Context), Serves s c ∧ c.phase ≠ .closed ∧ s.lut.e = some 3 ∧
      s.lut.read? (-8) = some (-24) ∧ s.lut.read? 7 = some 21 ∧ (-8 : BitVec 17).toInt = -((2 ^ 3 : Nat) : Int) ∧
      (7 : BitVec 17).toInt = ((2 ^ 3 : Nat) : Int) - 1 ∧ (-9 : BitVec 17).toInt < -((2 ^ 3 : Nat) : Int) ∧
      ((2 ^ 3 : Nat) : Int) - 1 < (8 : BitVec 17).toInt :=
  ⟨⟨stateOf .reset, _, ⟨rfl, rfl, rfl⟩, rfl⟩,
    ⟨{ stateOf (ctxIn .idle 0 1 1 0) with lut := LutUnit.reset.acquire }, _, ⟨rfl, rfl, rfl⟩, by decide, rfl⟩,
    ⟨stateOf (ctxIn .idle 0 1 1 0), _, ⟨rfl, rfl, rfl⟩, by decide, rfl, by decide⟩⟩

theorem test_witness_ScaleIsSeenByEveryContext :
    let s := { stateOf (ctxIn .idle 0 1 1 0) with contexts := [ctxIn .idle 0 1 1 0, ctxIn .filling 1 2 3 0] }
    Serves s (ctxIn .idle 0 1 1 0) ∧ Startable (ctxIn .idle 0 1 1 0) ∧ 1 ≠ s.ctx ∧
      s.contexts[1]? = some (ctxIn .filling 1 2 3 0) ∧ (ctxIn .filling 1 2 3 0).live ∧
      (-4 : BitVec 17).toInt = -((2 ^ (2 : BitVec 4).toNat : Nat) : Int) ∧
      (3 : BitVec 17).toInt = ((2 ^ (2 : BitVec 4).toNat : Nat) : Int) - 1 :=
  ⟨⟨rfl, rfl, rfl⟩, .inl ⟨rfl, rfl⟩, by decide, rfl, ⟨by decide, rfl, rfl⟩, by decide, by decide⟩

theorem test_witness_DirectIndicesInsideTheWindow : (tableOf 3 3).e = some 3 ∧ 4 - 1 ≤ (3 : BitVec 4).toNat ∧
    ¬ 5 - 1 ≤ (3 : BitVec 4).toNat := by decide

theorem test_witness_ZeroBandClearsItsColumn : ∃ (s : State) (c : Context), Expecting s c ∧ c.R ≠ 0 :=
  ⟨_, _, fillingWith_expecting 3 4 [], by decide⟩

theorem test_witness_ReservedCodesFailTheBlock : ∃ i ∈ reservedBands, ∃ (s : State) (c : Context), Expecting s c ∧
    i = .bandR1 :=
  ⟨_, .head _, _, _, fillingWith_expecting 3 4 [], rfl⟩

/-- Two rows at the two ends of the window: raws 0 and 7, indices −4 and 3, with e = 2. -/
theorem test_witness_DirectBandsDequantize : ∃ p ∈ directBands, ∃ (s : State) (c : Context), Expecting s c ∧ c.R = 2 ∧
    directIndex c p.1 0 = -4 ∧ directIndex c p.1 1 = 3 ∧
    ∀ r < c.R.toNat, s.lut.inWindow (directIndex c p.1 r) = true :=
  ⟨(3, .bandD3), by decide, _, _, fillingWith_expecting 2 2 (bits 6 0b000111), by decide⟩

/-- The second row is the first outside: index 2 with e = 1, after index 1. -/
theorem test_witness_DirectBandFaultsAtItsFirstOutsideRow : ∃ p ∈ directBands, ∃ (s : State) (c : Context),
    Expecting s c ∧
    s.cfg.oowPolicy = .fault ∧ 1 < c.R.toNat ∧ directIndex c p.1 1 = 2 ∧
    s.lut.inWindow (directIndex c p.1 1) = false ∧ ∀ r < 1, s.lut.inWindow (directIndex c p.1 r) = true :=
  ⟨(3, .bandD3), by decide, _, _, fillingWith_expecting 1 2 (bits 6 0b101011), by decide⟩

/-- Three rows: index 1 inside the window of e = 1, index 2 outside with a stale cell, index −4 never written. -/
theorem test_witness_DirectBandsUnderStalePolicyComplete : ∃ p ∈ directBands, ∃ (s : State) (c : Context),
    Expecting s c ∧
    s.cfg.oowPolicy = .stale ∧ c.R = 3 ∧ s.lut.inWindow (directIndex c p.1 0) = true ∧
    s.lut.inWindow (directIndex c p.1 1) = false ∧ s.lut.read? (directIndex c p.1 1) = some 2 ∧
    s.lut.inWindow (directIndex c p.1 2) = false ∧ s.lut.read? (directIndex c p.1 2) = none :=
  ⟨(3, .bandD3), by decide,
    { fillingOf 3 (bits 9 0b101011000) with
      cfg := { Config.standard with oowPolicy := .stale },
      lut := { (tableOf 1 3) with cells := Cells.put (tableOf 1 3).cells (lutCell 2) 2 } },
    fillingContext 3 (bits 9 0b101011000), ⟨⟨rfl, rfl, rfl⟩, rfl, by decide⟩, by decide⟩

/-- The smallest window that holds code 17's largest index, 1. -/
theorem test_witness_PrefixBandsReadTheirCodewords : ∃ p ∈ prefixBands, ∃ (s : State) (c : Context), Expecting s c ∧
    s.cfg.packed = .gk ∧
    s.lut.e = some 1 ∧ p.2.1 = ((2 ^ (1 : BitVec 4).toNat : Nat) : Int) - 1 ∧ c.R = 4 :=
  ⟨_, .head _, _, _, fillingWith_expecting 1 4 (bits 6 0b010111), by decide⟩

/-- The largest group value with a combination, 26, and a second group for the fourth row. -/
theorem test_witness_RadixBandsUnpackTheirDigits : ∃ b ∈ radixBands, ∃ (s : State) (c : Context), Expecting s c ∧
    s.cfg.packed = .gk ∧
    s.lut.e = some 1 ∧ (((b.base - 1) / 2 : Nat) : Int) = ((2 ^ (1 : BitVec 4).toNat : Nat) : Int) - 1 ∧ c.R = 4 ∧
    groupValue c b.bits 0 = 26 ∧ ∀ j, j * b.n < c.R.toNat → groupValue c b.bits j < b.base ^ b.n := by
  refine ⟨_, .head _, _, _, fillingWith_expecting 1 4 (bits 10 0b0101100000), rfl, rfl, by decide, rfl, by decide, ?_⟩
  intro j hj
  obtain rfl | rfl : j = 0 ∨ j = 1 := by
    have : j * 3 < 4 := hj
    omega
  all_goals decide

/-- The second group is the smallest value without a combination, 27; the first has one. -/
theorem test_witness_RadixBandFaultsOnAValueWithoutCombination : ∃ b ∈ radixBands, ∃ (s : State) (c : Context),
    Expecting s c ∧
    s.cfg.packed = .gk ∧ s.lut.e = some 1 ∧
    (((b.base - 1) / 2 : Nat) : Int) ≤ ((2 ^ (1 : BitVec 4).toNat : Nat) : Int) - 1 ∧ 1 * b.n < c.R.toNat ∧
    groupValue c b.bits 1 = b.base ^ b.n ∧ ∀ i < 1, groupValue c b.bits i < b.base ^ b.n :=
  ⟨_, .head _, _, _, fillingWith_expecting 1 4 (bits 10 0b0101111011), by decide⟩

/-- Code 17 with the window of e = 0, [−1, 0]: two zero rows, a row of −1 inside, and a row of +1, the first outside. -/
theorem test_witness_PrefixBandFaultsAtItsFirstOutsideRow : ∃ p ∈ prefixBands,
    let s := fillingWith 0 4 (bits 7 0b0110111)
    let c := fillingContext 4 (bits 7 0b0110111)
    let gs : List Codeword := [([.zero, .zero], [false]), ([.deq (-1)], [true, true, false]),
      ([.deq 1], [true, true, true])]
    p.1.bandCode = some 17 ∧ Expecting s c ∧ s.cfg.packed = .gk ∧ s.cfg.oowPolicy = .fault ∧ (∀ g ∈ gs, g ∈ p.2.2) ∧
      (∀ i, i < (gs.flatMap Prod.snd).length → (gs.flatMap Prod.snd)[i]? = some (streamBit c.source (c.bitPos + i))) ∧
      3 < c.R.toNat ∧ (gs.flatMap Prod.fst)[3]? = some (.deq 1) ∧ s.lut.inWindow 1 = false ∧
      (gs.flatMap Prod.fst)[2]? = some (.deq (-1)) ∧ s.lut.inWindow (-1) = true :=
  ⟨_, .head _, rfl, fillingWith_expecting 0 4 _, by decide⟩

/-- Code 19 with the window of e = 0: v = 18 is the indices −1, −1, +1; the third row is the first outside. -/
theorem test_witness_RadixBandFaultsAtItsFirstOutsideRow : ∃ b ∈ radixBands,
    let s := fillingWith 0 3 (bits 5 0b01001)
    let c := fillingContext 3 (bits 5 0b01001)
    Expecting s c ∧ s.cfg.packed = .gk ∧ s.cfg.oowPolicy = .fault ∧ 2 < c.R.toNat ∧
      (∀ j ≤ 2 / b.n, groupValue c b.bits j < b.base ^ b.n) ∧ s.lut.inWindow (radixIndex c b 2) = false ∧
      ∀ r < 2, s.lut.inWindow (radixIndex c b r) = true :=
  ⟨_, .head _, fillingWith_expecting 0 3 _, by decide⟩

theorem test_witness_StalePolicyRaisesNoWindowFault : ∃ (s : State) (t : State) (c : Context), Serves s c ∧
    s.cfg.oowPolicy = .stale ∧ exec .bandD5 s = .next t :=
  ⟨{ fillingOf 1 [] with cfg := { Config.standard with oowPolicy := .stale } }, _, _, ⟨rfl, rfl, rfl⟩, rfl, rfl⟩

theorem test_witness_PackedBandsAreRefusedWithoutAScheme : ∃ i ∈ packedBands, ∃ (s : State) (c : Context),
    Expecting s c ∧
    s.cfg.packed = .none ∧ i = .bandP17 :=
  ⟨_, .head _, { fillingOf 1 [] with cfg := { Config.standard with packed := .none } }, fillingContext 1 [],
    ⟨⟨rfl, rfl, rfl⟩, rfl, by decide⟩, rfl, rfl⟩

theorem test_witness_BandWritesItsColumnOnly : ∃ (s : State) (t : State) (c : Context), Expecting s c ∧
    exec (Instr.band 4) s = .next t ∧
    t.resp = some (.status .ok 0) :=
  ⟨_, _, _, fillingWith_expecting 3 2 [], rfl, by decide⟩

/-- A filled block of L = 0, a filled block of L = 1 with its geometry, and a block with a subband to go. -/
theorem test_witness_UntransformSetsUpTheOutput :
    (∃ (s : State) (c : Context), Serves s c ∧ (c.phase = .filling ∧ c.nextBand = c.S.toNat) ∧ c.L = 0) ∧
    (∃ (s : State) (c : Context), Serves s c ∧ (c.phase = .filling ∧ c.nextBand = c.S.toNat) ∧ c.L = 1 ∧
    c.geometry s.cfg) ∧
    ∃ (s : State) (c : Context), Serves s c ∧ ¬ (c.phase = .filling ∧ c.nextBand = c.S.toNat) :=
  ⟨⟨stateOf (ctxIn .filling 0 1 1 1), _, ⟨rfl, rfl, rfl⟩, by decide, rfl⟩,
    ⟨stateOf (ctxIn .filling 1 2 3 2), _, ⟨rfl, rfl, rfl⟩, by decide, rfl, by unfold Context.geometry; decide⟩,
    ⟨stateOf (ctxIn .filling 1 2 3 1), _, ⟨rfl, rfl, rfl⟩, by decide⟩⟩

/-- One column and one pair, for both kinds of region; the words next to the view and to the region. -/
theorem test_witness_LiftRunsEveryColumn : 0 < 1 ∧ StateRegion.packed { packed := true, start := 1 } = true ∧
    StateRegion.packed { packed := false, start := 1 } = false ∧ (2 < 3 ∨ 3 + 2 * 1 * 1 ≤ 2) ∧
    (5 < 3 ∨ 3 + 2 * 1 * 1 ≤ 5) ∧ (0 < 1 ∨ 1 + 1 ≤ 0) ∧ (3 < 1 ∨ 1 + 2 * 1 ≤ 3) := by decide

theorem test_witness_BiasAddsOneToColumnZero : 2 ≤ 4 ∧ 0 < 2 * 1 ∧ ∀ k < 2 * 1, 1 ≠ 0 + k * (4 / 2) := by decide

/-- The two ends of the 16-bit range. -/
theorem test_witness_StageZeroDoesNotWrap : inSampleRange (-32768) ∧ inSampleRange 32767 := by
  unfold inSampleRange; decide

theorem test_witness_ZeroBlockGivesOnes : ∃ c : Context, c.L = 1 ∧ c.S = 2 ∧ c.T ≠ 0 ∧ c.R = 1 ∧
    (∀ i < 2 * c.R.toNat, Cells.get? c.buf i = some 0) ∧ ∀ j, prevRead c.prev j = 0 :=
  ⟨{ ctxIn .filling 1 1 1 2 with buf := [(0, 0), (1, 0)] }, rfl, rfl, by decide, rfl, by decide, fun _ => rfl⟩

theorem test_witness_TransformDoesNotDependOnChunking :
    let b : Banks := { buf := [(0, 32767), (1, -32768), (2, 1), (3, 0)], prev := [(0, 0x80007FFF)] }
    1 ≤ 1 ∧ 1 ≤ 2 ∧ ∀ i < 2 * 2 ^ 1, inSampleRange (b.readBuf i) := by
  refine ⟨by decide, by decide, fun i hi => ?_⟩
  unfold inSampleRange
  interval_cases i <;> decide

theorem test_witness_PrevRegionsTile : 2 ≤ 3 ∧ 1 ≤ 1 ∧ 1 + 1 < 3 := by decide

/-- Closed; drained and filling; a sample ready. -/
theorem test_witness_PopFormsTheSample :
    (∃ (s : State) (c : Context), Serves s c ∧ c.phase = .closed) ∧
    (∃ (s : State) (c : Context), Serves s c ∧ c.phase ≠ .closed ∧ c.phase = .idle ∧ c.outPos = c.outCount) ∧
    (∃ (s : State) (c : Context), Serves s c ∧ c.phase ≠ .closed ∧ c.phase ≠ .idle) ∧
    ∃ (s : State) (c : Context), Serves s c ∧ c.phase = .idle ∧ c.outPos ≠ c.outCount ∧
    Cells.get? c.buf c.outPos = some (-14) :=
  ⟨⟨stateOf .reset, _, ⟨rfl, rfl, rfl⟩, rfl⟩, ⟨stateOf (ctxIn .idle 0 1 1 0), _, ⟨rfl, rfl, rfl⟩, by decide⟩,
    ⟨stateOf (ctxIn .failed 0 1 1 0), _, ⟨rfl, rfl, rfl⟩, by decide⟩,
    ⟨stateOf { ctxIn .idle 2 1 0 0 with buf := [(0, -14)], outCount := 1 }, _, ⟨rfl, rfl, rfl⟩, by decide⟩⟩

/-- FILLING; the end of the stream; a block to decode. -/
theorem test_witness_FillAgreesWithTheFineGrainedCommands :
    (∃ (s : State) (c : Context), Serves s c ∧ ¬ Startable c) ∧ (∃ (s : State) (c : Context), Serves s c ∧
    Startable c ∧ c.remaining = 0) ∧
    ∃ (s : State) (c : Context), Serves s c ∧ Startable c ∧ c.remaining ≠ 0 :=
  ⟨⟨stateOf (ctxIn .filling 0 1 1 0), _, ⟨rfl, rfl, rfl⟩, by simp [Startable, ctxIn]⟩,
    ⟨stateOf (ctxIn .idle 0 1 0 0), _, ⟨rfl, rfl, rfl⟩, .inl ⟨rfl, rfl⟩, rfl⟩,
    ⟨stateOf (ctxIn .failed 0 1 1 0), _, ⟨rfl, rfl, rfl⟩, .inr rfl, by decide⟩⟩

/-- The stream position right behind the last byte. -/
theorem test_witness_FillFromAnExhaustedSource : ∃ (s : State) (c : Context), Serves s c ∧ Startable c ∧
    c.remaining ≠ 0 ∧
    8 * c.source.length = c.bitPos ∧ c.L = 0 ∧ c.S = 1 :=
  ⟨stateOf { ctxIn .idle 0 4 4 0 with source := [0xFF], bitPos := 8 }, _, ⟨rfl, rfl, rfl⟩, .inl ⟨rfl, rfl⟩, by decide⟩

theorem test_witness_PopsAreBoundedByTheBudget : ∃ (s : State) (t : State) (c : Context) (c' : Context), Serves s c ∧
    c.cursors ∧ exec .pop s = .next t ∧
    t.contexts[s.ctx]? = some c' ∧ c'.fault = none ∧ c'.refused = false ∧ ∃ d, t.resp = some (.status .ok d) :=
  ⟨stateOf { ctxIn .idle 0 1 0 0 with buf := [(0, 7)], outCount := 1 }, _, _, _, ⟨rfl, rfl, rfl⟩,
    by unfold Context.cursors; decide, rfl, rfl, rfl, rfl, 7, by decide⟩

theorem test_witness_ExhaustedContextReadsNothing : ∃ (s : State) (c : Context), Serves s c ∧ c.phase = .idle ∧
    c.outPos = c.outCount ∧
    c.remaining = 0 := ⟨stateOf (ctxIn .idle 0 1 0 0), _, ⟨rfl, rfl, rfl⟩, rfl, rfl, rfl⟩

/-- Open already; the largest block on a buffer one word short, and on one it fits; with no context open,
    and with one. -/
theorem test_witness_OpenSetsTheGeometry :
    (∃ (s : State) (c : Context), Serves s c ∧ c.phase ≠ .closed) ∧
    (∃ (s : State) (c : Context), Serves s c ∧ c.phase = .closed ∧
      s.cfg.maxBlockWords + 1 = (4095 : BitVec 12).toNat * 2 ^ (15 : BitVec 4).toNat) ∧
    (∃ (s : State) (c : Context), Serves s c ∧ c.phase = .closed ∧
      (4095 : BitVec 12).toNat * 2 ^ (15 : BitVec 4).toNat = s.cfg.maxBlockWords ∧ s.lut.openCount = 0) ∧
    ∃ (s : State) (c : Context), Serves s c ∧ c.phase = .closed ∧ (0 : BitVec 12).toNat * 2 ^ (0 :
    BitVec 4).toNat ≤ s.cfg.maxBlockWords ∧
      s.lut.openCount ≠ 0 :=
  ⟨⟨stateOf (ctxIn .idle 0 1 1 0), _, ⟨rfl, rfl, rfl⟩, by decide⟩,
    ⟨.resetWith { Config.standard with maxBlockWords := 134184959 }, _, ⟨rfl, rfl, rfl⟩, by decide⟩,
    ⟨.reset, _, ⟨rfl, rfl, rfl⟩, by decide⟩, ⟨stateOf .reset, _, ⟨rfl, rfl, rfl⟩, by decide⟩⟩

/-- The last open context; the last but one; closed already. -/
theorem test_witness_CloseReleasesTheLut :
    (∃ (s : State) (c : Context), Serves s c ∧ c.phase ≠ .closed ∧ s.lut.openCount = 1) ∧
    (∃ (s : State) (c : Context), Serves s c ∧ c.phase ≠ .closed ∧ s.lut.openCount = 2) ∧ ∃ (s : State) (c :
    Context), Serves s c ∧ c.phase = .closed :=
  ⟨⟨stateOf (ctxIn .idle 0 1 1 0), _, ⟨rfl, rfl, rfl⟩, by decide⟩,
    ⟨{ stateOf (ctxIn .idle 0 1 1 0) with lut := (tableOf 0 3).acquire }, _, ⟨rfl, rfl, rfl⟩, by decide⟩,
    ⟨stateOf .reset, _, ⟨rfl, rfl, rfl⟩, rfl⟩⟩

/-- A state for the invariants: context 0 is filling the second subband of a block of L = 1 and R = 1 with a row of
state in PREV, and a command waits on the port. -/
def busy : State :=
  { State.reset with
    port := [⟨0, 0x3⟩]
    contexts := [{ ctxIn .filling 1 1 4 1 with buf := [(0, -3)], prev := [(0, 0x00070005)] }, .reset]
    lut := tableOf 0 3 }

theorem busy_steps : ∃ (t : State), step busy = .next t := ⟨_, rfl⟩

/-- What holds of context 0 of `busy` holds of all its live contexts. -/
theorem busy_contexts (P : Context → Prop)
    (h : P { ctxIn .filling 1 1 4 1 with buf := [(0, -3)], prev := [(0, 0x00070005)] }) :
    ∀ c ∈ busy.contexts, c.live → P c := by
  intro c hc hl
  simp only [busy, List.mem_cons, List.not_mem_nil, or_false] at hc
  rcases hc with rfl | rfl
  · exact h
  · exact absurd rfl hl.1

theorem test_witness_ReferenceCountKept : busy.refCounted ∧ ∃ (t : State), step busy = .next t :=
  ⟨⟨rfl, by decide, by decide⟩, busy_steps⟩

theorem test_witness_MemoryFormKept : Memory.wf busy ∧ ∃ (t : State), step busy = .next t := ⟨by decide, busy_steps⟩

theorem test_witness_GeometryAndCursorsKept : busy.shaped ∧ ∃ (t : State), step busy = .next t :=
  ⟨busy_contexts _ (by unfold Context.geometry Context.cursors; decide), busy_steps⟩

theorem test_witness_WrittenWordsKept : busy.filled ∧ ∃ (t : State), step busy = .next t := by
  refine ⟨busy_contexts _ ⟨by unfold Context.geometry; decide, by unfold Context.cursors; decide,
    fun _ sb hsb r hr => ?_,
    fun h => by cases h⟩, busy_steps⟩
  obtain rfl : sb = 0 := Nat.lt_one_iff.1 hsb
  obtain rfl : r = 0 := Nat.lt_one_iff.1 hr
  exact ⟨-3, by decide, by unfold inSampleRange; decide⟩

theorem test_witness_IndexRangesKept : busy.bounded ∧ ∃ (t : State), step busy = .next t :=
  ⟨busy_contexts _ (by unfold Context.geometry Context.cursors Context.inBounds; decide), busy_steps⟩

theorem test_witness_WindowStaysWritten : busy.lut.windowWritten ∧ ∃ (t : State), step busy = .next t := by
  refine ⟨⟨fun k hk => ?_, by decide⟩, busy_steps⟩
  obtain ⟨h1, h2⟩ : -1 ≤ k ∧ k ≤ 0 := by
    have : (decide (-1 ≤ k) && decide (k ≤ 0)) = true := hk
    simpa using this
  interval_cases k <;> decide

end Sys2Proof.Tests
end

section
/-! SUPPORT. Every command as a body behind one gate, and every step as one such command: the two facts by which a
statement about all commands or all steps becomes one about the command bodies (R12, R306). -/

namespace Sys2Proof.Machine

open Sys2Proof

/-- What a command does once the checks of R306 are passed. Only the BANDs reach the last arm, which runs their
dispatch on the format code. -/
def commandBody (i : Instr) : Work → Work × Response :=
  match i with
  | .scale e x => scaleCommand e x
  | .lookup idx => lookupCommand idx
  | .untransform => untransformCommand
  | .pop => popCommand
  | .fill => fillCommand
  | .openCtx L R total => openCommand L R total
  | .closeCtx => closeCommand
  | i => bandCommand (bandDispatch (i.bandCode.getD 0))

/-- Every command passes the one gate and then runs its body. -/
theorem exec_eq_runCommand (i : Instr) (s : State) : exec i s = .next (runCommand s (commandBody i)) := by
  cases i <;> rfl

/-- What holds of the eight kinds of command body holds of every command's. -/
theorem commandBody_cases {P : (Work → Work × Response) → Prop} (scale : ∀ e x, P (scaleCommand e x))
    (lookup : ∀ idx, P (lookupCommand idx)) (band : ∀ code, P (bandCommand (bandDispatch code)))
    (untransform : P untransformCommand) (pop : P popCommand) (fill : P fillCommand)
    (openCtx : ∀ L R total, P (openCommand L R total)) (closeCtx : P closeCommand) (i : Instr) :
    P (commandBody i) := by
  cases i with
  | scale e x => exact scale e x
  | lookup idx => exact lookup idx
  | untransform => exact untransform
  | pop => exact pop
  | fill => exact fill
  | openCtx L R total => exact openCtx L R total
  | closeCtx => exact closeCtx
  | _ => exact band _

/-- Every command gets a response (R300). -/
theorem runCommand_answers (s : State) (body : Work → Work × Response) : ∃ r, (runCommand s body).resp = some r := by
  rcases runCommand_cases s body with ⟨-, h⟩ | ⟨_, _, -, -, h⟩ | ⟨_, -, -, -, h⟩ | ⟨_, -, -, -, h⟩ <;> rw [h] <;>
    exact ⟨_, rfl⟩

/-- A property of contexts that a command's body keeps, the command keeps: it reaches the addressed context only. -/
theorem runCommand_keepsContexts {P : Context → Prop} {s : State} {body : Work → Work × Response}
    (hbody : ∀ c, P c → P (body (s.work c)).1.c) (hs : ∀ c ∈ s.contexts, P c) :
    ∀ c ∈ (runCommand s body).contexts, P c := by
  rcases runCommand_cases s body with ⟨-, h⟩ | ⟨_, _, -, -, h⟩ | ⟨_, -, -, -, h⟩ | ⟨c, hc, -, -, h⟩ <;> rw [h]
  · exact hs
  · exact hs
  · exact hs
  · intro d hd
    rcases List.mem_or_eq_of_mem_set hd with hd | rfl
    · exact hs d hd
    · exact hbody c (hs c (List.mem_of_getElem? hc))

/-- Everything the command port can have to offer (R73, R95, R101). -/
theorem fetch_cases (s : State) :
    fetch s = .waiting ∨ (∃ ctx n, fetch s = .illegal (s.taken ctx n)) ∨
      ∃ i ctx n, fetch s = .command i (s.taken ctx n) := by
  unfold fetch
  split
  · exact .inl rfl
  · split
    · exact .inr (.inr ⟨_, _, _, rfl⟩)
    · exact .inl rfl
    · exact .inl rfl
    · exact .inr (.inl ⟨_, _, rfl⟩)
    · exact .inr (.inl ⟨_, _, rfl⟩)

/-- Everything a step can do: wait, turn a reserved encoding away, or run one command whole (R12, R101, R342). -/
theorem step_cases {s t : State} (h : step s = .next t) :
    t = s ∨ (∃ ctx n, t = illegalCommand (s.taken ctx n)) ∨
      ∃ i ctx n, t = runCommand (s.taken ctx n) (commandBody i) := by
  rcases fetch_cases s with hf | ⟨ctx, n, hf⟩ | ⟨i, ctx, n, hf⟩ <;> rw [step, hf] at h
  · cases h
    exact .inl rfl
  · cases h
    exact .inr (.inl ⟨ctx, n, rfl⟩)
  · cases (exec_eq_runCommand i _).symm.trans h
    exact .inr (.inr ⟨i, ctx, n, rfl⟩)

/-- No step writes the configuration (R6). -/
theorem step_cfg {s t : State} (h : step s = .next t) : t.cfg = s.cfg := by
  rcases step_cases h with rfl | ⟨ctx, n, rfl⟩ | ⟨i, ctx, n, rfl⟩
  · rfl
  · simp [illegalCommand]
  · simp

/-- A property of contexts under the machine's configuration that every command body keeps, every step keeps. -/
theorem step_keepsContexts {P : Config → Context → Prop}
    (hbody : ∀ i w, P w.cfg w.c → P w.cfg (commandBody i w).1.c) {s t : State} (hs : ∀ c ∈ s.contexts, P s.cfg c)
    (h : step s = .next t) : ∀ c ∈ t.contexts, P t.cfg c := by
  rw [step_cfg h]
  rcases step_cases h with rfl | ⟨ctx, n, rfl⟩ | ⟨i, ctx, n, rfl⟩
  · exact hs
  · exact runCommand_keepsContexts (s := s.taken ctx n) (fun _ hc => hc) hs
  · exact runCommand_keepsContexts (s := s.taken ctx n) (fun c hc => hbody i ((s.taken ctx n).work c) hc) hs

end Sys2Proof.Machine
end

section
/-! SUPPORT. What the commands' bodies can do where Machine/ says it by nested tests: one case lemma for each. -/

namespace Sys2Proof.Machine

open Sys2Proof

/-- LOOKUP reads only (R133). -/
theorem lookupCommand_work (idx : BitVec 17) (w : Work) : (lookupCommand idx w).1 = w := by
  unfold lookupCommand
  split
  · rfl
  · split <;> rfl

theorem Work.awaitsBand_iff (w : Work) :
    w.awaitsBand = true ↔ w.c.phase = .filling ∧ w.c.nextBand ≠ w.c.S.toNat := by
  simp [Work.awaitsBand, Work.inPhase]

theorem Work.phase_ne_closed_of_mayStartBlock {w : Work} (h : w.mayStartBlock = true) : w.c.phase ≠ .closed := by
  rcases w.mayStartBlock_iff.mp h with ⟨hp, -⟩ | hp <;> simp [hp]

/-- Everything UNTRANSFORM can do (R200). -/
theorem untransformCommand_cases (w : Work) :
    (w.c.phase = .filling ∧ w.c.nextBand = w.c.S.toNat ∧ untransformCommand w = (finishBlock w, .okay)) ∨
    untransformCommand w = (w, .bare .errState) := by
  by_cases h : w.c.phase = .filling ∧ w.c.nextBand = w.c.S.toNat
  · exact .inl ⟨h.1, h.2, by simp [untransformCommand, Work.inPhase, h]⟩
  · exact .inr (if_neg (by simpa [Work.inPhase] using h))

/-- Everything POP can do to the state (R240). -/
theorem popCommand_cases (w : Work) :
    (w.c.phase = .idle ∧ w.c.outPos ≠ w.c.outCount ∧
      (popCommand w).1 = { w with c := { w.c with outPos := w.c.outPos + 1 } }) ∨
    (popCommand w).1 = w := by
  by_cases hp : w.c.phase = .idle
  · by_cases hd : w.c.outPos = w.c.outCount
    · exact .inr (by simp [popCommand, Work.inPhase, Work.drained, hp, hd])
    · exact .inl ⟨hp, hd, by simp [popCommand, Work.inPhase, Work.drained, hp, hd]⟩
  · refine .inr ?_
    unfold popCommand
    split
    · rfl
    · simp [Work.inPhase, hp]

/-- Everything FILL can do (R242). -/
theorem fillCommand_cases (w : Work) :
    (w.mayStartBlock = true ∧ fillCommand w = fillBlock w) ∨ (fillCommand w).1 = w := by
  unfold fillCommand
  split
  · exact .inr rfl
  next hstart =>
    split
    · exact .inr rfl
    · exact .inl ⟨by simpa using hstart, rfl⟩

/-- Everything OPEN can do (R260). -/
theorem openCommand_cases (L : BitVec 4) (R : BitVec 12) (total : BitVec 32) (w : Work) :
    (w.c.phase = .closed ∧ blockWordsOf L R ≤ w.cfg.maxBlockWords ∧
      openCommand L R total w = ({ w with c := w.c.opened L R total, lut := w.lut.acquire }, .okay)) ∨
    (openCommand L R total w).1 = w := by
  unfold openCommand
  split
  · exact .inr rfl
  next hclosed =>
    split
    · exact .inr rfl
    next hfit => exact .inl ⟨by simpa [Work.inPhase] using hclosed, Nat.le_of_not_lt hfit, rfl⟩

/-- Everything CLOSE can do (R262, R264). -/
theorem closeCommand_cases (w : Work) :
    (w.c.phase = .closed ∧ closeCommand w = w.recordFault (.doubleClose w.ctx)) ∨
    (w.c.phase ≠ .closed ∧
      closeCommand w =
        ({ w with c := { w.c with phase := .closed, buf := [], prev := [] }, lut := w.lut.release }, .okay)) := by
  by_cases h : w.c.phase = .closed
  · exact .inl ⟨h, by simp [closeCommand, Work.inPhase, h]⟩
  · exact .inr ⟨h, by simp [closeCommand, Work.inPhase, h]⟩

/-- A band that answers OK has moved `next_band` on by one, in the phase and the geometry it found (R150). -/
theorem bandOutcome_okay {w : Work} {out : Work × Response} (h : bandOutcome w out) (hok : out.2 = .okay) :
    out.1.cfg = w.cfg ∧ out.1.c.phase = w.c.phase ∧ out.1.c.S = w.c.S ∧ out.1.c.nextBand = w.c.nextBand + 1 := by
  rcases h with ⟨w', hw, -, rfl⟩ | ⟨f, w', -, -, rfl⟩ | rfl | rfl
  · unfold Work.fillsTo at hw
    rw [hw]
    exact ⟨rfl, rfl, rfl, rfl⟩
  · cases hok
  · cases hok
  · cases hok

end Sys2Proof.Machine
end

section
/-! SUPPORT. The geometry and the cursors of a live context, kept by every command body (R7, R26, R28, R29, R261). -/

namespace Sys2Proof.Machine

open Sys2Proof

/-- What `State.shaped` asks of one context. -/
def Context.shape (cfg : Config) (c : Context) : Prop := c.live → c.geometry cfg ∧ c.cursors

theorem State.shaped_iff (s : State) : s.shaped ↔ ∀ c ∈ s.contexts, c.shape s.cfg := Iff.rfl

/-! ### The geometry fits its registers (R26, R261) -/

theorem subbandsOf_le (L : BitVec 4) : subbandsOf L ≤ 32768 := pow_le_32768 L

theorem blockWordsOf_lt (L : BitVec 4) (R : BitVec 12) : blockWordsOf L R < 2 ^ 27 :=
  calc R.toNat * subbandsOf L ≤ 4095 * 32768 :=
        Nat.mul_le_mul (Nat.le_of_lt_succ R.isLt) (subbandsOf_le L)
    _ < 2 ^ 27 := by decide

theorem chunkRowsOf_lt (L : BitVec 4) : chunkRowsOf L < 2 ^ 11 := by
  have := Nat.div_le_self 2048 (subbandsOf L)
  unfold chunkRowsOf
  omega

/-- OPEN derives a geometry from L and R whose registers hold it, when the block fits. -/
theorem Context.opened_geometry (c : Context) {cfg : Config} {L : BitVec 4} {R : BitVec 12} (total : BitVec 32)
    (hfit : blockWordsOf L R ≤ cfg.maxBlockWords) : (c.opened L R total).geometry cfg := by
  have hS : subbandsOf L < 2 ^ 16 := (subbandsOf_le L).trans_lt (by decide)
  have hBW := blockWordsOf_lt L R
  have hT := chunkRowsOf_lt L
  have hwords : (c.opened L R total).BW.toNat = blockWordsOf L R := Nat.mod_eq_of_lt hBW
  exact ⟨Nat.mod_eq_of_lt hS, hwords, Nat.mod_eq_of_lt hT, hwords.trans_le hfit⟩

theorem Context.opened_cursors (c : Context) (L : BitVec 4) (R : BitVec 12) (total : BitVec 32) :
    (c.opened L R total).cursors := by
  simp [Context.cursors]

/-! ### Each command body

A context that is not live, because it is marked or CLOSED, is asked nothing. -/

theorem Context.shape_of_fault {cfg : Config} {c : Context} {f : FaultRecord} (h : c.fault = some f) : c.shape cfg :=
  fun ⟨_, hf, _⟩ => by simp [h] at hf

theorem Context.shape_of_refused {cfg : Config} {c : Context} (h : c.refused = true) : c.shape cfg :=
  fun ⟨_, _, hr⟩ => by simp [h] at hr

theorem Context.shape_of_closed {cfg : Config} {c : Context} (h : c.phase = .closed) : c.shape cfg :=
  fun ⟨hp, _, _⟩ => absurd h hp

/-- A build starts a block: every cursor is 0 (R29, R130). -/
theorem scaleBuild_shape (e : BitVec 4) (x : BitVec 16) {w : Work} (hp : w.c.phase ≠ .closed)
    (h : w.c.shape w.cfg) : (scaleBuild e x w).c.shape w.cfg := fun ⟨_, hf, hr⟩ =>
  ⟨(h ⟨hp, hf, hr⟩).1, Nat.zero_le _, Nat.le_refl _, Nat.zero_le _, fun _ => ⟨rfl, rfl⟩⟩

/-- The end of a block: what it puts out is at most the block's words (R200). -/
theorem finishBlock_shape {w : Work} (hp : w.c.phase ≠ .closed) (h : w.c.shape w.cfg) :
    (finishBlock w).c.shape w.cfg := fun ⟨_, hf, hr⟩ => by
  obtain ⟨hgeo, hband, -, -, -⟩ := h ⟨hp, hf, hr⟩
  exact ⟨hgeo, hband, Nat.zero_le _, Nat.min_le_left _ _, by simp⟩

/-- A band that is expected keeps the shape: `next_band` has not reached S before it (R28, R150). -/
theorem bandOutcome_shape {w : Work} {out : Work × Response} (h : bandOutcome w out) (hp : w.c.phase = .filling)
    (hne : w.c.nextBand ≠ w.c.S.toNat) (hs : w.c.shape w.cfg) : out.1.c.shape w.cfg := by
  have hopen : w.c.phase ≠ .closed := by simp [hp]
  rcases h with ⟨w', hw, -, rfl⟩ | ⟨f, w', -, -, rfl⟩ | rfl | rfl
  · unfold Work.fillsTo at hw
    rw [hw]
    intro ⟨_, hf, hr⟩
    obtain ⟨hgeo, hband, hout⟩ := hs ⟨hopen, hf, hr⟩
    exact ⟨hgeo, Nat.lt_of_le_of_ne hband hne, hout⟩
  · exact Context.shape_of_fault (w'.takeFault_c_fault f)
  · exact Context.shape_of_refused w.takeRefusal_c_refused
  · intro ⟨_, hf, hr⟩
    obtain ⟨hgeo, hband, hpos, hcount, hzero⟩ := hs ⟨hopen, hf, hr⟩
    exact ⟨hgeo, hband, hpos, hcount, fun _ => hzero (.inl hp)⟩

theorem scaleCommand_shape (e : BitVec 4) (x : BitVec 16) {w : Work} (h : w.c.shape w.cfg) :
    (scaleCommand e x w).1.c.shape w.cfg := by
  rcases scaleCommand_cases e x w with ⟨hstart, hw⟩ | ⟨-, hw⟩ <;> rw [hw]
  · exact scaleBuild_shape e x (Work.phase_ne_closed_of_mayStartBlock hstart) h
  · exact h

theorem bandCommand_shape (code : BitVec 5) {w : Work} (h : w.c.shape w.cfg) :
    (bandCommand (bandDispatch code) w).1.c.shape w.cfg := by
  unfold bandCommand
  split
  next hawaits =>
    obtain ⟨hp, hne⟩ := w.awaitsBand_iff.mp hawaits
    exact bandOutcome_shape (bandDispatch_outcome code w) hp hne h
  · exact h

theorem untransformCommand_shape {w : Work} (h : w.c.shape w.cfg) : (untransformCommand w).1.c.shape w.cfg := by
  rcases untransformCommand_cases w with ⟨hp, -, hw⟩ | hw <;> rw [hw]
  · exact finishBlock_shape (by simp [hp]) h
  · exact h

theorem popCommand_shape {w : Work} (h : w.c.shape w.cfg) : (popCommand w).1.c.shape w.cfg := by
  rcases popCommand_cases w with ⟨hp, hne, hw⟩ | hw <;> rw [hw]
  · intro hl
    obtain ⟨hgeo, hband, hpos, hcount, -⟩ := h hl
    exact ⟨hgeo, hband, Nat.lt_of_le_of_ne hpos hne, hcount, by simp [hp]⟩
  · exact h

/-- FILL's loop, with as many bands left as columns are unwritten (R242). -/
theorem fillBands_shape (n : Nat) {w : Work} (hp : w.c.phase = .filling) (hleft : w.c.nextBand + n = w.c.S.toNat)
    (h : w.c.shape w.cfg) : (fillBands n w).1.c.shape w.cfg := by
  induction n generalizing w with
  | zero => exact finishBlock_shape (by simp [hp]) h
  | succ n ih =>
    have hband := bandDispatch_outcome (BitVec.ofNat 5 (w.take 5).1) (w.take 5).2
    have hkept := bandOutcome_shape hband hp (by simp; omega) h
    simp only [fillBands]
    split
    next hok =>
      obtain ⟨hcfg, hphase, hS, hnext⟩ := bandOutcome_okay hband hok
      have hih := ih (hphase.trans hp) (by rw [hnext, hS]; simp; omega) (hcfg ▸ hkept)
      rw [hcfg] at hih
      exact hih
    · exact hkept

theorem fillCommand_shape {w : Work} (h : w.c.shape w.cfg) : (fillCommand w).1.c.shape w.cfg := by
  rcases fillCommand_cases w with ⟨hstart, hw⟩ | hw <;> rw [hw]
  · exact fillBands_shape _ rfl (Nat.zero_add _)
      (scaleBuild_shape _ _ (w := (w.skip 4).skip 16) (Work.phase_ne_closed_of_mayStartBlock hstart) h)
  · exact h

theorem openCommand_shape (L : BitVec 4) (R : BitVec 12) (total : BitVec 32) {w : Work} (h : w.c.shape w.cfg) :
    (openCommand L R total w).1.c.shape w.cfg := by
  rcases openCommand_cases L R total w with ⟨-, hfit, hw⟩ | hw <;> rw [hw]
  · exact fun _ => ⟨w.c.opened_geometry total hfit, w.c.opened_cursors L R total⟩
  · exact h

theorem closeCommand_shape (w : Work) : (closeCommand w).1.c.shape w.cfg := by
  rcases closeCommand_cases w with ⟨-, hw⟩ | ⟨-, hw⟩ <;> rw [hw]
  · exact Context.shape_of_fault (w.recordFault_c_fault _)
  · exact Context.shape_of_closed rfl

/-- Every command body keeps the shape of the context it works on. -/
theorem commandBody_shape (i : Instr) : ∀ w : Work, w.c.shape w.cfg → (commandBody i w).1.c.shape w.cfg :=
  commandBody_cases (P := fun body => ∀ w : Work, w.c.shape w.cfg → (body w).1.c.shape w.cfg)
    (scale := fun e x _ h => scaleCommand_shape e x h)
    (lookup := fun idx w h => by rwa [lookupCommand_work])
    (band := fun code _ h => bandCommand_shape code h)
    (untransform := fun _ h => untransformCommand_shape h)
    (pop := fun _ h => popCommand_shape h)
    (fill := fun _ h => fillCommand_shape h)
    (openCtx := fun L R total _ h => openCommand_shape L R total h)
    (closeCtx := fun w _ => closeCommand_shape w) i

end Sys2Proof.Machine
end

section
/-! The statements of the family 00_scope.md. -/

namespace Sys2Proof.Claims

open Sys2Proof Sys2Proof.Machine

/-- Settles O51: every command body keeps the shape of its context, and a step is one command. -/
theorem geometryAndCursorsKept : Obligations.GeometryAndCursorsKept :=
  fun s t hs h => t.shaped_iff.mpr (step_keepsContexts commandBody_shape (s.shaped_iff.mp hs) h)

/-- Settles O7, from what the gate can do, since every command passes it. -/
theorem commandsAnswerAndTouchOneContext : Obligations.CommandsAnswerAndTouchOneContext := by
  intro i s
  obtain ⟨r, hr⟩ := runCommand_answers s (commandBody i)
  exact ⟨_, r, exec_eq_runCommand i s, hr, runCommand_cfg .., runCommand_port .., runCommand_ctx ..,
    runCommand_length .., fun _ hj => runCommand_otherContext s _ hj⟩

end Sys2Proof.Claims
end

section
/-! SUPPORT. What the gate lets a command see and change: the marks of R33, and nothing of the other contexts (R20,
R305, R306). -/

namespace Sys2Proof.Machine

open Sys2Proof

/-- The addressed context after a command that ran is the one its body left. -/
theorem State.commit_addressed {s : State} {c : Context} (h : s.contexts[s.ctx]? = some c) (w : Work) (r : Response) :
    (s.commit w r).contexts[s.ctx]? = some w.c := by
  obtain ⟨hlt, -⟩ := List.getElem?_eq_some_iff.mp h
  simp [hlt]

/-- A command finds an unmarked context or leaves the context as it is, so it clears no mark (R33, R305). -/
theorem runCommand_keepsMarks (s : State) (body : Work → Work × Response) {j : Nat} {c : Context}
    (hj : s.contexts[j]? = some c) :
    ∃ c', (runCommand s body).contexts[j]? = some c' ∧ (∀ f, c.fault = some f → c'.fault = some f) ∧
      (c.refused = true → c'.refused = true) := by
  by_cases hctx : j = s.ctx
  · subst hctx
    rcases runCommand_cases s body with ⟨-, h⟩ | ⟨_, _, -, -, h⟩ | ⟨_, -, -, -, h⟩ | ⟨d, hd, hf, hr, h⟩ <;> rw [h]
    · exact ⟨c, hj, fun _ => id, id⟩
    · exact ⟨c, hj, fun _ => id, id⟩
    · exact ⟨c, hj, fun _ => id, id⟩
    · obtain rfl : c = d := Option.some.inj (hj.symm.trans hd)
      exact ⟨_, s.commit_addressed hd _ _, by simp [hf], by simp [hr]⟩
  · exact ⟨c, by rwa [runCommand_otherContext s body hctx], fun _ => id, id⟩

/-- Two states agree on all that a command can read (R20, R316). -/
structure State.AgreeForCommand (a b : State) : Prop where
  cfg : a.cfg = b.cfg
  ctx : a.ctx = b.ctx
  lut : a.lut = b.lut
  draws : a.draws = b.draws
  addressed : a.contexts[a.ctx]? = b.contexts[b.ctx]?

theorem State.AgreeForCommand.work_eq {a b : State} (h : a.AgreeForCommand b) (c : Context) : a.work c = b.work c := by
  simp only [State.work, h.cfg, h.ctx, h.lut, h.draws]

/-- A command answers by what it can read, and leaves the same in what it can write. -/
theorem runCommand_agree {a b : State} (h : a.AgreeForCommand b) (body : Work → Work × Response) :
    (runCommand a body).resp = (runCommand b body).resp ∧ (runCommand a body).lut = (runCommand b body).lut ∧
      (runCommand a body).draws = (runCommand b body).draws ∧
      (runCommand a body).contexts[a.ctx]? = (runCommand b body).contexts[b.ctx]? := by
  rcases runCommand_cases a body with ⟨hc, e⟩ | ⟨c, f, hc, hf, e⟩ | ⟨c, hc, hf, hr, e⟩ | ⟨c, hc, hf, hr, e⟩ <;>
    have hb := h.addressed.symm.trans hc <;> rw [e]
  · rw [runCommand_noContext hb]
    exact ⟨rfl, h.lut, h.draws, h.addressed⟩
  · rw [runCommand_faulted hb hf]
    exact ⟨rfl, h.lut, h.draws, h.addressed⟩
  · rw [runCommand_refused hb hf hr]
    exact ⟨rfl, h.lut, h.draws, h.addressed⟩
  · rw [runCommand_runs hb hf hr, h.work_eq c, a.commit_addressed hc, b.commit_addressed hb]
    exact ⟨rfl, rfl, rfl, rfl⟩

/-- With a whole command at the front of the port, that command is fetched, and its words are taken (R73, R95). -/
theorem fetch_eq_command {s : State} {p : PortWord} {ps : List PortWord} {i : Instr} {rest : List Word}
    (hport : s.port = p :: ps) (hdec : decode (s.port.map PortWord.word) = .ok (i, rest)) :
    fetch s = .command i (s.taken p.ctx i.words) := by
  unfold fetch
  split
  next hnil => simp [hnil] at hport
  next q qs hcons =>
    obtain ⟨rfl, -⟩ := List.cons.inj (hcons.symm.trans hport)
    rw [hdec]

end Sys2Proof.Machine
end

section
/-! SUPPORT. What a command can do to the reference count of the shared LUT: leave the unit, build it, acquire it with
a context that opens, or release it with one that closes (R23, R130, R260, R262). -/

namespace Sys2Proof.Machine

open Sys2Proof

/-- What a command on one context can do to the LUT unit, with what it does to the context's phase. -/
inductive Work.LutOutcome (w w' : Work) : Prop where
  /-- The unit stays, and the context is open or closed as before. -/
  | kept (hlut : w'.lut = w.lut) (hphase : w'.c.phase = .closed ↔ w.c.phase = .closed)
  /-- An open context has built the unit and is still open (R130). -/
  | built (e : BitVec 4) (x : BitVec 16) (hlut : w'.lut = w.lut.build e x) (hbefore : w.c.phase ≠ .closed)
    (hafter : w'.c.phase ≠ .closed)
  /-- The context has been opened (R260). -/
  | opened (hlut : w'.lut = w.lut.acquire) (hbefore : w.c.phase = .closed) (hafter : w'.c.phase ≠ .closed)
  /-- The context has been closed (R262). -/
  | closed (hlut : w'.lut = w.lut.release) (hbefore : w.c.phase ≠ .closed) (hafter : w'.c.phase = .closed)

theorem Work.LutOutcome.refl (w : Work) : w.LutOutcome w := .kept rfl Iff.rfl

/-! ### Each command body -/

/-- A band rule only reads the LUT (R23). -/
theorem bandOutcome_lut {w : Work} {out : Work × Response} (h : bandOutcome w out) : out.1.lut = w.lut := by
  rcases h with ⟨w', hw, -, rfl⟩ | ⟨f, w', hw, -, rfl⟩ | rfl | rfl
  · rw [hw]
  · rw [Work.takeFault_lut, hw]
  · rfl
  · rfl

/-- A band rule moves the phase at most to FAILED (R150). -/
theorem bandOutcome_phase_ne_closed {w : Work} {out : Work × Response} (h : bandOutcome w out)
    (hp : w.c.phase ≠ .closed) : out.1.c.phase ≠ .closed := by
  rcases h with ⟨w', hw, -, rfl⟩ | ⟨f, w', hw, -, rfl⟩ | rfl | rfl
  · rwa [hw]
  · rwa [Work.takeFault_c_phase, hw]
  · exact hp
  · simp

theorem fillBands_lut (n : Nat) (w : Work) : (fillBands n w).1.lut = w.lut := by
  induction n generalizing w with
  | zero => rfl
  | succ n ih =>
    have hband := bandOutcome_lut (bandDispatch_outcome (BitVec.ofNat 5 (w.take 5).1) (w.take 5).2)
    simp only [fillBands]
    split
    · exact (ih _).trans hband
    · exact hband

theorem fillBands_phase_ne_closed (n : Nat) {w : Work} (hp : w.c.phase ≠ .closed) :
    (fillBands n w).1.c.phase ≠ .closed := by
  induction n generalizing w with
  | zero => simp [fillBands]
  | succ n ih =>
    have hband := bandOutcome_phase_ne_closed
      (bandDispatch_outcome (BitVec.ofNat 5 (w.take 5).1) (w.take 5).2) hp
    simp only [fillBands]
    split
    · exact ih hband
    · exact hband

theorem scaleCommand_lutOutcome (e : BitVec 4) (x : BitVec 16) (w : Work) :
    w.LutOutcome (scaleCommand e x w).1 := by
  rcases scaleCommand_cases e x w with ⟨hstart, hw⟩ | ⟨-, hw⟩ <;> rw [hw]
  · exact .built e x rfl (Work.phase_ne_closed_of_mayStartBlock hstart) (by simp)
  · exact .refl w

theorem bandCommand_lutOutcome (code : BitVec 5) (w : Work) :
    w.LutOutcome (bandCommand (bandDispatch code) w).1 := by
  unfold bandCommand
  split
  next hawaits =>
    have hband := bandDispatch_outcome code w
    have hopen : w.c.phase ≠ .closed := by simp [(w.awaitsBand_iff.mp hawaits).1]
    exact .kept (bandOutcome_lut hband) (iff_of_false (bandOutcome_phase_ne_closed hband hopen) hopen)
  · exact .refl w

theorem untransformCommand_lutOutcome (w : Work) : w.LutOutcome (untransformCommand w).1 := by
  rcases untransformCommand_cases w with ⟨hp, -, hw⟩ | hw <;> rw [hw]
  · exact .kept rfl (by simp [hp])
  · exact .refl w

theorem popCommand_lutOutcome (w : Work) : w.LutOutcome (popCommand w).1 := by
  rcases popCommand_cases w with ⟨-, -, hw⟩ | hw <;> rw [hw]
  · exact .kept rfl Iff.rfl
  · exact .refl w

/-- FILL's only build is its SCALE (R242). -/
theorem fillCommand_lutOutcome (w : Work) : w.LutOutcome (fillCommand w).1 := by
  rcases fillCommand_cases w with ⟨hstart, hw⟩ | hw <;> rw [hw]
  · exact .built _ _ (fillBands_lut _ _) (Work.phase_ne_closed_of_mayStartBlock hstart)
      (fillBands_phase_ne_closed _ (by simp))
  · exact .refl w

theorem openCommand_lutOutcome (L : BitVec 4) (R : BitVec 12) (total : BitVec 32) (w : Work) :
    w.LutOutcome (openCommand L R total w).1 := by
  rcases openCommand_cases L R total w with ⟨hp, -, hw⟩ | hw <;> rw [hw]
  · exact .opened rfl hp (by simp)
  · exact .refl w

theorem closeCommand_lutOutcome (w : Work) : w.LutOutcome (closeCommand w).1 := by
  rcases closeCommand_cases w with ⟨-, hw⟩ | ⟨hp, hw⟩ <;> rw [hw]
  · exact .kept rfl Iff.rfl
  · exact .closed rfl hp rfl

/-- Everything a command's body can do to the LUT unit and to the count of open contexts. -/
theorem commandBody_lutOutcome (i : Instr) : ∀ w : Work, w.LutOutcome (commandBody i w).1 :=
  commandBody_cases (P := fun body => ∀ w : Work, w.LutOutcome (body w).1)
    (scale := scaleCommand_lutOutcome)
    (lookup := fun idx w => by rw [lookupCommand_work]; exact .refl w)
    (band := bandCommand_lutOutcome)
    (untransform := untransformCommand_lutOutcome)
    (pop := popCommand_lutOutcome)
    (fill := fillCommand_lutOutcome)
    (openCtx := openCommand_lutOutcome)
    (closeCtx := closeCommand_lutOutcome) i

/-! ### The count of open contexts -/

theorem openContexts_pos {cs : List Context} {c : Context} (h : c ∈ cs) (hp : c.phase ≠ .closed) :
    0 < openContexts cs :=
  List.length_pos_of_mem (List.mem_filter.mpr ⟨h, by simpa using hp⟩)

/-- Replacing one context changes the count by whether it was open and whether the new one is. -/
theorem openContexts_set {cs : List Context} {i : Nat} {c : Context} (h : cs[i]? = some c) (c' : Context) :
    openContexts (cs.set i c') =
      openContexts cs - (if c.phase ≠ .closed then 1 else 0) + if c'.phase ≠ .closed then 1 else 0 := by
  obtain ⟨hi, rfl⟩ := List.getElem?_eq_some_iff.mp h
  simp only [openContexts, ← List.countP_eq_length_filter, List.countP_set hi, decide_eq_true_eq]

theorem openContexts_set_same {cs : List Context} {i : Nat} {c c' : Context} (h : cs[i]? = some c)
    (hp : c'.phase = .closed ↔ c.phase = .closed) : openContexts (cs.set i c') = openContexts cs := by
  rw [openContexts_set h]
  by_cases hc : c.phase = .closed
  · simp [hp, hc]
  · have := openContexts_pos (List.mem_of_getElem? h) hc
    simp only [ne_eq, hp, hc, not_false_eq_true, if_true]
    omega

theorem openContexts_set_opened {cs : List Context} {i : Nat} {c c' : Context} (h : cs[i]? = some c)
    (hp : c.phase = .closed) (hp' : c'.phase ≠ .closed) : openContexts (cs.set i c') = openContexts cs + 1 := by
  simp [openContexts_set h, hp, hp']

theorem openContexts_set_closed {cs : List Context} {i : Nat} {c c' : Context} (h : cs[i]? = some c)
    (hp : c.phase ≠ .closed) (hp' : c'.phase = .closed) : openContexts (cs.set i c') = openContexts cs - 1 := by
  simp [openContexts_set h, hp, hp']

/-! ### The LUT unit under its reference count (R263) -/

/-- What `State.refCounted` asks of the LUT unit alone. -/
def LutUnit.held (u : LutUnit) : Prop :=
  (u.present = true ↔ 0 < u.openCount) ∧ (u.present = false → u.cells = [] ∧ u.e = none)

theorem State.refCounted_iff (s : State) :
    s.refCounted ↔ s.lut.openCount = openContexts s.contexts ∧ s.lut.held := Iff.rfl

/-- Storage that an open context holds is present, whatever its cells (R24). -/
theorem LutUnit.held_of_present {u : LutUnit} (hp : u.present = true) (hn : 0 < u.openCount) : u.held :=
  ⟨iff_of_true hp hn, fun h => by simp [hp] at h⟩

theorem LutUnit.build_held {u : LutUnit} (h : u.held) (hn : 0 < u.openCount) (e : BitVec 4) (x : BitVec 16) :
    (u.build e x).held :=
  LutUnit.held_of_present (h.1.mpr hn) hn

theorem LutUnit.acquire_held {u : LutUnit} (h : u.held) : u.acquire.held := by
  by_cases hn : u.openCount = 0
  · rw [LutUnit.acquire_fresh hn]
    exact LutUnit.held_of_present rfl Nat.one_pos
  · rw [LutUnit.acquire_shared hn]
    exact LutUnit.held_of_present (h.1.mpr (Nat.pos_of_ne_zero hn)) (Nat.succ_pos _)

theorem LutUnit.release_held {u : LutUnit} (h : u.held) (hn : 0 < u.openCount) : u.release.held := by
  by_cases hlast : u.openCount = 1
  · rw [LutUnit.release_last hlast]
    simp [LutUnit.held]
  · rw [LutUnit.release_shared (by omega)]
    exact LutUnit.held_of_present (h.1.mpr hn) (show 0 < u.openCount - 1 by omega)

/-- The gate keeps the reference count when the command's body changes the count with the unit. -/
theorem runCommand_refCounted {s : State} {body : Work → Work × Response}
    (hbody : ∀ w : Work, w.LutOutcome (body w).1) (hs : s.refCounted) : (runCommand s body).refCounted := by
  rcases runCommand_cases s body with ⟨-, h⟩ | ⟨_, _, -, -, h⟩ | ⟨_, -, -, -, h⟩ | ⟨c, hc, -, -, h⟩ <;> rw [h]
  · exact hs
  · exact hs
  · exact hs
  · obtain ⟨hcount, hheld⟩ := s.refCounted_iff.mp hs
    have hpos (hp : c.phase ≠ .closed) : 0 < s.lut.openCount :=
      hcount ▸ openContexts_pos (List.mem_of_getElem? hc) hp
    rw [State.refCounted_iff, State.commit_lut, State.commit_contexts]
    cases hbody (s.work c) with
    | kept hlut hphase =>
      rw [hlut, openContexts_set_same hc hphase]
      exact ⟨hcount, hheld⟩
    | built e x hlut hbefore hafter =>
      rw [hlut, openContexts_set_same hc (iff_of_false hafter hbefore)]
      exact ⟨hcount, LutUnit.build_held hheld (hpos hbefore) e x⟩
    | opened hlut hbefore hafter =>
      rw [hlut, openContexts_set_opened hc hbefore hafter, LutUnit.acquire_openCount]
      exact ⟨congrArg (· + 1) hcount, LutUnit.acquire_held hheld⟩
    | closed hlut hbefore hafter =>
      rw [hlut, openContexts_set_closed hc hbefore hafter, LutUnit.release_openCount]
      exact ⟨congrArg (· - 1) hcount, LutUnit.release_held hheld (hpos hbefore)⟩

end Sys2Proof.Machine
end

section
/-! SUPPORT. How many samples a context may still produce: no command but OPEN raises it (R27, R29, R244). -/

namespace Sys2Proof.Machine

open Sys2Proof

/-- A context that executes commands has a budget of at most `n`. -/
def Context.budgetAtMost (n : Nat) (c : Context) : Prop := c.fault = none → c.refused = false → c.budget ≤ n

theorem Context.budgetAtMost_self (c : Context) : c.budgetAtMost c.budget := fun _ _ => Nat.le_refl _

/-- A block that starts gives up what the output cursor had left (R29, R130). -/
theorem scaleBuild_budget_le (e : BitVec 4) (x : BitVec 16) (w : Work) :
    (scaleBuild e x w).c.budget ≤ w.c.budget := by
  simp [Context.budget, scaleBuild]

/-- A block that ends moves its output from `remaining` to the output cursor (R200). -/
theorem finishBlock_budget (w : Work) : (finishBlock w).c.budget = w.c.remaining.toNat := by
  have hout : blockOutput w.c ≤ w.c.remaining.toNat := Nat.min_le_right _ _
  have hfit : blockOutput w.c < 2 ^ 32 := hout.trans_lt w.c.remaining.isLt
  have hle : BitVec.ofNat 32 (blockOutput w.c) ≤ w.c.remaining := by
    rwa [BitVec.le_def, BitVec.toNat_ofNat, Nat.mod_eq_of_lt hfit]
  have hleft : (w.c.remaining - BitVec.ofNat 32 (blockOutput w.c)).toNat = w.c.remaining.toNat - blockOutput w.c := by
    rw [BitVec.toNat_sub_of_le hle, BitVec.toNat_ofNat, Nat.mod_eq_of_lt hfit]
  calc (finishBlock w).c.budget
      = (w.c.remaining - BitVec.ofNat 32 (blockOutput w.c)).toNat + (blockOutput w.c - 0) := rfl
    _ = w.c.remaining.toNat := by omega

theorem finishBlock_budget_le (w : Work) : (finishBlock w).c.budget ≤ w.c.budget :=
  (finishBlock_budget w).trans_le (Nat.le_add_right _ _)

/-- A band rule does not touch the budget, unless it marks the context. -/
theorem bandOutcome_budget {w : Work} {out : Work × Response} (h : bandOutcome w out) :
    out.1.c.budget = w.c.budget ∨ out.2 ≠ .okay ∧ (out.1.c.fault ≠ none ∨ out.1.c.refused = true) := by
  rcases h with ⟨w', hw, -, rfl⟩ | ⟨f, w', -, -, rfl⟩ | rfl | rfl
  · exact .inl (by rw [hw]; rfl)
  · exact .inr ⟨nofun, .inl nofun⟩
  · exact .inr ⟨nofun, .inr rfl⟩
  · exact .inl rfl

theorem bandOutcome_budgetAtMost {w : Work} {out : Work × Response} (h : bandOutcome w out) :
    out.1.c.budgetAtMost w.c.budget := fun hf hr => by
  rcases bandOutcome_budget h with heq | ⟨-, hmark⟩
  · exact heq.le
  · simp [hf, hr] at hmark

theorem fillBands_budgetAtMost (n : Nat) (w : Work) : (fillBands n w).1.c.budgetAtMost w.c.budget := by
  induction n generalizing w with
  | zero => exact fun _ _ => finishBlock_budget_le w
  | succ n ih =>
    have hband := bandDispatch_outcome (BitVec.ofNat 5 (w.take 5).1) (w.take 5).2
    simp only [fillBands]
    split
    next hok =>
      have heq := (bandOutcome_budget hband).resolve_right fun hne => hne.1 hok
      exact heq ▸ ih _
    · exact (bandOutcome_budgetAtMost hband :)

/-- POP answers OK only when it delivers the sample at the output cursor (R240). -/
theorem popCommand_ok {w : Work} {d : Half} (h : (popCommand w).2 = .status .ok d) :
    w.c.outPos ≠ w.c.outCount ∧ (popCommand w).1 = { w with c := { w.c with outPos := w.c.outPos + 1 } } := by
  unfold popCommand at h ⊢
  split at h
  · cases h
  · split at h
    · cases h
    next hready => simp_all [Work.drained]

theorem popCommand_budget {w : Work} {d : Half} (hcur : w.c.cursors) (h : (popCommand w).2 = .status .ok d) :
    (popCommand w).1.c.budget + 1 = w.c.budget := by
  obtain ⟨hne, hw⟩ := popCommand_ok h
  obtain ⟨-, hpos, -, -⟩ := hcur
  rw [hw]
  simp only [Context.budget]
  omega

/-- A command body that raises no budget, unless it marks the context. -/
def neverRaisesBudget (body : Work → Work × Response) : Prop := ∀ w, (body w).1.c.budgetAtMost w.c.budget

theorem popCommand_neverRaisesBudget : neverRaisesBudget popCommand := fun w _ _ => by
  rcases popCommand_cases w with ⟨-, -, hw⟩ | hw <;> rw [hw]
  simp only [Context.budget]
  omega

theorem scaleCommand_neverRaisesBudget (e : BitVec 4) (x : BitVec 16) : neverRaisesBudget (scaleCommand e x) := by
  intro w
  rcases scaleCommand_cases e x w with ⟨-, hw⟩ | ⟨-, hw⟩ <;> rw [hw]
  · exact fun _ _ => scaleBuild_budget_le e x w
  · exact w.c.budgetAtMost_self

theorem lookupCommand_neverRaisesBudget (idx : BitVec 17) : neverRaisesBudget (lookupCommand idx) := by
  intro w
  rw [lookupCommand_work]
  exact w.c.budgetAtMost_self

theorem bandCommand_neverRaisesBudget (code : BitVec 5) : neverRaisesBudget (bandCommand (bandDispatch code)) := by
  intro w
  unfold bandCommand
  split
  · exact bandOutcome_budgetAtMost (bandDispatch_outcome code w)
  · exact w.c.budgetAtMost_self

theorem untransformCommand_neverRaisesBudget : neverRaisesBudget untransformCommand := by
  intro w
  rcases untransformCommand_cases w with ⟨-, -, hw⟩ | hw <;> rw [hw]
  · exact fun _ _ => finishBlock_budget_le w
  · exact w.c.budgetAtMost_self

theorem fillCommand_neverRaisesBudget : neverRaisesBudget fillCommand := by
  intro w
  rcases fillCommand_cases w with ⟨-, hw⟩ | hw <;> rw [hw]
  · exact fun hf hr => (fillBands_budgetAtMost _ _ hf hr).trans (scaleBuild_budget_le _ _ ((w.skip 4).skip 16))
  · exact w.c.budgetAtMost_self

theorem closeCommand_neverRaisesBudget : neverRaisesBudget closeCommand := by
  intro w
  rcases closeCommand_cases w with ⟨-, hw⟩ | ⟨-, hw⟩ <;> rw [hw] <;>
    exact fun _ _ => Nat.le_refl _

/-- No command but OPEN raises a budget (R29, R244). -/
theorem commandBody_neverRaisesBudget {i : Instr} (hi : ∀ L R total, i ≠ .openCtx L R total) :
    neverRaisesBudget (commandBody i) := by
  cases i with
  | openCtx L R total => exact absurd rfl (hi L R total)
  | scale e x => exact scaleCommand_neverRaisesBudget e x
  | lookup idx => exact lookupCommand_neverRaisesBudget idx
  | untransform => exact untransformCommand_neverRaisesBudget
  | pop => exact popCommand_neverRaisesBudget
  | fill => exact fillCommand_neverRaisesBudget
  | closeCtx => exact closeCommand_neverRaisesBudget
  | _ => exact bandCommand_neverRaisesBudget _

end Sys2Proof.Machine
end

section
/-! The statements of the family 10_state.md. -/

namespace Sys2Proof.Claims

open Sys2Proof Sys2Proof.Machine

/-- Settles O49: every command body changes the LUT unit's count with its context's phase, and a step is one
command. -/
theorem referenceCountKept : Obligations.ReferenceCountKept := by
  intro s t hs h
  rcases step_cases h with rfl | ⟨ctx, n, rfl⟩ | ⟨i, ctx, n, rfl⟩
  · exact hs
  · exact runCommand_refCounted (s := s.taken ctx n) (fun w => .refl w) hs
  · exact runCommand_refCounted (s := s.taken ctx n) (commandBody_lutOutcome i) hs

/-- Settles O8, from what the gate lets a command see, since every command passes it. -/
theorem contextsAreIsolated : Obligations.ContextsAreIsolated := by
  intro i a b hcfg hctx hlut hdraws hc
  exact ⟨_, _, exec_eq_runCommand i a, exec_eq_runCommand i b,
    runCommand_agree ⟨hcfg, hctx, hlut, hdraws, hc⟩ (commandBody i)⟩

/-- Settles O10: a step is at most one command, and no command gets past the gate on a marked context. -/
theorem marksAreNeverCleared : Obligations.MarksAreNeverCleared := by
  intro s t j c h hj
  rcases step_cases h with rfl | ⟨ctx, n, rfl⟩ | ⟨i, ctx, n, rfl⟩
  · exact ⟨c, hj, fun _ => id, id⟩
  · exact runCommand_keepsMarks (s.taken ctx n) _ hj
  · exact runCommand_keepsMarks (s.taken ctx n) (commandBody i) hj

/-- Settles O44, from the budget each command body leaves. -/
theorem popsAreBoundedByTheBudget : Obligations.PopsAreBoundedByTheBudget := by
  intro i s t c c' ⟨hc, hf, hr⟩ hcur h hc' hf' hr' hi
  rw [exec_eq_runCommand, runCommand_runs hc hf hr] at h
  cases h
  rw [s.commit_addressed hc] at hc'
  cases hc'
  refine ⟨commandBody_neverRaisesBudget hi (s.work c) hf' hr', ?_⟩
  rintro rfl ⟨d, hd⟩
  exact popCommand_budget (w := s.work c) hcur (Option.some.inj hd)

/-- Settles O5, from what the port offers with a whole command at its front. -/
theorem stepRunsDecodedInstruction : Obligations.StepRunsDecodedInstruction := by
  intro s p ps i rest hport hdec
  rw [step, fetch_eq_command hport hdec]
  rfl

/-- Settles O9: every command passes the gate, which answers for a marked context. -/
theorem markedContextExecutesNothing : Obligations.MarkedContextExecutesNothing := by
  intro i s c hc
  rw [exec_eq_runCommand]
  exact ⟨fun f hf => by rw [runCommand_faulted hc hf]; rfl, fun hf hr => by rw [runCommand_refused hc hf hr]; rfl⟩

end Sys2Proof.Claims
end

section
/-! SUPPORT. The order of the stream's bits (R70), and where the stages' regions of PREV start (R64). -/

namespace Sys2Proof.Machine

open Sys2Proof

/-- Bit `j` of a take is the `j`-th bit taken (R10, R70). -/
theorem streamBits_testBit (bytes : List Byte) (p n : Nat) {j : Nat} (hj : j < n) :
    (streamBits bytes p n).testBit j = streamBit bytes (p + j) := by
  induction n generalizing p j with
  | zero => omega
  | succ n ih =>
    have hbit : (streamBit bytes p).toNat ≤ 1 := Bool.toNat_le _
    cases j with
    | zero =>
      rw [streamBits, Nat.testBit_zero, Nat.add_mul_mod_self_left]
      cases streamBit bytes p <;> rfl
    | succ j =>
      have hhalf : streamBits bytes p (n + 1) / 2 = streamBits bytes (p + 1) n := by
        rw [streamBits]
        omega
      rw [Nat.testBit_succ, hhalf, ih (p + 1) (by omega), Nat.add_right_comm, Nat.add_assoc]

/-- Stream bit 8·j + b is bit b of byte j (R70). -/
theorem streamBit_byte (bytes : List Byte) (j : Nat) {b : Nat} (hb : b < 8) :
    streamBit bytes (8 * j + b) = (bytes.getD j 0).getLsbD b := by
  rw [streamBit, show (8 * j + b) / 8 = j by omega, show (8 * j + b) % 8 = b by omega]

/-- Where the region of stage i + 1 starts: `2 ^ m` is the S/2^i of R64. -/
theorem stageRegion_start {L i m : Nat} (h : L = m + i) :
    (stageRegion (2 ^ L) (i + 1)).start = 3 * 2 ^ L / 2 - 2 ^ m := by
  subst h
  rw [stageRegion, Nat.add_sub_cancel, Nat.pow_add, Nat.mul_div_cancel _ (Nat.two_pow_pos i)]

end Sys2Proof.Machine
end

section
/-! SUPPORT. What a command that passes the gate does, for SCALE and LOOKUP where they run, and what a build leaves to
read in its window (R130, R133). -/

namespace Sys2Proof.Machine

open Sys2Proof

/-- A command that changed nothing only answers. -/
theorem State.commit_work {s : State} {c : Context} (h : s.contexts[s.ctx]? = some c) (r : Response) :
    s.commit (s.work c) r = s.respond r := by
  obtain ⟨hlt, rfl⟩ := List.getElem?_eq_some_iff.mp h
  simp only [State.commit, State.respond, State.work, List.set_getElem_self]

/-- A command on a context that executes commands does what its body does. -/
theorem exec_of_body {i : Instr} {s : State} {c : Context} (h : Claims.Serves s c) {w : Work} {r : Response}
    (hbody : commandBody i (s.work c) = (w, r)) : exec i s = .next (s.commit w r) := by
  obtain ⟨hc, hf, hr⟩ := h
  rw [exec_eq_runCommand, runCommand_runs hc hf hr, hbody]

/-- What SCALE does where it may start a block (R130). -/
theorem exec_scale_builds {s : State} {c : Context} (h : Claims.Serves s c) (hstart : Claims.Startable c)
    (e : BitVec 4) (x : BitVec 16) :
    exec (.scale e x) s = .next (s.commit (scaleBuild e x (s.work c)) .okay) := by
  have hbody : scaleCommand e x (s.work c) = (scaleBuild e x (s.work c), .okay) := by
    simp only [scaleCommand, (s.work c).mayStartBlock_iff.mpr hstart, if_true]
  exact exec_of_body h hbody

/-- What LOOKUP answers in an open context, inside the window (R133). -/
theorem exec_lookup_inWindow {s : State} {c : Context} (h : Claims.Serves s c) (hp : c.phase ≠ .closed)
    {idx : BitVec 17} (hin : s.lut.inWindow idx.toInt = true) :
    exec (.lookup idx) s = .next (s.respond (.status .ok (s.lut.windowCell idx.toInt))) := by
  have hbody : lookupCommand idx (s.work c) = (s.work c, .status .ok (s.lut.windowCell idx.toInt)) := by
    simp [lookupCommand, Work.inPhase, hp, hin]
  rw [exec_of_body (i := .lookup idx) h hbody, State.commit_work h.1]

/-- A build writes k·s at every index k of its window (R130). -/
theorem LutUnit.read?_build (u : LutUnit) {e : BitVec 4} (x : BitVec 16) {k : Int}
    (h : (u.build e x).inWindow k = true) : (u.build e x).read? k = some (trunc16 (k * x.toNat)) := by
  obtain ⟨e', he, hlo, hhi⟩ := (LutUnit.inWindow_iff _ k).mp h
  obtain rfl : e = e' := Option.some.inj he
  have hpow := pow_le_32768 e
  have hcell : ((lutCell k : Nat) : Int) = k + 65536 := Int.toNat_of_nonneg (by omega)
  rw [LutUnit.read?, LutUnit.get?_build, if_pos (by omega), scaleValue, hcell, Int.add_sub_cancel]

end Sys2Proof.Machine
end

section
/-! SUPPORT. The canonical form of the memories, kept by every command body (log entry 9). -/

namespace Sys2Proof.Machine

open Sys2Proof

/-! ### FILL's loop -/

/-- The rule of FILL's loop (R242): `Inv n` holds with `n` bands left. A band that answers OK leads from one turn to
the next, any other band ends the loop, and after the last one the block is finished. -/
theorem fillBands_rule {Inv : Nat → Work → Prop} {Post : Work → Prop}
    (hnext : ∀ n w out, Inv (n + 1) w → bandOutcome (w.skip 5) out → out.2 = .okay → Inv n out.1)
    (hstop : ∀ n w out, Inv (n + 1) w → bandOutcome (w.skip 5) out → out.2 ≠ .okay → Post out.1)
    (hfinish : ∀ w, Inv 0 w → Post (finishBlock w)) (n : Nat) {w : Work} (h : Inv n w) : Post (fillBands n w).1 := by
  induction n generalizing w with
  | zero => exact hfinish w h
  | succ n ih =>
    have hband := bandDispatch_outcome (BitVec.ofNat 5 (w.take 5).1) (w.take 5).2
    simp only [fillBands]
    split
    next hok => exact ih (hnext n w _ h hband hok)
    next hbad => exact hstop n w _ h hband hbad

/-! ### Each command body -/

/-- All the memories a command can reach are in the canonical form. -/
def Work.canonical (w : Work) : Prop := Cells.WF w.lut.cells ∧ Cells.WF w.c.buf ∧ prevWF w.c.prev

theorem Work.takeFault_canonical {w : Work} (h : Cells.WF w.lut.cells) (f : FaultRecord) :
    (w.takeFault f).1.canonical :=
  ⟨h, Cells.ofWrites_wf _, lostPrev_wf _⟩

theorem Work.takeRefusal_canonical {w : Work} (h : Cells.WF w.lut.cells) : w.takeRefusal.1.canonical :=
  ⟨h, Cells.ofWrites_wf _, lostPrev_wf _⟩

theorem bandOutcome_canonical {w : Work} {out : Work × Response} (hout : bandOutcome w out) (h : w.canonical) :
    out.1.canonical := by
  obtain ⟨hlut, hbuf, hprev⟩ := h
  rcases hout with ⟨w', hw, ⟨-, -, hwf⟩, rfl⟩ | ⟨f, w', hw, -, rfl⟩ | rfl | rfl
  · refine ⟨?_, hwf hbuf, ?_⟩ <;> rw [hw]
    exacts [hlut, hprev]
  · refine w'.takeFault_canonical ?_ f
    rwa [hw]
  · exact w.takeRefusal_canonical hlut
  · exact ⟨hlut, hbuf, hprev⟩

theorem scaleBuild_canonical (e : BitVec 4) (x : BitVec 16) {w : Work} (h : w.canonical) :
    (scaleBuild e x w).canonical :=
  ⟨LutUnit.build_wf h.1 e x, h.2⟩

theorem finishBlock_canonical {w : Work} (h : w.canonical) : (finishBlock w).canonical :=
  ⟨h.1, transformBlock_wf _ w.c h.2.1 h.2.2⟩

theorem scaleCommand_canonical (e : BitVec 4) (x : BitVec 16) {w : Work} (h : w.canonical) :
    (scaleCommand e x w).1.canonical := by
  rcases scaleCommand_cases e x w with ⟨-, hw⟩ | ⟨-, hw⟩ <;> rw [hw]
  · exact scaleBuild_canonical e x h
  · exact h

theorem bandCommand_canonical (code : BitVec 5) {w : Work} (h : w.canonical) :
    (bandCommand (bandDispatch code) w).1.canonical := by
  unfold bandCommand
  split
  · exact bandOutcome_canonical (bandDispatch_outcome code w) h
  · exact h

theorem untransformCommand_canonical {w : Work} (h : w.canonical) : (untransformCommand w).1.canonical := by
  rcases untransformCommand_cases w with ⟨-, -, hw⟩ | hw <;> rw [hw]
  · exact finishBlock_canonical h
  · exact h

theorem popCommand_canonical {w : Work} (h : w.canonical) : (popCommand w).1.canonical := by
  rcases popCommand_cases w with ⟨-, -, hw⟩ | hw <;> rw [hw] <;> exact h

theorem fillCommand_canonical {w : Work} (h : w.canonical) : (fillCommand w).1.canonical := by
  rcases fillCommand_cases w with ⟨-, hw⟩ | hw <;> rw [hw]
  · exact fillBands_rule (Inv := fun _ => Work.canonical)
      (hnext := fun _ _ _ hinv hband _ => bandOutcome_canonical hband hinv)
      (hstop := fun _ _ _ hinv hband _ => bandOutcome_canonical hband hinv)
      (hfinish := fun _ => finishBlock_canonical) _ (scaleBuild_canonical _ _ (w := (w.skip 4).skip 16) h)
  · exact h

theorem LutUnit.acquire_wf {u : LutUnit} (h : Cells.WF u.cells) : Cells.WF u.acquire.cells := by
  unfold LutUnit.acquire
  split
  · exact .nil
  · exact h

theorem LutUnit.release_wf {u : LutUnit} (h : Cells.WF u.cells) : Cells.WF u.release.cells := by
  unfold LutUnit.release
  split
  · exact .nil
  · exact h

/-- A context with no buffer contents, beside a canonical LUT. -/
theorem Work.canonical_of_empty {w : Work} (hlut : Cells.WF w.lut.cells) (hbuf : w.c.buf = []) (hprev : w.c.prev = []) :
    w.canonical := by
  refine ⟨hlut, ?_, ?_⟩
  · rw [hbuf]
    exact .nil
  · rw [hprev]
    exact ⟨.nil, nofun⟩

theorem openCommand_canonical (L : BitVec 4) (R : BitVec 12) (total : BitVec 32) {w : Work} (h : w.canonical) :
    (openCommand L R total w).1.canonical := by
  rcases openCommand_cases L R total w with ⟨-, -, hw⟩ | hw <;> rw [hw]
  · exact Work.canonical_of_empty (LutUnit.acquire_wf h.1) rfl rfl
  · exact h

theorem closeCommand_canonical {w : Work} (h : w.canonical) : (closeCommand w).1.canonical := by
  rcases closeCommand_cases w with ⟨-, hw⟩ | ⟨-, hw⟩ <;> rw [hw]
  · exact h
  · exact Work.canonical_of_empty (LutUnit.release_wf h.1) rfl rfl

theorem commandBody_canonical (i : Instr) : ∀ w : Work, w.canonical → (commandBody i w).1.canonical :=
  commandBody_cases (P := fun body => ∀ w : Work, w.canonical → (body w).1.canonical)
    (scale := fun e x _ h => scaleCommand_canonical e x h)
    (lookup := fun idx w h => by rwa [lookupCommand_work])
    (band := fun code _ h => bandCommand_canonical code h)
    (untransform := fun _ h => untransformCommand_canonical h)
    (pop := fun _ h => popCommand_canonical h)
    (fill := fun _ h => fillCommand_canonical h)
    (openCtx := fun L R total _ h => openCommand_canonical L R total h)
    (closeCtx := fun _ h => closeCommand_canonical h) i

/-- The gate keeps the canonical form when the command's body does. -/
theorem runCommand_memory_wf {s : State} {body : Work → Work × Response}
    (hbody : ∀ w : Work, w.canonical → (body w).1.canonical) (hs : Memory.wf s) : Memory.wf (runCommand s body) := by
  obtain ⟨hlut, hctx⟩ := hs
  have hkeep (c : Context) (hc : Cells.WF c.buf ∧ prevWF c.prev) : (body (s.work c)).1.canonical :=
    hbody (s.work c) ⟨hlut, hc⟩
  refine ⟨?_, runCommand_keepsContexts (fun c hc => (hkeep c hc).2) hctx⟩
  rcases runCommand_cases s body with ⟨-, h⟩ | ⟨_, _, -, -, h⟩ | ⟨_, -, -, -, h⟩ | ⟨c, hc, -, -, h⟩ <;> rw [h]
  · exact hlut
  · exact hlut
  · exact hlut
  · exact (hkeep c (hctx c (List.mem_of_getElem? hc))).1

end Sys2Proof.Machine
end

section
/-! SUPPORT. The index ranges of a live context's buffers, kept by every command body (R60, R69, R207). -/

namespace Sys2Proof.Machine

open Sys2Proof

variable {α : Type}

/-- A memory lists no index from `n` on. -/
def Cells.indicesBelow (n : Nat) (m : Cells α) : Prop := ∀ p ∈ m, p.1 < n

/-- A listed index reads as something, in any memory. -/
theorem Cells.get?_ne_none_of_mem {m : Cells α} {p : Nat × α} (hp : p ∈ m) : Cells.get? m p.1 ≠ none := by
  induction m with
  | nil => cases hp
  | cons q m ih =>
    rw [Cells.get?_cons]
    split
    · exact Option.some_ne_none _
    next hne =>
      rcases List.mem_cons.mp hp with rfl | hp
      · exact absurd rfl hne
      · exact ih hp

theorem Cells.indicesBelow_iff {n : Nat} {m : Cells α} :
    Cells.indicesBelow n m ↔ ∀ i, n ≤ i → Cells.get? m i = none := by
  refine ⟨fun h i hi => Option.eq_none_iff_forall_ne_some.mpr fun v hv => ?_, fun h p hp => ?_⟩
  · exact Nat.not_lt.mpr hi (h _ (Cells.mem_of_get? hv))
  · exact Nat.lt_of_not_le fun hle => Cells.get?_ne_none_of_mem hp (h _ hle)

theorem Cells.put_indicesBelow {n i : Nat} {m : Cells α} (h : Cells.indicesBelow n m) (hi : i < n) (v : α) :
    Cells.indicesBelow n (Cells.put m i v) := fun p hp => by
  rcases Cells.mem_put hp with rfl | hp
  · exact hi
  · exact h p hp

theorem prevWrite_indicesBelow {n j : Nat} {m : Cells Word} (h : Cells.indicesBelow n m) (hj : j < n) (v : Word) :
    Cells.indicesBelow n (prevWrite m j v) := fun p hp => by
  rcases prevWrite_mem hp with rfl | hp
  · exact hj
  · exact h p hp

theorem Context.inBounds_iff (c : Context) :
    c.inBounds ↔ Cells.indicesBelow c.BW.toNat c.buf ∧ Cells.indicesBelow (prevWordsOf c.L) c.prev := Iff.rfl

/-- The words of a column that lies in the block are words of the block (R62, R154). -/
theorem Work.writesRows_indicesBelow {w w' : Work} (h : w.writesRows w' fun q => q < w.c.R.toNat)
    (hband : w.c.nextBand < w.c.S.toNat) (hbuf : Cells.indicesBelow (w.c.R.toNat * w.c.S.toNat) w.c.buf) :
    Cells.indicesBelow (w.c.R.toNat * w.c.S.toNat) w'.c.buf := by
  refine Cells.indicesBelow_iff.mpr fun i hi => ?_
  rw [h.1 i fun q hq => ?_]
  · exact Cells.indicesBelow_iff.mp hbuf i hi
  · have hrow : (q + 1) * w.c.S.toNat ≤ w.c.R.toNat * w.c.S.toNat := Nat.mul_le_mul_right _ hq
    rw [Nat.succ_mul] at hrow
    simp only [Work.cell, bufIndex]
    omega

/-- The transform writes inside the index ranges (R207). -/
theorem transformBlock_inBounds {cfg : Config} {c : Context} (noop : Bool) (hgeo : c.geometry cfg) (h : c.inBounds) :
    Cells.indicesBelow c.BW.toNat (transformBlock noop c).buf ∧
      Cells.indicesBelow (prevWordsOf c.L) (transformBlock noop c).prev := by
  obtain ⟨hS, hBW, -, -⟩ := hgeo
  refine transformBlock_keeps
    (P := fun b => Cells.indicesBelow c.BW.toNat b.buf ∧ Cells.indicesBelow (prevWordsOf c.L) b.prev) hS noop
    ⟨fun b i v _ hi hb => ⟨Cells.put_indicesBelow hb.1 ?_ v, hb.2⟩,
      fun b j v hj hb => ⟨hb.1, prevWrite_indicesBelow hb.2 hj v⟩⟩ h
  rwa [hBW]

/-- What `State.bounded` asks of one context. -/
def Context.bounded (cfg : Config) (c : Context) : Prop := c.live → c.geometry cfg ∧ c.cursors ∧ c.inBounds

theorem State.bounded_iff (s : State) : s.bounded ↔ ∀ c ∈ s.contexts, c.bounded s.cfg := Iff.rfl

/-- Of a live context its index ranges are asked beside its shape, which every command body keeps. -/
theorem Context.bounded_iff {cfg : Config} {c : Context} :
    c.bounded cfg ↔ c.shape cfg ∧ (c.live → c.inBounds) := by
  simp only [Context.bounded, Context.shape, ← forall_and, and_assoc]

theorem Context.bounded.shape {cfg : Config} {c : Context} (h : c.bounded cfg) : c.shape cfg :=
  (Context.bounded_iff.mp h).1

theorem Context.bounded.inBounds {cfg : Config} {c : Context} (h : c.bounded cfg) : c.live → c.inBounds :=
  (Context.bounded_iff.mp h).2

/-- A command's body leaves a live context inside its index ranges, when it finds it bounded. -/
def staysInBounds (body : Work → Work × Response) : Prop :=
  ∀ w : Work, w.c.bounded w.cfg → (body w).1.c.live → (body w).1.c.inBounds

theorem bandOutcome_inBounds {w : Work} {out : Work × Response} (hout : bandOutcome w out) (hp : w.c.phase = .filling)
    (hne : w.c.nextBand ≠ w.c.S.toNat) (h : w.c.bounded w.cfg) (hl : out.1.c.live) : out.1.c.inBounds := by
  obtain ⟨-, hf, hr⟩ := hl
  have hopen : w.c.phase ≠ .closed := by simp [hp]
  rcases hout with ⟨w', hw, hrows, rfl⟩ | ⟨f, w', -, -, rfl⟩ | rfl | rfl
  · have hlive : w.c.live := by
      rw [hw] at hf hr
      exact ⟨hopen, hf, hr⟩
    obtain ⟨⟨hS, hBW, -, -⟩, ⟨hband, -, -, -⟩, hbuf, hprev⟩ := h hlive
    have hsize : w.c.BW.toNat = w.c.R.toNat * w.c.S.toNat := by rw [hBW, hS, blockWordsOf]
    have hfilled := Work.writesRows_indicesBelow hrows (Nat.lt_of_le_of_ne hband hne) (hsize ▸ hbuf)
    refine (Context.inBounds_iff _).mpr ⟨?_, ?_⟩
    · rw [← hsize] at hfilled
      rw [hw]
      exact hfilled
    · rw [hw]
      exact hprev
  · simp at hf
  · simp at hr
  · exact h.inBounds ⟨hopen, hf, hr⟩

theorem finishBlock_inBounds {w : Work} (hp : w.c.phase ≠ .closed) (h : w.c.bounded w.cfg)
    (hl : (finishBlock w).c.live) : (finishBlock w).c.inBounds := by
  obtain ⟨-, hf, hr⟩ := hl
  obtain ⟨hgeo, -, hin⟩ := h ⟨hp, hf, hr⟩
  exact transformBlock_inBounds _ hgeo hin

theorem scaleBuild_bounded (e : BitVec 4) (x : BitVec 16) {w : Work} (hp : w.c.phase ≠ .closed)
    (h : w.c.bounded w.cfg) : (scaleBuild e x w).c.bounded w.cfg :=
  Context.bounded_iff.mpr ⟨scaleBuild_shape e x hp h.shape,
    fun ⟨_, hf, hr⟩ => h.inBounds ⟨hp, hf, hr⟩⟩

theorem scaleCommand_staysInBounds (e : BitVec 4) (x : BitVec 16) : staysInBounds (scaleCommand e x) := by
  intro w h
  rcases scaleCommand_cases e x w with ⟨hstart, hw⟩ | ⟨-, hw⟩ <;> rw [hw]
  · exact (scaleBuild_bounded e x (Work.phase_ne_closed_of_mayStartBlock hstart) h).inBounds
  · exact h.inBounds

theorem lookupCommand_staysInBounds (idx : BitVec 17) : staysInBounds (lookupCommand idx) := by
  intro w h
  rw [lookupCommand_work]
  exact h.inBounds

theorem bandCommand_staysInBounds (code : BitVec 5) : staysInBounds (bandCommand (bandDispatch code)) := by
  intro w h
  unfold bandCommand
  split
  next hawaits =>
    obtain ⟨hp, hne⟩ := w.awaitsBand_iff.mp hawaits
    exact bandOutcome_inBounds (bandDispatch_outcome code w) hp hne h
  · exact h.inBounds

theorem untransformCommand_staysInBounds : staysInBounds untransformCommand := by
  intro w h
  rcases untransformCommand_cases w with ⟨hp, -, hw⟩ | hw <;> rw [hw]
  · exact finishBlock_inBounds (by simp [hp]) h
  · exact h.inBounds

theorem popCommand_staysInBounds : staysInBounds popCommand := by
  intro w h
  rcases popCommand_cases w with ⟨-, -, hw⟩ | hw <;> rw [hw] <;> exact h.inBounds

/-- A block being filled, with `n` of its columns unwritten (R28, R242). -/
def Work.columnsLeft (n : Nat) (w : Work) : Prop :=
  w.c.phase = .filling ∧ w.c.nextBand + n = w.c.S.toNat ∧ w.c.bounded w.cfg

theorem bandOutcome_columnsLeft {n : Nat} {w : Work} {out : Work × Response} (hout : bandOutcome w out)
    (hok : out.2 = .okay) (h : w.columnsLeft (n + 1)) : out.1.columnsLeft n := by
  obtain ⟨hp, hleft, hb⟩ := h
  obtain ⟨hcfg, hphase, hS, hnext⟩ := bandOutcome_okay hout hok
  have hne : w.c.nextBand ≠ w.c.S.toNat := by omega
  refine ⟨hphase.trans hp, by rw [hnext, hS]; omega, ?_⟩
  rw [hcfg]
  exact Context.bounded_iff.mpr ⟨bandOutcome_shape hout hp hne hb.shape,
    bandOutcome_inBounds hout hp hne hb⟩

theorem fillCommand_staysInBounds : staysInBounds fillCommand := by
  intro w h
  rcases fillCommand_cases w with ⟨hstart, hw⟩ | hw <;> rw [hw]
  · refine fillBands_rule (Inv := Work.columnsLeft) (Post := fun w => w.c.live → w.c.inBounds)
      (hnext := fun n w out hinv hband hok => bandOutcome_columnsLeft hband hok hinv)
      (hstop := fun n w out ⟨hp, hleft, hb⟩ hband _ =>
        bandOutcome_inBounds hband hp (by simp only [Work.skip_c_nextBand, Work.skip_c_S]; omega) hb)
      (hfinish := fun w ⟨hp, _, hb⟩ => finishBlock_inBounds (by simp [hp]) hb) _ ?_
    exact ⟨rfl, Nat.zero_add _,
      scaleBuild_bounded _ _ (w := (w.skip 4).skip 16) (Work.phase_ne_closed_of_mayStartBlock hstart) h⟩
  · exact h.inBounds

theorem openCommand_staysInBounds (L : BitVec 4) (R : BitVec 12) (total : BitVec 32) :
    staysInBounds (openCommand L R total) := by
  intro w h
  rcases openCommand_cases L R total w with ⟨-, -, hw⟩ | hw <;> rw [hw]
  · exact fun _ => ⟨nofun, nofun⟩
  · exact h.inBounds

theorem closeCommand_staysInBounds : staysInBounds closeCommand := by
  intro w h
  rcases closeCommand_cases w with ⟨-, hw⟩ | ⟨-, hw⟩ <;> rw [hw]
  · exact fun ⟨_, hf, _⟩ => by simp at hf
  · exact fun _ => ⟨nofun, nofun⟩

theorem commandBody_staysInBounds (i : Instr) : staysInBounds (commandBody i) :=
  commandBody_cases (P := staysInBounds) (scale := scaleCommand_staysInBounds)
    (lookup := lookupCommand_staysInBounds) (band := bandCommand_staysInBounds)
    (untransform := untransformCommand_staysInBounds) (pop := popCommand_staysInBounds)
    (fill := fillCommand_staysInBounds) (openCtx := openCommand_staysInBounds)
    (closeCtx := closeCommand_staysInBounds) i

theorem commandBody_bounded (i : Instr) (w : Work) (h : w.c.bounded w.cfg) : (commandBody i w).1.c.bounded w.cfg :=
  Context.bounded_iff.mpr ⟨commandBody_shape i w h.shape, commandBody_staysInBounds i w h⟩

end Sys2Proof.Machine
end

section
/-! SUPPORT. The zero band, and FILL from a source that delivers only zero bits (R71, R155, R242). -/

namespace Sys2Proof.Machine

open Sys2Proof

/-! ### Zero bands -/

/-- The zero band's rows from `r` on: each becomes 0, and nothing else changes (R155). -/
theorem bandRows_groupZero (code : BitVec 5) (turns r : Nat) (w : Work) (ht : w.c.R.toNat ≤ r + turns) :
    ∃ buf, bandRows code groupZero turns r w = .going { w with c := { w.c with buf := buf } } ∧
      (∀ q, r ≤ q → q < w.c.R.toNat → Cells.get? buf (w.cell q) = some 0) ∧
      ∀ i, (∀ q, r ≤ q → q < w.c.R.toNat → i ≠ w.cell q) → Cells.get? buf i = Cells.get? w.c.buf i := by
  induction turns generalizing r w with
  | zero => exact ⟨w.c.buf, rfl, fun q h1 h2 => by omega, fun _ _ => rfl⟩
  | succ n ih =>
    by_cases hr : r < w.c.R.toNat
    · obtain ⟨buf, hrun, hzero, hkept⟩ := ih (r + 1) (w.bufWrite (w.cell r) 0) (by simp only [Work.bufWrite_c_R]; omega)
      have hturn : bandRows code groupZero (n + 1) r w =
          bandRows code groupZero n (r + 1) (w.bufWrite (w.cell r) 0) := by
        simp [bandRows, groupZero, writeSymbols, writeSymbol, hr, Work.cell]
      refine ⟨buf, hturn.trans hrun, fun q hq hqR => ?_, fun i hi => ?_⟩
      · by_cases hlater : ∃ p, r + 1 ≤ p ∧ p < w.c.R.toNat ∧ w.cell q = w.cell p
        · obtain ⟨p, hp, hpR, hcell⟩ := hlater
          rw [hcell]
          exact hzero p hp hpR
        · obtain rfl : q = r := Nat.le_antisymm (Nat.le_of_not_lt fun hlt => hlater ⟨q, hlt, hqR, rfl⟩) hq
          rw [hkept _ fun p hp hpR hcell => hlater ⟨p, hp, hpR, hcell⟩]
          exact Cells.get?_put_self _ _ _
      · rw [hkept i fun q hq hqR => hi q (by omega) hqR]
        exact Cells.get?_put_ne _ _ (hi r (Nat.le_refl r) hr)
    · exact ⟨w.c.buf, by simp [bandRows, hr], fun q h1 h2 => by omega, fun _ _ => rfl⟩

/-- The zero band never faults, takes no bits and draws nothing (R155). -/
theorem bandZ_runs (w : Work) :
    ∃ buf, Claims.columnHolds w.c buf (fun _ => 0) ∧
      bandZ w = ({ w with c := { w.c with buf := buf, nextBand := w.c.nextBand + 1 } }, .okay) := by
  obtain ⟨buf, hrun, hzero, hkept⟩ := bandRows_groupZero 0 w.c.R.toNat 0 w (by omega)
  exact ⟨buf, ⟨fun r hr => hzero r (Nat.zero_le r) hr, fun i hi => hkept i fun q _ hq => hi q hq⟩,
    by simp only [bandZ, runBand, hrun]⟩

/-- Writing zeros over a column turns no zero into something else. -/
theorem columnHolds_zero_keeps {c : Context} {buf : Cells Word} (h : Claims.columnHolds c buf fun _ => 0) {i : Nat}
    (hi : Cells.get? c.buf i = some 0) : Cells.get? buf i = some 0 := by
  by_cases hrow : ∃ r < c.R.toNat, i = Claims.rowIndex c r
  · obtain ⟨r, hr, rfl⟩ := hrow
    exact h.1 r hr
  · rw [h.2 i fun r hr he => hrow ⟨r, hr, he⟩, hi]

/-- Past the caller's bytes every take is 0 (R71). -/
theorem Work.peek_exhausted {w : Work} (h : 8 * w.c.source.length ≤ w.c.bitPos) (n : Nat) : w.peek n = 0 :=
  streamBits_exhausted n h

/-- What FILL's loop leaves of `w` when the next `n` format codes are the zero band's and the bands leave `buf`. -/
def Work.afterZeroBands (w : Work) (n : Nat) (buf : Cells Word) : Work :=
  { w with c := { w.c with buf := buf, nextBand := w.c.nextBand + n, bitPos := w.c.bitPos + 5 * n } }

/-- On an exhausted source every format code FILL takes is 0, the zero band's (R71, R155, R242). -/
theorem fillBands_exhausted (n : Nat) {w : Work} (h : 8 * w.c.source.length ≤ w.c.bitPos) :
    ∃ buf, fillBands n w = (finishBlock (w.afterZeroBands n buf), .okay) ∧
      (∀ i, Cells.get? w.c.buf i = some 0 → Cells.get? buf i = some 0) ∧
      ∀ k < n, ∀ r < w.c.R.toNat, Cells.get? buf (bufIndex w.c.S.toNat r (w.c.nextBand + k)) = some 0 := by
  induction n generalizing w with
  | zero => exact ⟨w.c.buf, rfl, fun _ => id, nofun⟩
  | succ n ih =>
    obtain ⟨col, hcol, hrun⟩ := bandZ_runs (w.skip 5)
    have hcode : bandDispatch (BitVec.ofNat 5 (w.peek 5)) (w.skip 5) = bandZ (w.skip 5) := by
      rw [Work.peek_exhausted h]
      rfl
    have hlater : 8 * (bandZ (w.skip 5)).1.c.source.length ≤ (bandZ (w.skip 5)).1.c.bitPos := by
      rw [hrun]
      exact h.trans (Nat.le_add_right _ 5)
    obtain ⟨buf, hrest, hkept, hzero⟩ := ih hlater
    rw [hrun] at hrest hkept hzero
    refine ⟨buf, ?_, fun i hi => hkept i (columnHolds_zero_keeps hcol hi), fun k hk r hr => ?_⟩
    · simp only [fillBands, Work.take_value, Work.take_rest, hcode, hrun, if_true, hrest]
      simp only [Work.afterZeroBands, Work.skip, Nat.mul_succ, Nat.add_assoc, Nat.add_comm 1 n, Nat.add_comm 5 (5 * n)]
    · cases k with
      | zero => exact hkept _ (hcol.1 r hr)
      | succ k =>
        have hlaterColumn := hzero k (by omega) r hr
        rwa [Nat.add_assoc, Nat.add_comm 1 k] at hlaterColumn

/-- FILL from an exhausted source: a build with e = 0 and s = 0, and S zero bands (R71, R242). -/
theorem fillCommand_exhausted {w : Work} (hstart : w.mayStartBlock = true) (hrem : w.c.remaining ≠ 0)
    (h : 8 * w.c.source.length ≤ w.c.bitPos) :
    ∃ buf, fillCommand w =
        (finishBlock ((scaleBuild 0 0 (w.skip 20)).afterZeroBands w.c.S.toNat buf), .okay) ∧
      ∀ sb < w.c.S.toNat, ∀ r < w.c.R.toNat, Cells.get? buf (bufIndex w.c.S.toNat r sb) = some 0 := by
  have hlater : 8 * (w.skip 4).c.source.length ≤ (w.skip 4).c.bitPos := h.trans (Nat.le_add_right _ 4)
  obtain ⟨buf, hbands, -, hzero⟩ := fillBands_exhausted w.c.S.toNat (w := scaleBuild 0 0 (w.skip 20))
    (h.trans (Nat.le_add_right _ 20))
  refine ⟨buf, ?_, fun sb hsb r hr => by simpa using hzero sb hsb r hr⟩
  calc fillCommand w = fillBlock w := by rw [fillCommand, if_neg (by simp [hstart]), if_neg hrem]
    _ = fillBands w.c.S.toNat (scaleBuild 0 0 (w.skip 20)) := by
        simp only [fillBlock, Work.take_value, Work.take_rest, Work.peek_exhausted h, Work.peek_exhausted hlater,
          Work.skip_skip]
        rfl
    _ = _ := hbands

/-! ### The end of the block -/

/-- What a finished block leaves of `remaining`, as a number (R200). -/
theorem finishBlock_remaining (w : Work) :
    (finishBlock w).c.remaining = BitVec.ofNat 32 (w.c.remaining.toNat - blockOutput w.c) := by
  have hout : blockOutput w.c ≤ w.c.remaining.toNat := Nat.min_le_right _ _
  rw [finishBlock_c_remaining, ← BitVec.ofNat_sub_ofNat_of_le _ _ (hout.trans_lt w.c.remaining.isLt) hout,
    BitVec.ofNat_toNat, BitVec.setWidth_eq]

/-- With one subband there is nothing to transform (R208). -/
theorem transformBlock_oneSubband (noop : Bool) {c : Context} (h : c.L = 0) :
    transformBlock noop c = { buf := c.buf, prev := c.prev } := by
  simp [transformBlock, h]

end Sys2Proof.Machine
end

section
/-! The statements of the family 20_memory.md. -/

namespace Sys2Proof.Claims

open Sys2Proof Sys2Proof.Machine

/-- Settles O50: every command body keeps the canonical form of the memories it reaches, and a step is one command. -/
theorem memoryFormKept : Obligations.MemoryFormKept := by
  intro s t hs h
  rcases step_cases h with rfl | ⟨ctx, n, rfl⟩ | ⟨i, ctx, n, rfl⟩
  · exact hs
  · exact runCommand_memory_wf (s := s.taken ctx n) (fun _ hw => hw) hs
  · exact runCommand_memory_wf (s := s.taken ctx n) (commandBody_canonical i) hs

/-- Settles O53: every command body keeps a live context bounded, and a step is one command. -/
theorem indexRangesKept : Obligations.IndexRangesKept :=
  fun s t hs h => t.bounded_iff.mpr (step_keepsContexts commandBody_bounded (s.bounded_iff.mp hs) h)

/-- Settles O14, by the recursion of a take: its lowest bit is the first taken, the others are the take after it. -/
theorem takeReadsTheStreamInOrder : Obligations.TakeReadsTheStreamInOrder :=
  ⟨fun bytes p n => ⟨streamBits_lt bytes p n, fun _ hj => streamBits_testBit bytes p n hj⟩,
    fun bytes j _ hb => ⟨streamBit_byte bytes j hb, fun hj => streamBit_exhausted (by omega)⟩⟩

/-- Settles O18: the build changes the one LUT that the other context's LOOKUP reads, and not that context. -/
theorem scaleIsSeenByEveryContext : Obligations.ScaleIsSeenByEveryContext := by
  intro e x idx s c d j hserves hstart hj hd ⟨hopen, hf, hr⟩ hlo hhi
  refine ⟨_, exec_scale_builds hserves hstart e x, ?_⟩
  have hin : (s.lut.build e x).inWindow idx.toInt = true := (LutUnit.inWindow_iff _ _).mpr ⟨e, rfl, hlo, hhi⟩
  have hserves' : Serves { s.commit (scaleBuild e x (s.work c)) .okay with ctx := j } d :=
    ⟨(List.getElem?_set_ne hj.symm).trans hd, hf, hr⟩
  rw [exec_lookup_inWindow hserves' hopen hin]
  simp only [LutUnit.windowCell, State.commit_lut, scaleBuild_lut, State.work_lut, LutUnit.read?_build _ x hin]
  rfl

/-- Settles O40: with S a power of two, S/2^(i−1), S/2^i and S/2^(i+1) are 4, 2 and 1 times the last of them. -/
theorem prevRegionsTile : Obligations.PrevRegionsTile := by
  intro L hL
  refine ⟨?_, fun i hi hiL => ?_, ?_⟩
  · have hfirst : (stageRegion (2 ^ L) 1).start = 3 * 2 ^ L / 2 - 2 ^ L := stageRegion_start (i := 0) rfl
    omega
  · obtain ⟨k, rfl⟩ : ∃ k, i = k + 1 := ⟨i - 1, by omega⟩
    obtain ⟨m, rfl⟩ : ∃ m, L = m + 1 + 1 + k := ⟨L - (k + 2), by omega⟩
    have hwords : 2 ^ (m + 1 + 1 + k) / 2 ^ (k + 1 + 1) = 2 ^ m := by
      rw [Nat.pow_div (by omega) Nat.two_pos]
      congr 1
      omega
    have hle : 2 ^ (m + 1 + 1) ≤ 2 ^ (m + 1 + 1 + k) := Nat.pow_le_pow_right Nat.two_pos (by omega)
    rw [stageRegion_start (m := m + 1) (by omega), stageRegion_start (m := m + 1 + 1) rfl, hwords]
    simp only [Nat.pow_succ 2 (m + 1), Nat.pow_succ 2 m] at hle ⊢
    omega
  · obtain ⟨k, rfl⟩ : ∃ k, L = k + 2 := ⟨L - 2, by omega⟩
    have hone := Nat.two_pow_pos k
    rw [show k + 2 - 1 = k + 1 from rfl, stageRegion_start (m := 2) (by omega), Nat.div_self (Nat.two_pow_pos _),
      Nat.pow_add]
    omega

/-- Settles O43: FILL takes e = 0, s = 0 and then S format codes 0, and a zero band cannot fail. -/
theorem fillFromAnExhaustedSource : Obligations.FillFromAnExhaustedSource := by
  intro s c hserves hstart hrem hsource
  obtain ⟨buf, hbody, hzero⟩ :=
    fillCommand_exhausted (w := s.work c) ((s.work c).mayStartBlock_iff.mpr hstart) hrem hsource
  have hcell (k : Int) (hlo : -1 ≤ k) (hhi : k ≤ 0) : (s.lut.build 0 0).read? k = some 0 := by
    rw [LutUnit.read?_build _ _ ((LutUnit.inWindow_iff _ k).mpr ⟨0, rfl, by simpa using hlo, by simpa using hhi⟩)]
    simp [trunc16]
  refine ⟨_, _, exec_of_body (i := .fill) hserves hbody, rfl, s.commit_addressed hserves.1 _ _, rfl, rfl,
    Nat.zero_add _, rfl, rfl, finishBlock_remaining _, rfl, hcell 0 (by decide) (by decide),
    hcell (-1) (by decide) (by decide), rfl, fun hL hS r hr => ?_⟩
  have hcol := hzero 0 (by simp [hS]) r hr
  rw [show bufIndex (s.work c).c.S.toNat r 0 = r by simp [bufIndex, hS]] at hcol
  rw [finishBlock_c_buf, transformBlock_oneSubband]
  · exact hcol
  · exact hL

end Sys2Proof.Claims
end

section
/-! SUPPORT. The decoder against the encoder: what it reads from the words of each command, that a legal word 0 is the
word 0 of some command, and that every other word is an error (R92, R93, R101). -/

namespace Sys2Proof

open Claims

/-! ### Reading the words of each command -/

theorem encode_band (code : BitVec 5) : encode (.band code) = [bandWord code] := by
  revert code
  decide

theorem decode_scaleWord (e : BitVec 4) (x : BitVec 16) (rest : List Word) :
    decode ((0#8 ++ x ++ e ++ 1#4) :: rest) = .ok (.scale e x, rest) := by
  obtain ⟨hop, he, hx, hfixed⟩ := scaleWord_fields e x
  simp [decode, decodeWord0, hop, he, hx, hfixed]

theorem decode_lookupWord (idx : BitVec 17) (rest : List Word) :
    decode ((0#11 ++ idx ++ 2#4) :: rest) = .ok (.lookup idx, rest) := by
  obtain ⟨hop, hidx, hfixed⟩ := lookupWord_fields idx
  simp [decode, decodeWord0, hop, hidx, hfixed]

theorem decode_bandWord (code : BitVec 5) (rest : List Word) :
    decode (bandWord code :: rest) = .ok (.band code, rest) := by
  obtain ⟨hop, hcode, hfixed⟩ := bandWord_fields code
  simp [decode, decodeWord0, hop, hcode, hfixed]

theorem decode_openWords (L : BitVec 4) (R : BitVec 12) (total : Word) (rest : List Word) :
    decode ((0#12 ++ R ++ L ++ 7#4) :: total :: rest) = .ok (.openCtx L R total, rest) := by
  obtain ⟨hop, hL, hR, hfixed⟩ := openWord_fields L R
  simp [decode, decodeWord0, hop, hL, hR, hfixed]

/-- OPEN's word 0 alone is no command yet (R95). -/
theorem decode_openWord_alone (L : BitVec 4) (R : BitVec 12) :
    decode [0#12 ++ R ++ L ++ 7#4] = .error .noSecondWord := by
  obtain ⟨hop, -, -, hfixed⟩ := openWord_fields L R
  simp [decode, decodeWord0, hop, hfixed]

/-- The 32 BANDs share one case: each is encoded as the word of its format code. -/
theorem decode_encode (i : Instr) (rest : List Word) : decode (encode i ++ rest) = .ok (i, rest) := by
  cases i with
  | scale e x => exact decode_scaleWord e x rest
  | lookup idx => exact decode_lookupWord idx rest
  | untransform => rfl
  | pop => rfl
  | fill => rfl
  | openCtx L R total => exact decode_openWords L R total rest
  | closeCtx => rfl
  | _ => exact decode_bandWord _ rest

/-! ### The legal words (R92, R101) -/

/-- The bits of a word from `k` on are 0 exactly when it is below `2 ^ k`. -/
theorem highBits_eq_zero_iff (w : Word) {k n : Nat} (h : k + n = 32) : w.extractLsb' k n = 0#n ↔ w.toNat < 2 ^ k := by
  have hw : w.toNat / 2 ^ k < 2 ^ n := Nat.div_lt_of_lt_mul (by rw [← Nat.pow_add, h]; exact w.isLt)
  rw [← BitVec.toNat_inj, BitVec.extractLsb'_toNat, Nat.shiftRight_eq_div_pow, Nat.mod_eq_of_lt hw, BitVec.toNat_zero,
    Nat.div_eq_zero_iff_lt (Nat.two_pow_pos k)]

/-! A word whose bits above its fields are 0 is put together from the fields, as the encoder does it. -/

theorem bareWord_of_fields {w : Word} {op : BitVec 4} (hop : opcodeOf w = op) (hlt : w.toNat < 2 ^ 4) :
    0#28 ++ op = w := by
  rw [← hop, ← (highBits_eq_zero_iff w rfl).mpr hlt, opcodeOf]
  simp only [BitVec.extractLsb'_append_extractLsb'_eq_extractLsb', BitVec.extractLsb'_eq_self]

theorem scaleWord_of_fields {w : Word} (hop : opcodeOf w = 1#4) (hlt : w.toNat < 2 ^ 24) :
    0#8 ++ w.extractLsb' 8 16 ++ w.extractLsb' 4 4 ++ 1#4 = w := by
  rw [← hop, ← (highBits_eq_zero_iff w rfl).mpr hlt, opcodeOf]
  simp only [BitVec.extractLsb'_append_extractLsb'_eq_extractLsb', BitVec.extractLsb'_eq_self]

theorem lookupWord_of_fields {w : Word} (hop : opcodeOf w = 2#4) (hlt : w.toNat < 2 ^ 21) :
    0#11 ++ w.extractLsb' 4 17 ++ 2#4 = w := by
  rw [← hop, ← (highBits_eq_zero_iff w rfl).mpr hlt, opcodeOf]
  simp only [BitVec.extractLsb'_append_extractLsb'_eq_extractLsb', BitVec.extractLsb'_eq_self]

theorem bandWord_of_fields {w : Word} (hop : opcodeOf w = 3#4) (hlt : w.toNat < 2 ^ 9) :
    bandWord (w.extractLsb' 4 5) = w := by
  rw [bandWord, ← hop, ← (highBits_eq_zero_iff w rfl).mpr hlt, opcodeOf]
  simp only [BitVec.extractLsb'_append_extractLsb'_eq_extractLsb', BitVec.extractLsb'_eq_self]

theorem openWord_of_fields {w : Word} (hop : opcodeOf w = 7#4) (hlt : w.toNat < 2 ^ 20) :
    0#12 ++ w.extractLsb' 8 12 ++ w.extractLsb' 4 4 ++ 7#4 = w := by
  rw [← hop, ← (highBits_eq_zero_iff w rfl).mpr hlt, opcodeOf]
  simp only [BitVec.extractLsb'_append_extractLsb'_eq_extractLsb', BitVec.extractLsb'_eq_self]

/-- A legal word is a whole one-word command, or OPEN's word 0. -/
theorem word_of_legalWord {w : Word} (h : legalWord w) :
    (∃ i, encode i = [w]) ∨ ∃ (L : BitVec 4) (R : BitVec 12), 0#12 ++ R ++ L ++ 7#4 = w := by
  have opcode {n : Nat} (hop : (opcodeOf w).toNat = n) : opcodeOf w = BitVec.ofNat 4 n := by
    rw [← hop, BitVec.ofNat_toNat, BitVec.setWidth_eq]
  have oneWord (i : Instr) {v : Word} (hi : encode i = [v]) (hv : v = w) : ∃ i, encode i = [w] := ⟨i, hv ▸ hi⟩
  unfold legalWord at h
  split at h
  next hop => exact .inl (oneWord (.scale _ _) rfl (scaleWord_of_fields (opcode hop) h))
  next hop => exact .inl (oneWord (.lookup _) rfl (lookupWord_of_fields (opcode hop) h))
  next hop => exact .inl (oneWord (.band _) (encode_band _) (bandWord_of_fields (opcode hop) h))
  next hop => exact .inl (oneWord .untransform rfl (bareWord_of_fields (opcode hop) h))
  next hop => exact .inl (oneWord .pop rfl (bareWord_of_fields (opcode hop) h))
  next hop => exact .inl (oneWord .fill rfl (bareWord_of_fields (opcode hop) h))
  next hop => exact .inr ⟨_, _, openWord_of_fields (opcode hop) h⟩
  next hop => exact .inl (oneWord .closeCtx rfl (bareWord_of_fields (opcode hop) h))
  next => exact h.elim

/-- Every other word is an error, whatever follows it (R101). -/
theorem decode_of_not_legalWord {w : Word} (h : ¬ legalWord w) (rest : List Word) :
    decode (w :: rest) = .error (.reservedBits w) ∨ decode (w :: rest) = .error (.reservedOpcode (opcodeOf w)) := by
  have fixed {k : Nat} (n : Nat) (hkn : k + n = 32) (hge : ¬ w.toNat < 2 ^ k) : ¬ w.extractLsb' k n = 0#n :=
    mt (highBits_eq_zero_iff w hkn).mp hge
  rw [decode]
  unfold decodeWord0
  split
  next hop => rw [legalWord, hop] at h; exact .inl (if_neg (fixed 8 rfl h))
  next hop => rw [legalWord, hop] at h; exact .inl (if_neg (fixed 11 rfl h))
  next hop => rw [legalWord, hop] at h; exact .inl (if_neg (fixed 23 rfl h))
  next hop => rw [legalWord, hop] at h; exact .inl (if_neg (fixed 28 rfl h))
  next hop => rw [legalWord, hop] at h; exact .inl (if_neg (fixed 28 rfl h))
  next hop => rw [legalWord, hop] at h; exact .inl (if_neg (fixed 28 rfl h))
  next hop => rw [legalWord, hop] at h; exact .inl (if_neg (fixed 12 rfl h))
  next hop => rw [legalWord, hop] at h; exact .inl (if_neg (fixed 28 rfl h))
  next => exact .inr rfl

/-- A command the decoder accepts stands on the port as its encoding (R92, R101). -/
theorem eq_encode_of_decode {ws rest : List Word} {i : Instr} (h : decode ws = .ok (i, rest)) :
    ws = encode i ++ rest := by
  have unique {j : Instr} {tail : List Word} (hd : decode (encode j ++ tail) = .ok (i, rest)) :
      encode j ++ tail = encode i ++ rest := by
    cases (decode_encode j tail).symm.trans hd
    rfl
  cases ws with
  | nil => cases h
  | cons w ws =>
    by_cases hw : legalWord w
    · rcases word_of_legalWord hw with ⟨j, hj⟩ | ⟨L, R, rfl⟩
      · rw [← List.singleton_append, ← hj] at h ⊢
        exact unique h
      · cases ws with
        | nil => cases (decode_openWord_alone L R).symm.trans h
        | cons total ws => exact unique (j := .openCtx L R total) h
    · rcases decode_of_not_legalWord hw ws with he | he <;> cases he.symm.trans h

end Sys2Proof

namespace Sys2Proof.Machine

open Sys2Proof

/-- A word that is not legal is taken from the port alone (R101, R304). -/
theorem fetch_eq_illegal {s : State} {p : PortWord} {ps : List PortWord} (hport : s.port = p :: ps)
    (hw : ¬ Claims.legalWord p.word) : fetch s = .illegal (s.taken p.ctx 1) := by
  unfold fetch
  split
  next hnil => cases hnil.symm.trans hport
  next q qs hcons =>
    obtain ⟨rfl, -⟩ := List.cons.inj (hcons.symm.trans hport)
    rw [hport, List.map_cons]
    rcases decode_of_not_legalWord hw (ps.map PortWord.word) with he | he <;> rw [he]

/-- A reserved encoding is only answered, by an unmarked context and for a context number without a context (R101). -/
theorem illegalCommand_answers {s : State}
    (h : ∀ c, s.contexts[s.ctx]? = some c → c.fault = none ∧ c.refused = false) :
    illegalCommand s = s.respond (.bare .errCmd) := by
  cases hc : s.contexts[s.ctx]? with
  | none => exact runCommand_noContext hc _
  | some c =>
    obtain ⟨hf, hr⟩ := h c hc
    exact (runCommand_runs hc hf hr _).trans (s.commit_work hc _)

end Sys2Proof.Machine
end

section
/-! The statements of the family 30_encoding.md. -/

namespace Sys2Proof.Claims

open Sys2Proof Sys2Proof.Machine

/-- Settles O1, command by command from the fields of its word. -/
theorem decodeEncodeRoundTrip : Obligations.DecodeEncodeRoundTrip := decode_encode

/-- Settles O2: a legal word 0 is an encoder's word, for which the round trip holds, and no other is accepted. -/
theorem acceptedWordsAreEncodings : Obligations.AcceptedWordsAreEncodings := fun _ _ _ => eq_encode_of_decode

/-- Settles O3: the fetch takes the one word, and the gate lets ERR_CMD through. -/
theorem reservedEncodingsAnswerErrCmd : Obligations.ReservedEncodingsAnswerErrCmd := by
  intro s p rest hport hw hmarks
  rw [step, fetch_eq_illegal hport hw]
  refine congrArg Host.Outcome.next ((illegalCommand_answers hmarks).trans ?_)
  rw [State.taken, hport]
  rfl

end Sys2Proof.Claims
end

section
/-! SUPPORT. What a build and its window mean for the cells of the LUT: the window stays written (R60, R131), R130's
accumulator leaves the same table, and which indices the window holds (R134). -/

namespace Sys2Proof.Machine

open Sys2Proof

/-! ### The window stays written (R60, R131) -/

/-- With no build the window is empty (R131), and empty storage lists nothing. -/
theorem LutUnit.windowWritten_of_empty {u : LutUnit} (hcells : u.cells = []) (he : u.e = none) : u.windowWritten :=
  ⟨fun k hk => by simp [LutUnit.inWindow, he] at hk, by simp [hcells]⟩

/-- A build writes its whole window, and the window lies inside the LUT. -/
theorem LutUnit.build_windowWritten {u : LutUnit} (h : u.windowWritten) (e : BitVec 4) (x : BitVec 16) :
    (u.build e x).windowWritten := by
  refine ⟨fun k hk => by simp [u.read?_build x hk], fun p hp => ?_⟩
  rcases LutUnit.mem_build hp with hlt | hold
  · have hpow := pow_le_32768 e
    simp only [lutEntries]
    omega
  · exact h.2 p hold

theorem LutUnit.acquire_windowWritten {u : LutUnit} (h : u.windowWritten) : u.acquire.windowWritten := by
  by_cases hn : u.openCount = 0
  · rw [LutUnit.acquire_fresh hn]
    exact LutUnit.windowWritten_of_empty rfl rfl
  · rw [LutUnit.acquire_shared hn]
    exact h

theorem LutUnit.release_windowWritten {u : LutUnit} (h : u.windowWritten) : u.release.windowWritten := by
  unfold LutUnit.release
  split
  · exact LutUnit.windowWritten_of_empty rfl rfl
  · exact h

theorem Work.LutOutcome.windowWritten {w w' : Work} (h : w.LutOutcome w') (hw : w.lut.windowWritten) :
    w'.lut.windowWritten := by
  cases h with
  | kept hlut => rwa [hlut]
  | built e x hlut =>
    rw [hlut]
    exact LutUnit.build_windowWritten hw e x
  | opened hlut =>
    rw [hlut]
    exact LutUnit.acquire_windowWritten hw
  | closed hlut =>
    rw [hlut]
    exact LutUnit.release_windowWritten hw

/-- The gate keeps the window written when the command's body does. -/
theorem runCommand_windowWritten {s : State} {body : Work → Work × Response}
    (hbody : ∀ w : Work, w.LutOutcome (body w).1) (hs : s.lut.windowWritten) :
    (runCommand s body).lut.windowWritten := by
  rcases runCommand_cases s body with ⟨-, h⟩ | ⟨_, _, -, -, h⟩ | ⟨_, -, -, -, h⟩ | ⟨c, -, -, -, h⟩ <;> rw [h]
  · exact hs
  · exact hs
  · exact hs
  · exact (hbody (s.work c)).windowWritten hs

/-- A build leaves every cell outside its window (R130). -/
theorem LutUnit.read?_build_outside (u : LutUnit) {e : BitVec 4} (x : BitVec 16) {k : Int}
    (h : k < -((2 ^ e.toNat : Nat) : Int) ∨ ((2 ^ e.toNat : Nat) : Int) - 1 < k) :
    (u.build e x).read? k = u.read? k := by
  have hpow := pow_le_32768 e
  rw [LutUnit.read?, LutUnit.get?_build, if_neg, LutUnit.read?]
  unfold lutCell
  omega

/-! ### The accumulator's walk (R61, R130) -/

/-- One turn of R130's first loop, with the accumulator and the table: the cell `k` above the centre. -/
def walkUp (x : BitVec 16) (k : Nat) (a : Int × Cells Half) : Int × Cells Half :=
  (a.1 + (x.toNat : Int), Cells.put a.2 (lutCell (k : Int)) (trunc16 a.1))

/-- One turn of R130's second loop: the cell `k + 1` below the centre. -/
def walkDown (x : BitVec 16) (k : Nat) (a : Int × Cells Half) : Int × Cells Half :=
  (a.1 - (x.toNat : Int), Cells.put a.2 (lutCell (-((k : Int) + 1))) (trunc16 (a.1 - (x.toNat : Int))))

theorem accumulatorWalk_eq (m : Cells Half) (e : BitVec 4) (x : BitVec 16) :
    Claims.accumulatorWalk m e x =
      (forRange (2 ^ e.toNat) (walkDown x) (0, (forRange (2 ^ e.toNat) (walkUp x) (0, m)).2)).2 := rfl

/-- How far the walk over the table `m` has come: the accumulator holds `acc·x`, the cells `[lo, hi)` hold what SCALE
builds there, every other cell is that of `m`, and the table is canonical. -/
def walkedTo (m : Cells Half) (x : BitVec 16) (acc : Int) (lo hi : Nat) (a : Int × Cells Half) : Prop :=
  a.1 = acc * x.toNat ∧ Cells.WF a.2 ∧
    ∀ i, Cells.get? a.2 i = if lo ≤ i ∧ i < hi then some (scaleValue x i) else Cells.get? m i

theorem walkUp_walkedTo {m : Cells Half} {x : BitVec 16} {n : Nat} {a : Int × Cells Half}
    (h : walkedTo m x n 65536 (65536 + n) a) : walkedTo m x (n + 1 : Nat) 65536 (65536 + (n + 1)) (walkUp x n a) := by
  obtain ⟨hacc, hwf, hcells⟩ := h
  refine ⟨?_, Cells.put_wf hwf _ _, fun i => ?_⟩
  · rw [walkUp, hacc]
    push_cast
    ring
  · have hcell : lutCell n = 65536 + n := by
      unfold lutCell
      omega
    rw [walkUp, Cells.get?_put, hcells i, hcell]
    by_cases hi : i = 65536 + n
    · have hk : ((65536 + n : Nat) : Int) - 65536 = n := by omega
      rw [hi, if_pos rfl, if_pos (by omega), scaleValue, hk, hacc]
    · rw [if_neg hi]
      exact if_congr (by omega) rfl rfl

theorem walkDown_walkedTo {m : Cells Half} {x : BitVec 16} {n hi : Nat} {a : Int × Cells Half} (hn : n < 65536)
    (hhi : 65536 ≤ hi) (h : walkedTo m x (-n) (65536 - n) hi a) :
    walkedTo m x (-(n + 1 : Nat)) (65536 - (n + 1)) hi (walkDown x n a) := by
  obtain ⟨hacc, hwf, hcells⟩ := h
  have hacc' : a.1 - (x.toNat : Int) = -((n + 1 : Nat) : Int) * x.toNat := by
    rw [hacc]
    push_cast
    ring
  refine ⟨hacc', Cells.put_wf hwf _ _, fun i => ?_⟩
  have hcell : lutCell (-((n : Int) + 1)) = 65536 - (n + 1) := by
    unfold lutCell
    omega
  rw [walkDown, Cells.get?_put, hcells i, hcell]
  by_cases hi : i = 65536 - (n + 1)
  · have hk : ((65536 - (n + 1) : Nat) : Int) - 65536 = -((n + 1 : Nat) : Int) := by omega
    rw [hi, if_pos rfl, if_pos (by omega), scaleValue, hk, hacc']
  · rw [if_neg hi]
    exact if_congr (by omega) rfl rfl

/-- R130's accumulator leaves the window W(e) built, and every other cell. -/
theorem accumulatorWalk_walkedTo {m : Cells Half} (hm : Cells.WF m) (e : BitVec 4) (x : BitVec 16) :
    Cells.WF (Claims.accumulatorWalk m e x) ∧
      ∀ i, Cells.get? (Claims.accumulatorWalk m e x) i =
        if 65536 - 2 ^ e.toNat ≤ i ∧ i < 65536 + 2 ^ e.toNat then some (scaleValue x i) else Cells.get? m i := by
  have hpow := pow_le_32768 e
  have hup : walkedTo m x (2 ^ e.toNat : Nat) 65536 (65536 + 2 ^ e.toNat) (forRange (2 ^ e.toNat) (walkUp x) (0, m)) :=
    forRange_invariant (fun n => walkedTo m x n 65536 (65536 + n)) _ _ _
      ⟨by simp, hm, fun i => by rw [if_neg (by omega)]⟩ fun n _ a h => walkUp_walkedTo h
  have hdown : walkedTo m x (-(2 ^ e.toNat : Nat)) (65536 - 2 ^ e.toNat) (65536 + 2 ^ e.toNat)
      (forRange (2 ^ e.toNat) (walkDown x) (0, (forRange (2 ^ e.toNat) (walkUp x) (0, m)).2)) :=
    forRange_invariant (fun n => walkedTo m x (-n) (65536 - n) (65536 + 2 ^ e.toNat)) _ _ _ ⟨by simp, hup.2⟩
      fun n hn a h => walkDown_walkedTo (by omega) (by omega) h
  rw [accumulatorWalk_eq]
  exact hdown.2

/-! ### SCALE and LOOKUP where they do not run (R130, R133) -/

theorem exec_scale_turnedAway {s : State} {c : Context} (h : Claims.Serves s c) (hstart : ¬ Claims.Startable c)
    (e : BitVec 4) (x : BitVec 16) : exec (.scale e x) s = .next (s.respond (.bare .errState)) := by
  have hbody : scaleCommand e x (s.work c) = (s.work c, .bare .errState) := by
    rcases scaleCommand_cases e x (s.work c) with ⟨hmay, -⟩ | ⟨-, hw⟩
    · exact absurd ((s.work c).mayStartBlock_iff.mp hmay) hstart
    · exact hw
  rw [exec_of_body (i := .scale e x) h hbody, State.commit_work h.1]

theorem exec_lookup_closed {s : State} {c : Context} (h : Claims.Serves s c) (hp : c.phase = .closed)
    (idx : BitVec 17) : exec (.lookup idx) s = .next (s.respond (.bare .errState)) := by
  have hbody : lookupCommand idx (s.work c) = (s.work c, .bare .errState) := by
    simp [lookupCommand, Work.inPhase, hp]
  rw [exec_of_body (i := .lookup idx) h hbody, State.commit_work h.1]

theorem exec_lookup_outside {s : State} {c : Context} (h : Claims.Serves s c) (hp : c.phase ≠ .closed)
    {idx : BitVec 17} (hout : s.lut.inWindow idx.toInt = false) :
    exec (.lookup idx) s = .next (s.respond (.bare .window)) := by
  have hbody : lookupCommand idx (s.work c) = (s.work c, .bare .window) := by
    simp [lookupCommand, Work.inPhase, hp, hout]
  rw [exec_of_body (i := .lookup idx) h hbody, State.commit_work h.1]

/-- No index outside W(lut_e) is inside the window. -/
theorem LutUnit.inWindow_eq_false {u : LutUnit} {e : BitVec 4} (he : u.e = some e) {k : Int}
    (h : k < -((2 ^ e.toNat : Nat) : Int) ∨ ((2 ^ e.toNat : Nat) : Int) - 1 < k) : u.inWindow k = false := by
  rw [Bool.eq_false_iff, ne_eq, LutUnit.inWindow_iff]
  rintro ⟨e', he', hlo, hhi⟩
  obtain rfl : e = e' := Option.some.inj (he.symm.trans he')
  omega

end Sys2Proof.Machine
end

section
/-! SUPPORT. Under the stale policy an index outside the window never faults (R132), whatever the command. -/

namespace Sys2Proof.Machine

open Sys2Proof

/-! ### The rule behind each format code -/

/-- The results of the rules a format code can have: a band rule, a packed band rule, or none (R100, R150). -/
inductive BandRuleResult (w : Work) : Work × Response → Prop where
  | band (code : BitVec 5) {group : Work → Group} (hg : groupTakes group) : BandRuleResult w (runBand code group w)
  | packed (code : BitVec 5) {group : Work → Group} (hg : groupTakes group) : BandRuleResult w (runPacked code group w)
  | reserved : BandRuleResult w (failBand w)

theorem bandDispatch_result (code : BitVec 5) (w : Work) : BandRuleResult w (bandDispatch code w) := by
  have direct (n : Nat) (code' : BitVec 5) : BandRuleResult w (runBand code' (groupDirect n) w) :=
    .band code' (groupDirect_takes n)
  unfold bandDispatch
  split
  exacts [.band 0 groupZero_takes, .reserved, .reserved, direct 3 3, direct 4 4, direct 5 5, direct 6 6, direct 7 7,
    direct 8 8, direct 9 9, direct 10 10, direct 11 11, direct 12 12, direct 13 13, direct 14 14, direct 15 15,
    direct 16 16, .packed 17 groupK13_takes, .packed 18 groupK12_takes, .packed 19 groupT15_takes,
    .packed 20 groupK24_takes, .packed 21 groupK23_takes, .packed 22 groupT27_takes, .packed 23 groupK35_takes,
    .packed 24 groupK34_takes, .reserved, .packed 26 groupK45_takes, .packed 27 groupK44_takes, .reserved,
    .packed 29 groupT37_takes, .reserved, .reserved]

/-! ### No window fault -/

/-- The response is no fault of code 1, which is F_LUT_WINDOW (R301). -/
def Response.noWindowFault (r : Response) : Prop := ∀ f, r = .faulted f → f.code ≠ 1

/-- Under the stale policy every LUT read delivers (R132). -/
theorem Work.lutRead_ne_none {w : Work} (h : w.cfg.oowPolicy = .stale) (k : Int) : w.lutRead k ≠ none := by
  rcases w.lutRead_cases k with ⟨-, hread⟩ | ⟨-, hfault, -⟩ | ⟨-, -, v, -, hread⟩ | ⟨-, -, -, hread⟩
  · simp [hread]
  · simp [h] at hfault
  · simp [hread]
  · simp [hread]

theorem runBand_noWindowFault (code : BitVec 5) {group : Work → Group} (hg : groupTakes group) {w : Work}
    (h : w.cfg.oowPolicy = .stale) : (runBand code group w).2.noWindowFault := by
  unfold runBand
  rcases bandRows_spec code hg w.c.R.toNat 0 w (by omega) with ⟨w', hrun, -, -⟩ | ⟨f, w', hrun, hfill, hf⟩ <;> rw [hrun]
  · exact nofun
  · rintro f' ⟨⟩
    rcases hf with ⟨k, row, -, hnone, -⟩ | ⟨v, rfl⟩
    · have hpolicy : w'.cfg.oowPolicy = .stale := by rwa [hfill]
      exact absurd hnone (Work.lutRead_ne_none hpolicy k)
    · simp [FaultRecord.code]

theorem runPacked_noWindowFault (code : BitVec 5) {group : Work → Group} (hg : groupTakes group) {w : Work}
    (h : w.cfg.oowPolicy = .stale) : (runPacked code group w).2.noWindowFault := by
  unfold runPacked
  split
  · exact nofun
  · exact runBand_noWindowFault code hg h

theorem BandRuleResult.noWindowFault {w : Work} {out : Work × Response} (hout : BandRuleResult w out)
    (h : w.cfg.oowPolicy = .stale) : out.2.noWindowFault := by
  cases hout with
  | band code hg => exact runBand_noWindowFault code hg h
  | packed code hg => exact runPacked_noWindowFault code hg h
  | reserved => exact nofun

theorem fillBands_noWindowFault (n : Nat) {w : Work} (h : w.cfg.oowPolicy = .stale) :
    (fillBands n w).2.noWindowFault := by
  induction n generalizing w with
  | zero => exact nofun
  | succ n ih =>
    simp only [fillBands]
    split
    next hok =>
      have hcfg := (bandOutcome_okay (bandDispatch_outcome (BitVec.ofNat 5 (w.take 5).1) (w.take 5).2) hok).1
      exact ih (by rw [hcfg]; exact h)
    · exact (bandDispatch_result _ _).noWindowFault h

/-- Under the stale policy the command body answers no window fault. -/
def staleNoWindowFault (body : Work → Work × Response) : Prop :=
  ∀ w : Work, w.cfg.oowPolicy = .stale → (body w).2.noWindowFault

theorem scaleCommand_staleNoWindowFault (e : BitVec 4) (x : BitVec 16) : staleNoWindowFault (scaleCommand e x) := by
  intro w _
  rcases scaleCommand_cases e x w with ⟨-, hw⟩ | ⟨-, hw⟩ <;> rw [hw] <;> exact nofun

theorem lookupCommand_staleNoWindowFault (idx : BitVec 17) : staleNoWindowFault (lookupCommand idx) := by
  intro w _
  unfold lookupCommand
  split
  · exact nofun
  · split <;> exact nofun

theorem bandCommand_staleNoWindowFault (code : BitVec 5) : staleNoWindowFault (bandCommand (bandDispatch code)) := by
  intro w h
  unfold bandCommand
  split
  · exact (bandDispatch_result code w).noWindowFault h
  · exact nofun

theorem untransformCommand_staleNoWindowFault : staleNoWindowFault untransformCommand := by
  intro w _
  rcases untransformCommand_cases w with ⟨-, -, hw⟩ | hw <;> rw [hw] <;> exact nofun

theorem popCommand_staleNoWindowFault : staleNoWindowFault popCommand := by
  intro w _
  unfold popCommand
  split
  · exact nofun
  · split <;> exact nofun

theorem fillCommand_staleNoWindowFault : staleNoWindowFault fillCommand := by
  intro w h
  unfold fillCommand
  split
  · exact nofun
  · split
    · exact nofun
    · exact fillBands_noWindowFault _ h

theorem openCommand_staleNoWindowFault (L : BitVec 4) (R : BitVec 12) (total : BitVec 32) :
    staleNoWindowFault (openCommand L R total) := by
  intro w _
  unfold openCommand
  split
  · exact nofun
  · split <;> exact nofun

/-- CLOSE's own fault is F_DOUBLE_CLOSE (R264). -/
theorem closeCommand_staleNoWindowFault : staleNoWindowFault closeCommand := by
  intro w _
  rcases closeCommand_cases w with ⟨-, hw⟩ | ⟨-, hw⟩ <;> rw [hw]
  · rintro f ⟨⟩
    simp [FaultRecord.code]
  · exact nofun

theorem commandBody_staleNoWindowFault (i : Instr) : staleNoWindowFault (commandBody i) :=
  commandBody_cases (P := staleNoWindowFault) (scale := scaleCommand_staleNoWindowFault)
    (lookup := lookupCommand_staleNoWindowFault) (band := bandCommand_staleNoWindowFault)
    (untransform := untransformCommand_staleNoWindowFault) (pop := popCommand_staleNoWindowFault)
    (fill := fillCommand_staleNoWindowFault) (openCtx := openCommand_staleNoWindowFault)
    (closeCtx := closeCommand_staleNoWindowFault) i

end Sys2Proof.Machine
end

section
/-! SUPPORT. A band's rows along the groups on the stream (file 41, section 4): the groups' symbols, one after another,
are written as one list, and the stream moves on by the groups' bits. -/

namespace Sys2Proof.Machine

open Sys2Proof

/-! ### Writing a list of symbols -/

/-- A run's next part, unless it has raised a fault. -/
def Ran.andThen (x : Ran) (next : Work → Ran) : Ran :=
  match x with
  | .going w => next w
  | .raised f w => .raised f w

/-- A run with the stream moved on by `n` more bits. -/
def Ran.skip (x : Ran) (n : Nat) : Ran :=
  match x with
  | .going w => .going (w.skip n)
  | .raised f w => .raised f (w.skip n)

theorem writeSymbols_cons (code : BitVec 5) {r : Nat} (y : Symbol) (ys : List Symbol) {w : Work}
    (hr : r < w.c.R.toNat) :
    writeSymbols code r (y :: ys) w = (writeSymbol code r y w).andThen (writeSymbols code (r + 1) ys) := by
  rw [writeSymbols, if_pos hr]
  cases writeSymbol code r y w <;> rfl

/-- No row at or past R is written (file 41, section 4). -/
theorem writeSymbols_pastRows (code : BitVec 5) {r : Nat} (ys : List Symbol) {w : Work} (hr : ¬ r < w.c.R.toNat) :
    writeSymbols code r ys w = .going w := by
  cases ys with
  | nil => rfl
  | cons y ys => rw [writeSymbols, if_neg hr]

theorem writeSymbols_append (code : BitVec 5) (ys zs : List Symbol) (r : Nat) (w : Work) :
    writeSymbols code r (ys ++ zs) w =
      (writeSymbols code r ys w).andThen (writeSymbols code (r + ys.length) zs) := by
  induction ys generalizing r w with
  | nil => rfl
  | cons y ys ih =>
    by_cases hr : r < w.c.R.toNat
    · rw [List.cons_append, writeSymbols_cons code y _ hr, writeSymbols_cons code y _ hr]
      cases writeSymbol code r y w with
      | going w' =>
        rw [List.length_cons, ← Nat.add_assoc, Nat.add_right_comm]
        exact ih (r + 1) w'
      | raised f w' => rfl
    · rw [writeSymbols_pastRows code _ hr, writeSymbols_pastRows code _ hr]
      exact (writeSymbols_pastRows code zs (by omega)).symm

/-- A LUT read does not look at the stream. -/
theorem Work.lutRead_skip (w : Work) (k : Int) (n : Nat) :
    (w.skip n).lutRead k = (w.lutRead k).map fun p => (p.1, p.2.skip n) := by
  rcases w.lutRead_cases k with ⟨hin, h⟩ | ⟨hin, hpol, h⟩ | ⟨hin, hpol, v, hv, h⟩ | ⟨hin, hpol, hv, h⟩ <;> rw [h]
  · simp [Work.lutRead, hin]
  · simp [Work.lutRead, hin, hpol]
  · simp [Work.lutRead, hin, hpol, hv]
  · simp [Work.lutRead, hin, hpol, hv, Work.skip]

/-- A row's write does not look at the stream. -/
theorem writeSymbol_skip (code : BitVec 5) (r : Nat) (y : Symbol) (w : Work) (n : Nat) :
    writeSymbol code r y (w.skip n) = (writeSymbol code r y w).skip n := by
  cases y with
  | zero => rfl
  | deq k =>
    rw [writeSymbol, writeSymbol, Work.lutRead_skip]
    cases w.lutRead k <;> rfl

theorem writeSymbols_skip (code : BitVec 5) (ys : List Symbol) (r : Nat) (w : Work) (n : Nat) :
    writeSymbols code r ys (w.skip n) = (writeSymbols code r ys w).skip n := by
  induction ys generalizing r w with
  | nil => rfl
  | cons y ys ih =>
    by_cases hr : r < w.c.R.toNat
    · rw [writeSymbols_cons code y ys hr, writeSymbols_cons code y ys (w := w.skip n) hr, writeSymbol_skip]
      cases writeSymbol code r y w with
      | going w' => exact ih (r + 1) w'
      | raised f w' => rfl
    · rw [writeSymbols_pastRows code _ hr, writeSymbols_pastRows code _ (w := w.skip n) hr]
      rfl

theorem writeSymbols_going_frame {code : BitVec 5} {ys : List Symbol} {r : Nat} {w w' : Work}
    (h : writeSymbols code r ys w = .going w') : w.fillsTo w' ∧ w'.c.bitPos = w.c.bitPos := by
  rcases writeSymbols_spec code ys r w with ⟨u, hu, hfill, hpos, -⟩ | ⟨k, row, u, -, -, -, -, hu⟩ <;>
    cases hu.symm.trans h
  exact ⟨hfill, hpos⟩

/-! ### The groups on the stream -/

/-- A group of a payload: its symbols, and how many bits it takes. -/
abbrev ReadGroup := List Symbol × Nat

/-- With the stream `src` at bit `pos`, the scheme reads the group `g`. -/
def readsGroup (group : Work → Group) (src : List Byte) (pos : Nat) (g : ReadGroup) : Prop :=
  ∀ w : Work, w.c.source = src → w.c.bitPos = pos → group w = .symbols g.1 (w.skip g.2)

/-- With the stream `src` at bit `pos`, the scheme reads the groups `gs` one after another. -/
def readsGroups (group : Work → Group) (src : List Byte) (pos : Nat) (gs : List ReadGroup) : Prop :=
  match gs with
  | [] => True
  | g :: gs => readsGroup group src pos g ∧ readsGroups group src (pos + g.2) gs

/-- The groups `gs` fill the rows from `r` to `R`, and none of them is past the last row. -/
def fillsRows (R r : Nat) (gs : List ReadGroup) : Prop :=
  match gs with
  | [] => R ≤ r
  | g :: gs => r < R ∧ fillsRows R (r + g.1.length) gs

/-- One turn of a band's loop: its group's symbols are written, then the loop goes on past them. -/
theorem bandRows_turn (code : BitVec 5) {group : Work → Group} {turns r : Nat} {w : Work} {g : ReadGroup}
    (hr : r < w.c.R.toNat) (hg : group w = .symbols g.1 (w.skip g.2)) :
    bandRows code group (turns + 1) r w =
      ((writeSymbols code r g.1 w).skip g.2).andThen (bandRows code group turns (r + g.1.length)) := by
  simp only [bandRows, if_pos hr, hg, writeSymbols_skip]
  cases writeSymbols code r g.1 w <;> rfl

/-- A group the scheme reads stands for a row at least. -/
theorem groupTakes_length_pos {group : Work → Group} (h : groupTakes group) {w w' : Work} {ys : List Symbol}
    (hg : group w = .symbols ys w') : 1 ≤ ys.length := by
  rcases h w with ⟨ys', n, hw, hlen⟩ | ⟨v, n, hw⟩ <;> cases hw.symm.trans hg
  exact hlen

/-- The state a group leaves stands where the next group begins. -/
theorem readsGroups_after {group : Work → Group} {w w' : Work} {n : Nat} {gs : List ReadGroup}
    (h : w.fillsTo w' ∧ w'.c.bitPos = w.c.bitPos) (hgs : readsGroups group w.c.source (w.c.bitPos + n) gs) :
    readsGroups group (w'.skip n).c.source (w'.skip n).c.bitPos gs := by
  obtain ⟨hfill, hpos⟩ := h
  have hsrc : w'.c.source = w.c.source := by rw [hfill]
  rwa [Work.skip_c_source, Work.skip_c_bitPos, hsrc, hpos]

/-- A fault on the way through the groups' symbols ends the band. -/
theorem bandRows_raises (code : BitVec 5) {group : Work → Group} (htakes : groupTakes group) {gs : List ReadGroup}
    {turns r : Nat} {w w' : Work} {f : FaultRecord} (ht : w.c.R.toNat ≤ r + turns)
    (hgs : readsGroups group w.c.source w.c.bitPos gs)
    (h : writeSymbols code r (gs.flatMap Prod.fst) w = .raised f w') :
    ∃ n, bandRows code group turns r w = .raised f (w'.skip n) := by
  induction gs generalizing turns r w w' with
  | nil => cases h
  | cons g gs ih =>
    have hr : r < w.c.R.toNat := by
      by_contra hr
      cases (writeSymbols_pastRows code _ hr).symm.trans h
    obtain ⟨t, rfl⟩ : ∃ t, turns = t + 1 := ⟨turns - 1, by omega⟩
    have hg := hgs.1 w rfl rfl
    have hlen := groupTakes_length_pos htakes hg
    rw [bandRows_turn code hr hg]
    rw [List.flatMap_cons, writeSymbols_append] at h
    cases hw : writeSymbols code r g.1 w with
    | raised f₁ w₁ =>
      rw [hw] at h
      cases h
      exact ⟨g.2, rfl⟩
    | going w₁ =>
      rw [hw] at h
      have hframe := writeSymbols_going_frame hw
      have hrows : w₁.c.R = w.c.R := Work.fillsTo_rows hframe.1
      obtain ⟨n, hn⟩ := ih (w := w₁.skip g.2) (turns := t) (r := r + g.1.length) (w' := w'.skip g.2)
        (by rw [Work.skip_c_R, hrows]; omega) (readsGroups_after hframe hgs.2)
        (by rw [writeSymbols_skip]; exact congrArg (Ran.skip · g.2) h)
      exact ⟨g.2 + n, by rw [← Work.skip_skip]; exact hn⟩

/-- Groups that fill the rows and raise no fault are written, and their bits taken. -/
theorem bandRows_goes (code : BitVec 5) {group : Work → Group} (htakes : groupTakes group) {gs : List ReadGroup}
    {turns r : Nat} {w w' : Work} (ht : w.c.R.toNat ≤ r + turns)
    (hgs : readsGroups group w.c.source w.c.bitPos gs) (hrows : fillsRows w.c.R.toNat r gs)
    (h : writeSymbols code r (gs.flatMap Prod.fst) w = .going w') :
    bandRows code group turns r w = .going (w'.skip (gs.map Prod.snd).sum) := by
  induction gs generalizing turns r w w' with
  | nil =>
    cases h
    cases turns with
    | zero => rfl
    | succ t => exact if_neg (Nat.not_lt.mpr hrows)
  | cons g gs ih =>
    obtain ⟨hr, hrows⟩ := hrows
    obtain ⟨t, rfl⟩ : ∃ t, turns = t + 1 := ⟨turns - 1, by omega⟩
    have hg := hgs.1 w rfl rfl
    have hlen := groupTakes_length_pos htakes hg
    rw [bandRows_turn code hr hg]
    rw [List.flatMap_cons, writeSymbols_append] at h
    cases hw : writeSymbols code r g.1 w with
    | raised f₁ w₁ => rw [hw] at h; cases h
    | going w₁ =>
      rw [hw] at h
      have hframe := writeSymbols_going_frame hw
      have hR : w₁.c.R = w.c.R := Work.fillsTo_rows hframe.1
      rw [List.map_cons, List.sum_cons, ← Work.skip_skip]
      exact ih (w := w₁.skip g.2) (by rw [Work.skip_c_R, hR]; omega) (readsGroups_after hframe hgs.2)
        (by rwa [Work.skip_c_R, hR]) (by rw [writeSymbols_skip]; exact congrArg (Ran.skip · g.2) h)

/-! ### Groups of one size -/

/-- The groups `a` to `a + m − 1` of a payload whose groups all take `n` bits: group `j` stands for `f j`. -/
def uniformGroups (n : Nat) (f : Nat → List Symbol) (a m : Nat) : List ReadGroup :=
  (List.range' a m).map fun j => (f j, n)

theorem readsGroups_uniform {group : Work → Group} {src : List Byte} {pos n : Nat} {f : Nat → List Symbol} (m : Nat)
    {a : Nat} (h : ∀ j, a ≤ j → j < a + m → readsGroup group src (pos + n * j) (f j, n)) :
    readsGroups group src (pos + n * a) (uniformGroups n f a m) := by
  induction m generalizing a with
  | zero => trivial
  | succ m ih =>
    refine ⟨h a (Nat.le_refl a) (by omega), ?_⟩
    rw [Nat.add_assoc, ← Nat.mul_succ]
    exact ih fun j hj hjm => h j (by omega) (by omega)

/-- Row `r` of groups of `n` rows is row `r mod n` of group `r / n`. -/
theorem uniformGroups_symbol {n rows : Nat} {f : Nat → List Symbol} (hrows : 0 < rows) (hlen : ∀ j, (f j).length = rows)
    (m : Nat) {a r : Nat} (hr : r < rows * m) :
    ((uniformGroups n f a m).flatMap Prod.fst)[r]? = (f (a + r / rows))[r % rows]? := by
  induction m generalizing a r with
  | zero => omega
  | succ m ih =>
    have hcons : (uniformGroups n f a (m + 1)).flatMap Prod.fst =
        f a ++ (uniformGroups n f (a + 1) m).flatMap Prod.fst := rfl
    rw [hcons]
    by_cases hfirst : r < rows
    · rw [List.getElem?_append_left (by rwa [hlen]), Nat.div_eq_of_lt hfirst, Nat.mod_eq_of_lt hfirst, Nat.add_zero]
    · rw [List.getElem?_append_right (by rw [hlen]; omega), hlen, ih (by rw [Nat.mul_succ] at hr; omega),
        Nat.mod_eq_sub_mod (a := r) (by omega), Nat.div_eq_sub_div (a := r) hrows (by omega), Nat.add_assoc,
        Nat.add_comm 1]

end Sys2Proof.Machine
end

section
/-! SUPPORT. A band's first row outside the window, under the fault policy (R132, R301, R305). -/

namespace Sys2Proof.Machine

open Sys2Proof

/-! ### The fault -/

/-- A symbol whose index, if it has one, is inside the window is written as its value (R152). -/
theorem writeSymbol_inside (code : BitVec 5) (r : Nat) {y : Symbol} {w : Work}
    (h : ∀ k, y = .deq k → w.lut.inWindow k = true) :
    writeSymbol code r y w = .going (w.bufWrite (w.cell r) (Claims.symbolValue w.lut y)) := by
  cases y with
  | zero => rfl
  | deq k =>
    simp only [writeSymbol, Work.lutRead, h k rfl, if_true]
    rfl

/-- The first symbol whose index is outside the window faults with that index and its row (R132, R301). -/
theorem writeSymbols_raises (code : BitVec 5) {ys : List Symbol} {r i : Nat} {k : Int} {w : Work}
    (hpolicy : w.cfg.oowPolicy = .fault) (hi : r + i < w.c.R.toNat) (hk : ys[i]? = some (.deq k))
    (hout : w.lut.inWindow k = false) (hin : ∀ j < i, ∀ k', ys[j]? = some (.deq k') → w.lut.inWindow k' = true) :
    ∃ w', w.fillsTo w' ∧
      writeSymbols code r ys w = .raised (.lutWindow (BitVec.ofInt 17 k) code w.c.nextBand (r + i)) w' := by
  induction ys generalizing r i w with
  | nil => simp at hk
  | cons y ys ih =>
    rw [writeSymbols_cons code y ys (by omega)]
    cases i with
    | zero =>
      obtain rfl : y = .deq k := Option.some.inj hk
      refine ⟨w, w.fillsTo_refl, ?_⟩
      simp [writeSymbol, Work.lutRead, hout, hpolicy, Ran.andThen]
    | succ i =>
      rw [writeSymbol_inside code r fun k' hy => hin 0 (Nat.succ_pos i) k' (congrArg some hy)]
      obtain ⟨w', hfill, hw'⟩ := ih (r := r + 1) (i := i) (w := w.bufWrite (w.cell r) (Claims.symbolValue w.lut y))
        hpolicy (by rw [Work.bufWrite_c_R]; omega) hk hout fun j hj => hin (j + 1) (by omega)
      refine ⟨w', Work.fillsTo_trans (w.fillsTo_bufWrite _ _) hfill, ?_⟩
      rw [← Nat.add_assoc, Nat.add_right_comm]
      exact hw'

/-- A band's fault, in the groups it reads (R132, R305). -/
theorem runBand_raises (code : BitVec 5) {group : Work → Group} (htakes : groupTakes group) {gs : List ReadGroup}
    {row : Nat} {k : Int} {w : Work} (hgs : readsGroups group w.c.source w.c.bitPos gs)
    (hpolicy : w.cfg.oowPolicy = .fault) (hrow : row < w.c.R.toNat)
    (hk : (gs.flatMap Prod.fst)[row]? = some (.deq k)) (hout : w.lut.inWindow k = false)
    (hin : ∀ r < row, ∀ k', (gs.flatMap Prod.fst)[r]? = some (.deq k') → w.lut.inWindow k' = true) :
    ∃ w', w.fillsTo w' ∧
      runBand code group w = w'.takeFault (.lutWindow (BitVec.ofInt 17 k) code w.c.nextBand row) := by
  obtain ⟨w', hfill, hw'⟩ := writeSymbols_raises code (r := 0) hpolicy (by rwa [Nat.zero_add]) hk hout hin
  obtain ⟨n, hn⟩ := bandRows_raises code htakes (turns := w.c.R.toNat) (by omega) hgs hw'
  refine ⟨w'.skip n, Work.fillsTo_trans hfill (w'.fillsTo_skip n), ?_⟩
  rw [runBand, hn, Nat.zero_add]

/-! ### The commands -/

/-- A BAND that is expected runs its code's rule (R150). -/
theorem bandCommand_expected {s : State} {c : Context} (h : Claims.Expecting s c) (rule : Work → Work × Response) :
    bandCommand rule (s.work c) = rule (s.work c) :=
  if_pos ((s.work c).awaitsBand_iff.mpr ⟨h.2.1, Nat.ne_of_lt h.2.2⟩)

theorem runPacked_gk (code : BitVec 5) (group : Work → Group) {w : Work} (h : w.cfg.packed = .gk) :
    runPacked code group w = runBand code group w := by
  rw [runPacked, h]

/-- A command whose body takes a fault on the way through a column ends in it (R305). -/
theorem endsInFault_of_body {i : Instr} {s : State} {c : Context} (h : Claims.Serves s c) {f : FaultRecord}
    (hbody : ∃ w', (s.work c).fillsTo w' ∧ commandBody i (s.work c) = w'.takeFault f) :
    Claims.EndsInFault i s c f := by
  obtain ⟨w', hfill, hbody⟩ := hbody
  refine ⟨(w'.takeFault f).1.c, w'.draws + 1, ?_, ?_⟩
  · rw [hfill]
    rfl
  · rw [exec_of_body h hbody, hfill]
    rfl

/-! ### Groups of one size -/

/-- A band whose groups all take `bits` bits and stand for `rows` rows, row `r` for the index `index r`, faults at its
first row outside the window, if every group up to that row's has its symbols. -/
theorem runBand_uniform_raises (code : BitVec 5) {group : Work → Group} (htakes : groupTakes group)
    {bits rows row : Nat} {f : Nat → List Symbol} {index : Nat → Int} {w : Work} (hrows : 0 < rows)
    (hlen : ∀ j, (f j).length = rows)
    (hindex : ∀ r, (f (r / rows))[r % rows]? = some (.deq (index r)))
    (hreads : ∀ j ≤ row / rows, readsGroup group w.c.source (w.c.bitPos + bits * j) (f j, bits))
    (hpolicy : w.cfg.oowPolicy = .fault) (hrow : row < w.c.R.toNat) (hout : w.lut.inWindow (index row) = false)
    (hin : ∀ r < row, w.lut.inWindow (index r) = true) :
    ∃ w', w.fillsTo w' ∧
      runBand code group w = w'.takeFault (.lutWindow (BitVec.ofInt 17 (index row)) code w.c.nextBand row) := by
  have hsymbol {r : Nat} (hr : r ≤ row) :
      ((uniformGroups bits f 0 (row / rows + 1)).flatMap Prod.fst)[r]? = some (.deq (index r)) := by
    have hcovered : row < rows * (row / rows + 1) := Nat.lt_mul_div_succ row hrows
    rw [uniformGroups_symbol hrows hlen _ (by omega), Nat.zero_add, hindex]
  refine runBand_raises code htakes
    (readsGroups_uniform (row / rows + 1) (a := 0) fun j _ hj => hreads j (by omega)) hpolicy hrow
    (hsymbol (Nat.le_refl row)) hout fun r hr k' hk' => ?_
  cases (hsymbol (Nat.le_of_lt hr)).symm.trans hk'
  exact hin r hr

/-- The symbols of group `j` of a direct n-bit band: its row `j` (R153). -/
def directSymbols (c : Context) (n j : Nat) : List Symbol := [.deq (Claims.directIndex c n j)]

theorem groupDirect_reads (c : Context) (n j : Nat) :
    readsGroup (groupDirect n) c.source (c.bitPos + n * j) (directSymbols c n j, n) := by
  intro w hsrc hpos
  simp only [groupDirect, Work.take_value, Work.take_rest, Work.peek, hsrc, hpos, directSymbols, Claims.directIndex]

/-- Each direct band's body is the rule of its width, and its format code is the width (R153). -/
theorem directBand_body {p : Nat × Instr} (h : p ∈ Claims.directBands) :
    commandBody p.2 = bandCommand (runBand (BitVec.ofNat 5 p.1) (groupDirect p.1)) := by
  simp only [Claims.directBands, List.mem_cons, List.not_mem_nil, or_false] at h
  rcases h with rfl | rfl | rfl | rfl | rfl | rfl | rfl | rfl | rfl | rfl | rfl | rfl | rfl | rfl <;> rfl

/-- Digit `i` of `v` in base `b`. -/
theorem digits_getElem? (b : Nat) {n i : Nat} (v : Nat) (hi : i < n) :
    (digits b n v)[i]? = some (v / b ^ i % b) := by
  induction n generalizing v i with
  | zero => omega
  | succ n ih =>
    cases i with
    | zero => simp [digits]
    | succ i => rw [digits, List.getElem?_cons_succ, ih _ (by omega), Nat.div_div_eq_div_mul, ← Nat.pow_succ']

/-- The symbols of group `j` of a mixed-radix band (R174, R177, R182). -/
def radixSymbols (c : Context) (b : Claims.RadixBand) (j : Nat) : List Symbol :=
  (digits b.base b.n (Claims.groupValue c b.bits j)).map fun d : Nat =>
    .deq ((d : Int) - (((b.base - 1) / 2 : Nat) : Int))

theorem radixSymbols_index (c : Context) {b : Claims.RadixBand} (hn : 0 < b.n) (r : Nat) :
    (radixSymbols c b (r / b.n))[r % b.n]? = some (.deq (Claims.radixIndex c b r)) := by
  rw [radixSymbols, List.getElem?_map, digits_getElem? _ _ (Nat.mod_lt r hn)]
  rfl

theorem groupRadix_reads {c : Context} {b : Claims.RadixBand} {j : Nat}
    (h : Claims.groupValue c b.bits j < b.base ^ b.n) :
    readsGroup (groupRadix b.bits b.base b.n) c.source (c.bitPos + b.bits * j) (radixSymbols c b j, b.bits) := by
  intro w hsrc hpos
  have hvalue : w.peek b.bits = Claims.groupValue c b.bits j := by rw [Work.peek, hsrc, hpos, Claims.groupValue]
  simp only [groupRadix, Work.take_value, Work.take_rest, hvalue, if_pos h, radixSymbols]

/-- Each mixed-radix band's body is the rule of its digits (R174, R177, R182). -/
theorem radixBand_body {b : Claims.RadixBand} (h : b ∈ Claims.radixBands) :
    0 < b.n ∧ commandBody b.instr = bandCommand (runPacked b.code (groupRadix b.bits b.base b.n)) := by
  simp only [Claims.radixBands, List.mem_cons, List.not_mem_nil, or_false] at h
  rcases h with rfl | rfl | rfl <;> exact ⟨by decide, rfl⟩

/-! ### Codewords -/

/-- The bits `bs` stand on the stream `src` from bit `pos` on. -/
def bitsOnStream (src : List Byte) (pos : Nat) (bs : List Bool) : Prop :=
  ∀ i, i < bs.length → bs[i]? = some (streamBit src (pos + i))

theorem bitsOnStream_append {src : List Byte} {pos : Nat} {as bs : List Bool} (h : bitsOnStream src pos (as ++ bs)) :
    bitsOnStream src pos as ∧ bitsOnStream src (pos + as.length) bs := by
  refine ⟨fun i hi => ?_, fun i hi => ?_⟩
  · rw [← h i (by rw [List.length_append]; omega), List.getElem?_append_left hi]
  · rw [Nat.add_assoc, ← h (as.length + i) (by rw [List.length_append]; omega),
      List.getElem?_append_right (Nat.le_add_right _ _), Nat.add_sub_cancel_left]

theorem bitsOnStream_cons {src : List Byte} {pos : Nat} {b : Bool} {bs : List Bool}
    (h : bitsOnStream src pos (b :: bs)) : streamBit src pos = b ∧ bitsOnStream src (pos + 1) bs :=
  ⟨(Option.some.inj (h 0 (Nat.succ_pos _))).symm, (bitsOnStream_append (as := [b]) h).2⟩

/-- A take of bits known to stand on the stream is the number they write, lowest first (R10, R70). -/
theorem streamBits_of_bitsOnStream {src : List Byte} {pos : Nat} {bs : List Bool} (h : bitsOnStream src pos bs) :
    streamBits src pos bs.length = Nat.ofDigits 2 (bs.map Bool.toNat) := by
  induction bs generalizing pos with
  | nil => rfl
  | cons b bs ih =>
    obtain ⟨hbit, hrest⟩ := bitsOnStream_cons h
    rw [List.length_cons, streamBits, hbit, ih hrest, List.map_cons, Nat.ofDigits_cons]

/-- Where the bits of one of the codewords stand on the stream, the scheme reads that codeword. -/
def readsCodewords (group : Work → Group) (table : List Claims.Codeword) : Prop :=
  ∀ g ∈ table, ∀ w : Work, bitsOnStream w.c.source w.c.bitPos g.2 → group w = .symbols g.1 (w.skip g.2.length)

theorem oneZero_readsCodewords : readsCodewords oneZero [([.zero], [])] := by
  intro g hg w _
  obtain rfl := List.mem_singleton.mp hg
  rfl

theorem twoZeros_readsCodewords : readsCodewords twoZeros [([.zero, .zero], [])] := by
  intro g hg w _
  obtain rfl := List.mem_singleton.mp hg
  rfl

/-- A map of R187 reads the table of its entries. -/
theorem mapped_readsCodewords {n : Nat} {map : Nat → Int} {table : List (Int × List Bool)}
    (h : ∀ p ∈ table, p.2.length = n ∧ map (Nat.ofDigits 2 (p.2.map Bool.toNat)) = p.1) :
    readsCodewords (mapped n map) (Claims.coded [] table) := by
  intro g hg w hbits
  obtain ⟨p, hp, rfl⟩ := List.mem_map.mp hg
  obtain ⟨rfl, hmap⟩ := h p hp
  simp only [List.nil_append] at hbits ⊢
  rw [mapped, Work.take_value, Work.take_rest, Work.peek, streamBits_of_bitsOnStream hbits, hmap]

/-- The codewords of a table with one more bit in front. -/
def prefixed (b : Bool) (table : List Claims.Codeword) : List Claims.Codeword := table.map fun g => (g.1, b :: g.2)

theorem onBit_readsCodewords {a b : Work → Group} {ta tb : List Claims.Codeword} (ha : readsCodewords a ta)
    (hb : readsCodewords b tb) : readsCodewords (onBit a b) (prefixed false ta ++ prefixed true tb) := by
  have hbranch {w : Work} {bit : Bool} {bs : List Bool} (hbits : bitsOnStream w.c.source w.c.bitPos (bit :: bs)) :
      onBit a b w = (if bit then b else a) (w.skip 1) ∧ bitsOnStream (w.skip 1).c.source (w.skip 1).c.bitPos bs := by
    obtain ⟨hbit, hrest⟩ := bitsOnStream_cons hbits
    refine ⟨?_, hrest⟩
    have hpeek : w.peek 1 = bit.toNat := by simp [Work.peek, streamBits, hbit]
    rw [onBit, Work.take_value, Work.take_rest, hpeek]
    cases bit <;> rfl
  have hskip (w : Work) (bs : List Bool) : w.skip (bs.length + 1) = (w.skip 1).skip bs.length := by
    rw [Work.skip_skip, Nat.add_comm]
  intro g hg w hbits
  rcases List.mem_append.mp hg with hg | hg <;> obtain ⟨g', hg', rfl⟩ := List.mem_map.mp hg <;>
    obtain ⟨hrun, hrest⟩ := hbranch hbits <;> rw [hrun, List.length_cons, hskip]
  · exact ha g' hg' (w.skip 1) hrest
  · exact hb g' hg' (w.skip 1) hrest

theorem map1_readsCodewords : readsCodewords (mapped 1 map1) (Claims.coded [] Claims.unitTable) :=
  mapped_readsCodewords (by decide)

theorem near2_readsCodewords : readsCodewords (mapped 2 near2) (Claims.coded [] Claims.nearTable) :=
  mapped_readsCodewords (by decide)

theorem far2_readsCodewords : readsCodewords (mapped 2 far2) (Claims.coded [] Claims.farTable) :=
  mapped_readsCodewords (by decide)

theorem map3_readsCodewords : readsCodewords (mapped 3 map3) (Claims.coded [] Claims.eightTable) :=
  mapped_readsCodewords (by decide)

/-- The body of each band with codewords is the rule of a scheme that reads the band's codewords (R172, R173, R175,
R176, R178 to R181). -/
theorem prefixBand_body {p : Instr × Int × List Claims.Codeword} (h : p ∈ Claims.prefixBands) :
    ∃ code group, p.1.bandCode = some code ∧ commandBody p.1 = bandCommand (runPacked code group) ∧
      groupTakes group ∧ readsCodewords group p.2.2 := by
  have zeroOr {b : Work → Group} {tb : List Claims.Codeword} (hb : readsCodewords b tb) :=
    onBit_readsCodewords oneZero_readsCodewords hb
  have zerosOr {b : Work → Group} {tb : List Claims.Codeword} (hb : readsCodewords b tb) :=
    onBit_readsCodewords twoZeros_readsCodewords hb
  have unitOrFar := onBit_readsCodewords map1_readsCodewords far2_readsCodewords
  simp only [Claims.prefixBands, List.mem_cons, List.not_mem_nil, or_false] at h
  rcases h with rfl | rfl | rfl | rfl | rfl | rfl | rfl | rfl
  · exact ⟨17, _, rfl, rfl, groupK13_takes, zerosOr (zeroOr map1_readsCodewords)⟩
  · exact ⟨18, _, rfl, rfl, groupK12_takes, zeroOr map1_readsCodewords⟩
  · exact ⟨20, _, rfl, rfl, groupK24_takes, zerosOr (zeroOr near2_readsCodewords)⟩
  · exact ⟨21, _, rfl, rfl, groupK23_takes, zeroOr near2_readsCodewords⟩
  · exact ⟨23, _, rfl, rfl, groupK35_takes, zerosOr (zeroOr unitOrFar)⟩
  · exact ⟨24, _, rfl, rfl, groupK34_takes, zeroOr unitOrFar⟩
  · exact ⟨26, _, rfl, rfl, groupK45_takes, zerosOr (zeroOr map3_readsCodewords)⟩
  · exact ⟨27, _, rfl, rfl, groupK44_takes, zeroOr map3_readsCodewords⟩

/-- A codeword as a group of a payload: its rows, and how many bits it has. -/
def codewordGroup (g : Claims.Codeword) : ReadGroup := (g.1, g.2.length)

/-- Codewords that stand on the stream one after another are read one after another. -/
theorem readsGroups_codewords {group : Work → Group} {table gs : List Claims.Codeword} (h : readsCodewords group table)
    {src : List Byte} {pos : Nat} (hgs : ∀ g ∈ gs, g ∈ table) (hbits : bitsOnStream src pos (gs.flatMap Prod.snd)) :
    readsGroups group src pos (gs.map codewordGroup) := by
  induction gs generalizing pos with
  | nil => trivial
  | cons g gs ih =>
    rw [List.flatMap_cons] at hbits
    obtain ⟨hg, hrest⟩ := bitsOnStream_append hbits
    refine ⟨fun w hsrc hpos => h g (hgs g (List.mem_cons_self ..)) w (by rwa [hsrc, hpos]), ?_⟩
    exact ih (fun g' hg' => hgs g' (List.mem_cons_of_mem _ hg')) hrest

end Sys2Proof.Machine
end

section
/-! SUPPORT. What a band writes under the stale policy (R132, R351). -/

namespace Sys2Proof.Machine

open Sys2Proof

/-- The words a dequantized index can be stored as under the stale policy: the window's cell, outside the window what an
earlier build left, and where none wrote one of the draws from `lo` to `hi` (R132). -/
def LutUnit.storesStale (u : LutUnit) (lo hi : Nat) (k : Int) (v : Word) : Prop :=
  (u.inWindow k = true → v = sext32 (u.windowCell k)) ∧
  (u.inWindow k = false → ∀ x, u.read? k = some x → v = sext32 x) ∧
  (u.inWindow k = false → u.read? k = none → ∃ d, lo ≤ d ∧ d < hi ∧ v = sext32 (Config.staleDraw d))

theorem LutUnit.storesStale_mono {u : LutUnit} {lo lo' hi hi' : Nat} {k : Int} {v : Word}
    (h : u.storesStale lo hi k v) (hlo : lo' ≤ lo) (hhi : hi ≤ hi') : u.storesStale lo' hi' k v := by
  obtain ⟨hin, hout, hdraw⟩ := h
  refine ⟨hin, hout, fun hw hr => ?_⟩
  obtain ⟨d, hd, hd', hv⟩ := hdraw hw hr
  exact ⟨d, hlo.trans hd, hd'.trans_le hhi, hv⟩

/-- Under the stale policy every row is written (R132). -/
theorem writeSymbol_stale (code : BitVec 5) (r : Nat) (y : Symbol) {w : Work} (h : w.cfg.oowPolicy = .stale) :
    ∃ v draws, w.draws ≤ draws ∧ (∀ k, y = .deq k → w.lut.storesStale w.draws draws k v) ∧
      writeSymbol code r y w = .going (({ w with draws := draws } : Work).bufWrite (w.cell r) v) := by
  cases y with
  | zero => exact ⟨0, w.draws, Nat.le_refl _, nofun, rfl⟩
  | deq k =>
    rcases w.lutRead_cases k with ⟨hin, hread⟩ | ⟨-, hfault, -⟩ | ⟨hin, -, x, hx, hread⟩ | ⟨hin, -, hnone, hread⟩
    · refine ⟨_, w.draws, Nat.le_refl _, ?_, by rw [writeSymbol, hread]; rfl⟩
      rintro _ ⟨⟩
      exact ⟨fun _ => rfl, by simp [hin], by simp [hin]⟩
    · simp [h] at hfault
    · refine ⟨_, w.draws, Nat.le_refl _, ?_, by rw [writeSymbol, hread]; rfl⟩
      rintro _ ⟨⟩
      exact ⟨by simp [hin], by simp [hx], by simp [hx]⟩
    · refine ⟨_, w.draws + 1, Nat.le_succ _, ?_, by rw [writeSymbol, hread]; rfl⟩
      rintro _ ⟨⟩
      exact ⟨by simp [hin], by simp [hnone], fun _ _ => ⟨w.draws, Nat.le_refl _, Nat.lt_succ_self _, rfl⟩⟩

/-- The rows of a column are different words of BUF (R62). -/
theorem Work.cell_inj {w : Work} (hS : w.c.nextBand < w.c.S.toNat) {r q : Nat} (h : w.cell r = w.cell q) : r = q :=
  Nat.eq_of_mul_eq_mul_right (Nat.zero_lt_of_lt hS) (Nat.add_right_cancel h)

/-- Under the stale policy a list of symbols is written, and only the buffer and the draw counter change (R132). -/
theorem writeSymbols_stale (code : BitVec 5) (ys : List Symbol) (r : Nat) {w : Work} (h : w.cfg.oowPolicy = .stale)
    (hS : w.c.nextBand < w.c.S.toNat) :
    ∃ buf draws, writeSymbols code r ys w = .going { w with c := { w.c with buf := buf }, draws := draws } ∧
      w.draws ≤ draws ∧
      (∀ i, (∀ q, r ≤ q → q < w.c.R.toNat → i ≠ w.cell q) → Cells.get? buf i = Cells.get? w.c.buf i) ∧
      ∀ i k, ys[i]? = some (.deq k) → r + i < w.c.R.toNat →
        ∃ v, Cells.get? buf (w.cell (r + i)) = some v ∧ w.lut.storesStale w.draws draws k v := by
  induction ys generalizing r w with
  | nil => exact ⟨w.c.buf, w.draws, rfl, Nat.le_refl _, fun _ _ => rfl, by simp⟩
  | cons y ys ih =>
    by_cases hr : r < w.c.R.toNat
    · obtain ⟨v, n, hn, hv, hw⟩ := writeSymbol_stale code r y h
      obtain ⟨buf, draws, hrun, hdraws, hkept, hrows⟩ :=
        ih (r + 1) (w := ({ w with draws := n } : Work).bufWrite (w.cell r) v) h hS
      refine ⟨buf, draws, ?_, hn.trans hdraws, fun i hi => ?_, fun i k hk hi => ?_⟩
      · rw [writeSymbols_cons code y ys hr, hw]
        exact hrun
      · rw [hkept i fun q hq hqR => hi q (by omega) hqR]
        exact Cells.get?_put_ne _ v (hi r (Nat.le_refl r) hr)
      · cases i with
        | zero =>
          refine ⟨v, ?_, LutUnit.storesStale_mono (hv k (Option.some.inj hk)) (Nat.le_refl _) hdraws⟩
          rw [Nat.add_zero, hkept _ fun q hq _ hcell => absurd (Work.cell_inj hS hcell) (by omega)]
          exact Cells.get?_put_self _ _ _
        | succ i =>
          rw [← Nat.add_assoc, Nat.add_right_comm] at hi ⊢
          obtain ⟨u, hu, hstores⟩ := hrows i k hk hi
          exact ⟨u, hu, LutUnit.storesStale_mono hstores hn (Nat.le_refl _)⟩
    · exact ⟨w.c.buf, w.draws, writeSymbols_pastRows code _ hr, Nat.le_refl _, fun _ _ => rfl,
        fun i _ _ hi => absurd hi (by omega)⟩

/-- Groups of one row each fill as many rows as there are groups. -/
theorem fillsRows_oneRow (n : Nat) {f : Nat → List Symbol} (hlen : ∀ j, (f j).length = 1) (a m : Nat) :
    fillsRows (a + m) a (uniformGroups n f a m) := by
  induction m generalizing a with
  | zero => exact Nat.le_refl _
  | succ m ih =>
    refine ⟨by omega, ?_⟩
    rw [hlen, show a + (m + 1) = a + 1 + m by omega]
    exact ih (a + 1)

/-- The groups of a direct n-bit band: its rows (R153). -/
def directGroups (c : Context) (n : Nat) : List ReadGroup := uniformGroups n (directSymbols c n) 0 c.R.toNat

theorem directGroups_read (c : Context) (n : Nat) :
    readsGroups (groupDirect n) c.source c.bitPos (directGroups c n) :=
  readsGroups_uniform c.R.toNat (a := 0) fun j _ _ => groupDirect_reads c n j

theorem directGroups_fillRows (c : Context) (n : Nat) : fillsRows c.R.toNat 0 (directGroups c n) := by
  have h := fillsRows_oneRow n (f := directSymbols c n) (fun _ => rfl) 0 c.R.toNat
  rwa [Nat.zero_add] at h

theorem directGroups_bits (c : Context) (n : Nat) : ((directGroups c n).map Prod.snd).sum = n * c.R.toNat := by
  simp [directGroups, uniformGroups, Function.comp_def, Nat.mul_comm]

theorem directGroups_symbol (c : Context) (n : Nat) {r : Nat} (hr : r < c.R.toNat) :
    ((directGroups c n).flatMap Prod.fst)[r]? = some (.deq (Claims.directIndex c n r)) := by
  rw [directGroups, uniformGroups_symbol Nat.one_pos (fun _ => rfl) _ (by omega), Nat.div_one, Nat.mod_one,
    Nat.zero_add]
  rfl

/-- Under the stale policy a direct band takes n·R bits and stores every row (R132, R153). -/
theorem runBand_direct_stale (code : BitVec 5) (n : Nat) {w : Work} (h : w.cfg.oowPolicy = .stale)
    (hS : w.c.nextBand < w.c.S.toNat) :
    ∃ buf draws, runBand code (groupDirect n) w =
        ({ w with
            c := { w.c with buf := buf, nextBand := w.c.nextBand + 1, bitPos := w.c.bitPos + n * w.c.R.toNat }
            draws := draws }, .okay) ∧
      (∀ i, (∀ r < w.c.R.toNat, i ≠ w.cell r) → Cells.get? buf i = Cells.get? w.c.buf i) ∧
      ∀ r < w.c.R.toNat, ∃ v, Cells.get? buf (w.cell r) = some v ∧
        w.lut.storesStale w.draws draws (Claims.directIndex w.c n r) v := by
  obtain ⟨buf, draws, hrun, -, hkept, hrows⟩ :=
    writeSymbols_stale code ((directGroups w.c n).flatMap Prod.fst) 0 h hS
  refine ⟨buf, draws, ?_, fun i hi => hkept i fun q _ hq => hi q hq, fun r hr => ?_⟩
  · rw [runBand, bandRows_goes code (groupDirect_takes n) (by omega) (directGroups_read w.c n)
      (directGroups_fillRows w.c n) hrun, directGroups_bits]
    rfl
  · have hrow := hrows r _ (directGroups_symbol w.c n hr)
    rw [Nat.zero_add] at hrow
    exact hrow hr

end Sys2Proof.Machine
end

section
/-! The statements of the family 40_scale_table.md. -/

namespace Sys2Proof.Claims

open Sys2Proof Sys2Proof.Machine

/-- Settles O54: a command body leaves the LUT, builds it, acquires it or releases it, and a step is one command. -/
theorem windowStaysWritten : Obligations.WindowStaysWritten := by
  intro s t hs h
  rcases step_cases h with rfl | ⟨ctx, n, rfl⟩ | ⟨i, ctx, n, rfl⟩
  · exact hs
  · exact runCommand_windowWritten (s := s.taken ctx n) (fun w => .refl w) hs
  · exact runCommand_windowWritten (s := s.taken ctx n) (commandBody_lutOutcome i) hs

/-- Settles O15, from what a build leaves to read inside its window, on each side of the centre, and outside it. -/
theorem scaleBuildsTheTable : Obligations.ScaleBuildsTheTable := by
  intro e x s c hserves
  refine ⟨fun hstart => ⟨(s.lut.build e x).cells, exec_scale_builds hserves hstart e x, fun k hk => ?_,
    fun k hk1 hk => ?_, fun k hk => s.lut.read?_build_outside x hk⟩,
    fun hstart => exec_scale_turnedAway hserves hstart e x⟩
  · exact s.lut.read?_build x ((LutUnit.inWindow_iff _ _).mpr ⟨e, rfl, by omega, by omega⟩)
  · rw [← Int.neg_mul]
    exact s.lut.read?_build x ((LutUnit.inWindow_iff _ _).mpr ⟨e, rfl, by omega, by omega⟩)

/-- Settles O16: both tables are canonical and read alike in every cell. -/
theorem accumulatorWalkBuildsTheSameTable : Obligations.AccumulatorWalkBuildsTheSameTable := by
  intro u e x hu
  obtain ⟨hwf, hcells⟩ := accumulatorWalk_walkedTo hu e x
  exact Cells.eq_of_get? hwf (LutUnit.build_wf hu e x) fun i => by rw [hcells i, LutUnit.get?_build]

/-- Settles O17, by the phase and by whether the index is inside the window. -/
theorem lookupReadsTheWindow : Obligations.LookupReadsTheWindow := by
  intro idx s c hserves
  refine ⟨fun hp => exec_lookup_closed hserves hp idx,
    fun hp he => exec_lookup_outside hserves hp (by simp [LutUnit.inWindow, he]), fun e hp he =>
    ⟨fun hout => exec_lookup_outside hserves hp (LutUnit.inWindow_eq_false he hout), fun v hlo hhi hv => ?_⟩⟩
  rw [exec_lookup_inWindow hserves hp ((LutUnit.inWindow_iff _ _).mpr ⟨e, he, hlo, hhi⟩), LutUnit.windowCell, hv]
  rfl

/-- Settles O19: the smallest index, −2^(n−1), lies in W(e) only if n − 1 ≤ e, and the largest is 2^(n−1) − 1. -/
theorem directIndicesInsideTheWindow : Obligations.DirectIndicesInsideTheWindow := by
  intro u e n he hn
  have hsplit : 2 ^ n = 2 * 2 ^ (n - 1) := by rw [← Nat.pow_add_one', Nat.sub_add_cancel hn]
  refine ⟨fun h => ?_, fun h raw hraw => ?_⟩
  · obtain ⟨e', he', hlo, -⟩ := (u.inWindow_iff _).mp (h 0 (Nat.two_pow_pos n))
    obtain rfl : e = e' := Option.some.inj (he.symm.trans he')
    have hpow : 2 ^ (n - 1) ≤ 2 ^ e.toNat := by omega
    exact (Nat.pow_le_pow_iff_right Nat.one_lt_two).mp hpow
  · have hpow : 2 ^ (n - 1) ≤ 2 ^ e.toNat := Nat.pow_le_pow_right Nat.two_pos h
    exact (u.inWindow_iff _).mpr ⟨e, he, by omega, by omega⟩

/-- Settles O23: a direct band's groups are its rows, each of n bits. -/
theorem directBandFaultsAtItsFirstOutsideRow : Obligations.DirectBandFaultsAtItsFirstOutsideRow := by
  intro p hp s c row hexp hpolicy hrow hout hin
  refine endsInFault_of_body hexp.1 ?_
  rw [directBand_body hp, bandCommand_expected hexp]
  exact runBand_uniform_raises _ (w := s.work c) (groupDirect_takes p.1) (rows := 1)
    (f := directSymbols c p.1) Nat.one_pos (fun _ => rfl)
    (fun r => by rw [Nat.div_one, Nat.mod_one]; rfl) (fun j _ => groupDirect_reads c p.1 j) hpolicy hrow hout hin

/-- Settles O24: a direct band's groups are its rows, and under the stale policy every row is stored. -/
theorem directBandsUnderStalePolicyComplete : Obligations.DirectBandsUnderStalePolicyComplete := by
  intro p hp s c hexp hstale
  obtain ⟨buf, draws, hrun, hkept, hrows⟩ :=
    runBand_direct_stale (BitVec.ofNat 5 p.1) p.1 (w := s.work c) hstale hexp.2.2
  have hbody := (congrFun (directBand_body hp) (s.work c)).trans ((bandCommand_expected hexp _).trans hrun)
  refine ⟨buf, draws, exec_of_body hexp.1 hbody, hkept, fun r hr => ?_⟩
  obtain ⟨v, hv, hin, hout, hdraw⟩ := hrows r hr
  refine ⟨fun hw => hv.trans (congrArg some (hin hw)), fun hw x hx => hv.trans (congrArg some (hout hw x hx)),
    fun hw hx => ?_⟩
  obtain ⟨d, hlo, hhi, hd⟩ := hdraw hw hx
  exact ⟨d, hlo, hhi, hv.trans (congrArg some hd)⟩

/-- Settles O28: the codewords on the stream are the groups the band's scheme reads. -/
theorem prefixBandFaultsAtItsFirstOutsideRow : Obligations.PrefixBandFaultsAtItsFirstOutsideRow := by
  intro p hp code s c gs row k hcode hexp hpacked hpolicy hgs hbits hrow hk hout hin
  obtain ⟨code', group, hcode', hbody, htakes, hreads⟩ := prefixBand_body hp
  obtain rfl : code' = code := Option.some.inj (hcode'.symm.trans hcode)
  have hsymbols : (gs.map codewordGroup).flatMap Prod.fst = gs.flatMap Prod.fst := List.flatMap_map ..
  refine endsInFault_of_body hexp.1 ?_
  rw [hbody, bandCommand_expected hexp, runPacked_gk _ _ hpacked]
  exact runBand_raises code' htakes (w := s.work c) (readsGroups_codewords hreads hgs hbits) hpolicy hrow
    (by rwa [hsymbols]) hout (by rwa [hsymbols])

/-- Settles O29: a mixed-radix band's groups are its digits, and row r is digit r mod n of group r / n. -/
theorem radixBandFaultsAtItsFirstOutsideRow : Obligations.RadixBandFaultsAtItsFirstOutsideRow := by
  intro b hb s c row hexp hpacked hpolicy hrow hvalues hout hin
  obtain ⟨hn, hbody⟩ := radixBand_body hb
  refine endsInFault_of_body hexp.1 ?_
  rw [hbody, bandCommand_expected hexp, runPacked_gk _ _ hpacked]
  exact runBand_uniform_raises _ (w := s.work c) (groupRadix_takes b.bits b.base b.n hn) (f := radixSymbols c b) hn
    (fun j => by rw [radixSymbols, List.length_map, digits_length]) (radixSymbols_index c hn)
    (fun j hj => groupRadix_reads (hvalues j hj)) hpolicy hrow hout hin

/-- Settles O30: under the stale policy no command body answers F_LUT_WINDOW, and a context that serves has no old fault
to repeat. -/
theorem stalePolicyRaisesNoWindowFault : Obligations.StalePolicyRaisesNoWindowFault := by
  intro i s t c k code subband row ⟨hc, hf, hr⟩ hstale h hresp
  rw [exec_eq_runCommand, runCommand_runs hc hf hr] at h
  cases h
  exact commandBody_staleNoWindowFault i (s.work c) hstale _ (Option.some.inj hresp) rfl

/-- Settles O4: each word sequence is the encoding of the command it names, so the round trip gives the command. -/
theorem specWordsDecode : Obligations.SpecWordsDecode := by
  have named {ws : List Word} (i : Instr) (h : encode i = ws) : decode ws = .ok (i, []) := by
    rw [← h, ← List.append_nil (encode i), decode_encode]
  and_intros <;> exact named _ (by decide)

end Sys2Proof.Claims
end

section
/-! SUPPORT. What the phase of a live context says has been written, kept by every command body (R154, R240). -/

namespace Sys2Proof.Machine

open Sys2Proof

/-- Every row of subband `sb` of a buffer of the context `c` holds a 16-bit value (R154). -/
def columnWritten (c : Context) (buf : Cells Word) (sb : Nat) : Prop :=
  ∀ r < c.R.toNat, ∃ v, Cells.get? buf (bufIndex c.S.toNat r sb) = some v ∧ inSampleRange v

theorem Context.written_iff (c : Context) :
    c.written ↔ (c.phase = .filling → ∀ sb < c.nextBand, columnWritten c c.buf sb) ∧
      (c.phase = .idle → ∀ i < c.outCount, (Cells.get? c.buf i).isSome) := Iff.rfl

/-- An index of the block has one row and one subband (R62). -/
theorem bufIndex_subband {S r q sb sb' : Nat} (hsb : sb < S) (hsb' : sb' < S)
    (h : bufIndex S r sb = bufIndex S q sb') : sb = sb' := by
  have hmod (r : Nat) {sb : Nat} (hsb : sb < S) : bufIndex S r sb % S = sb := by
    rw [bufIndex, Nat.mul_add_mod_self_right, Nat.mod_eq_of_lt hsb]
  rw [← hmod r hsb, h, hmod q hsb']

/-- Writing a column adds it to the written ones: it shares no word with another subband (R62, R154). -/
theorem Work.writesRows_columnWritten {w w' : Work} (h : w.writesRows w' fun q => q < w.c.R.toNat)
    (hband : w.c.nextBand < w.c.S.toNat) (hbuf : ∀ sb < w.c.nextBand, columnWritten w.c w.c.buf sb) :
    ∀ sb < w.c.nextBand + 1, columnWritten w.c w'.c.buf sb := by
  obtain ⟨hkept, hrows, -⟩ := h
  intro sb hsb r hr
  rcases Nat.lt_succ_iff_lt_or_eq.mp hsb with hlt | rfl
  · rw [hkept _ fun q _ he => (Nat.ne_of_lt hlt) (bufIndex_subband (hlt.trans hband) hband he)]
    exact hbuf sb hlt r hr
  · exact hrows r hr

/-- When every column is written, every word of the block is (R62). -/
theorem block_written {c : Context} {buf : Cells Word} (h : ∀ sb < c.S.toNat, columnWritten c buf sb) :
    ∀ i < c.R.toNat * c.S.toNat, (Cells.get? buf i).isSome := by
  intro i hi
  have hS : 0 < c.S.toNat := Nat.pos_of_mul_pos_left (Nat.zero_lt_of_lt hi)
  have hrow : i / c.S.toNat < c.R.toNat := Nat.div_lt_of_lt_mul (by rwa [Nat.mul_comm])
  obtain ⟨v, hv, -⟩ := h (i % c.S.toNat) (Nat.mod_lt i hS) (i / c.S.toNat) hrow
  rw [bufIndex, Nat.div_add_mod'] at hv
  simp [hv]

/-- The transform erases no word of BUF (R207). -/
theorem transformBlock_written {cfg : Config} {c : Context} (noop : Bool) (hgeo : c.geometry cfg) {n : Nat}
    (h : ∀ i < n, (Cells.get? c.buf i).isSome) : ∀ i < n, (Cells.get? (transformBlock noop c).buf i).isSome := by
  refine transformBlock_keeps (P := fun b => ∀ i < n, (Cells.get? b.buf i).isSome) hgeo.1 noop
    ⟨fun b j v _ _ hb i hi => ?_, fun _ _ _ _ hb => hb⟩ h
  rw [Banks.writeBuf_buf, Cells.get?_put]
  split
  · rfl
  · exact hb i hi

/-- What `State.filled` asks of one context. -/
def Context.filled (cfg : Config) (c : Context) : Prop := c.live → c.geometry cfg ∧ c.cursors ∧ c.written

theorem State.filled_iff (s : State) : s.filled ↔ ∀ c ∈ s.contexts, c.filled s.cfg := Iff.rfl

/-- Of a live context its written words are asked beside its shape, which every command body keeps. -/
theorem Context.filled_iff {cfg : Config} {c : Context} : c.filled cfg ↔ c.shape cfg ∧ (c.live → c.written) := by
  simp only [Context.filled, Context.shape, ← forall_and, and_assoc]

theorem Context.filled.shape {cfg : Config} {c : Context} (h : c.filled cfg) : c.shape cfg :=
  (Context.filled_iff.mp h).1

theorem Context.filled.written {cfg : Config} {c : Context} (h : c.filled cfg) : c.live → c.written :=
  (Context.filled_iff.mp h).2

/-- A command's body leaves a live context with what its phase says written, when it finds it filled. -/
def staysWritten (body : Work → Work × Response) : Prop :=
  ∀ w : Work, w.c.filled w.cfg → (body w).1.c.live → (body w).1.c.written

theorem bandOutcome_written {w : Work} {out : Work × Response} (hout : bandOutcome w out) (hp : w.c.phase = .filling)
    (hne : w.c.nextBand ≠ w.c.S.toNat) (h : w.c.filled w.cfg) (hl : out.1.c.live) : out.1.c.written := by
  obtain ⟨-, hf, hr⟩ := hl
  rcases hout with ⟨w', hw, hrows, rfl⟩ | ⟨f, w', -, -, rfl⟩ | rfl | rfl
  · have hlive : w.c.live := by
      rw [hw] at hf hr
      exact ⟨by simp [hp], hf, hr⟩
    obtain ⟨-, ⟨hband, -, -, -⟩, hfilling, -⟩ := h hlive
    have hcolumns := Work.writesRows_columnWritten hrows (Nat.lt_of_le_of_ne hband hne) (hfilling hp)
    rw [hw]
    exact ⟨fun _ => hcolumns, fun hidle => by simp [hp] at hidle⟩
  · simp at hf
  · simp at hr
  · exact ⟨nofun, nofun⟩

/-- The end of a filled block: the output cursor stays within the block, all of which is written (R200, R240). -/
theorem finishBlock_written {w : Work} (hp : w.c.phase = .filling) (hband : w.c.nextBand = w.c.S.toNat)
    (h : w.c.filled w.cfg) (hl : (finishBlock w).c.live) : (finishBlock w).c.written := by
  obtain ⟨-, hf, hr⟩ := hl
  obtain ⟨hgeo, -, hfilling, -⟩ := h ⟨by simp [hp], hf, hr⟩
  have ⟨hS, hBW, _, _⟩ := hgeo
  have hblock := block_written (hband ▸ hfilling hp)
  have hsize : blockOutput w.c ≤ w.c.R.toNat * w.c.S.toNat :=
    calc blockOutput w.c ≤ w.c.BW.toNat := Nat.min_le_left _ _
      _ = w.c.R.toNat * w.c.S.toNat := by rw [hBW, hS, blockWordsOf]
  exact ⟨nofun, fun _ i hi => transformBlock_written _ hgeo hblock i (Nat.lt_of_lt_of_le hi hsize)⟩

/-- A build starts a block, of which no column is written (R28, R130). -/
theorem scaleBuild_filled (e : BitVec 4) (x : BitVec 16) {w : Work} (hp : w.c.phase ≠ .closed)
    (h : w.c.filled w.cfg) : (scaleBuild e x w).c.filled w.cfg :=
  Context.filled_iff.mpr ⟨scaleBuild_shape e x hp h.shape,
    fun _ => ⟨fun _ _ hsb => absurd hsb (Nat.not_lt_zero _), nofun⟩⟩

theorem scaleCommand_staysWritten (e : BitVec 4) (x : BitVec 16) : staysWritten (scaleCommand e x) := by
  intro w h
  rcases scaleCommand_cases e x w with ⟨hstart, hw⟩ | ⟨-, hw⟩ <;> rw [hw]
  · exact (scaleBuild_filled e x (Work.phase_ne_closed_of_mayStartBlock hstart) h).written
  · exact h.written

theorem lookupCommand_staysWritten (idx : BitVec 17) : staysWritten (lookupCommand idx) := by
  intro w h
  rw [lookupCommand_work]
  exact h.written

theorem bandCommand_staysWritten (code : BitVec 5) : staysWritten (bandCommand (bandDispatch code)) := by
  intro w h
  unfold bandCommand
  split
  next hawaits =>
    obtain ⟨hp, hne⟩ := w.awaitsBand_iff.mp hawaits
    exact bandOutcome_written (bandDispatch_outcome code w) hp hne h
  · exact h.written

theorem untransformCommand_staysWritten : staysWritten untransformCommand := by
  intro w h
  rcases untransformCommand_cases w with ⟨hp, hband, hw⟩ | hw <;> rw [hw]
  · exact finishBlock_written hp hband h
  · exact h.written

/-- POP moves the output cursor only, and what it has passed stays written (R240). -/
theorem popCommand_staysWritten : staysWritten popCommand := by
  intro w h
  rcases popCommand_cases w with ⟨-, -, hw⟩ | hw <;> rw [hw] <;> exact h.written

/-- FILL's loop with `n` bands left: a block being filled with `n` of its columns unwritten (R28, R154, R242). -/
def Work.filledBut (n : Nat) (w : Work) : Prop :=
  w.c.phase = .filling ∧ w.c.nextBand + n = w.c.S.toNat ∧ w.c.filled w.cfg

theorem bandOutcome_filledBut {n : Nat} {w : Work} {out : Work × Response} (hout : bandOutcome w out)
    (hok : out.2 = .okay) (h : w.filledBut (n + 1)) : out.1.filledBut n := by
  obtain ⟨hp, hleft, hb⟩ := h
  obtain ⟨hcfg, hphase, hS, hnext⟩ := bandOutcome_okay hout hok
  have hne : w.c.nextBand ≠ w.c.S.toNat := by omega
  refine ⟨hphase.trans hp, by rw [hnext, hS]; omega, ?_⟩
  rw [hcfg]
  exact Context.filled_iff.mpr ⟨bandOutcome_shape hout hp hne hb.shape, bandOutcome_written hout hp hne hb⟩

theorem fillCommand_staysWritten : staysWritten fillCommand := by
  intro w h
  rcases fillCommand_cases w with ⟨hstart, hw⟩ | hw <;> rw [hw]
  · refine fillBands_rule (Inv := Work.filledBut) (Post := fun w => w.c.live → w.c.written)
      (hnext := fun n w out hinv hband hok => bandOutcome_filledBut hband hok hinv)
      (hstop := fun n w out ⟨hp, hleft, hb⟩ hband _ =>
        bandOutcome_written hband hp (by simp only [Work.skip_c_nextBand, Work.skip_c_S]; omega) hb)
      (hfinish := fun w ⟨hp, hleft, hb⟩ => finishBlock_written hp hleft hb) _ ?_
    exact ⟨rfl, Nat.zero_add _,
      scaleBuild_filled _ _ (w := (w.skip 4).skip 16) (Work.phase_ne_closed_of_mayStartBlock hstart) h⟩
  · exact h.written

/-- A context that has just been opened has nothing to put out (R260). -/
theorem openCommand_staysWritten (L : BitVec 4) (R : BitVec 12) (total : BitVec 32) :
    staysWritten (openCommand L R total) := by
  intro w h
  rcases openCommand_cases L R total w with ⟨-, -, hw⟩ | hw <;> rw [hw]
  · exact fun _ => ⟨nofun, fun _ _ hi => absurd hi (Nat.not_lt_zero _)⟩
  · exact h.written

theorem closeCommand_staysWritten : staysWritten closeCommand := by
  intro w _
  rcases closeCommand_cases w with ⟨-, hw⟩ | ⟨-, hw⟩ <;> rw [hw]
  · exact fun ⟨_, hf, _⟩ => by simp at hf
  · exact fun ⟨hp, _, _⟩ => absurd rfl hp

theorem commandBody_staysWritten (i : Instr) : staysWritten (commandBody i) :=
  commandBody_cases (P := staysWritten) (scale := scaleCommand_staysWritten) (lookup := lookupCommand_staysWritten)
    (band := bandCommand_staysWritten) (untransform := untransformCommand_staysWritten)
    (pop := popCommand_staysWritten) (fill := fillCommand_staysWritten) (openCtx := openCommand_staysWritten)
    (closeCtx := closeCommand_staysWritten) i

theorem commandBody_filled (i : Instr) (w : Work) (h : w.c.filled w.cfg) : (commandBody i w).1.c.filled w.cfg :=
  Context.filled_iff.mpr ⟨commandBody_shape i w h.shape, commandBody_staysWritten i w h⟩

end Sys2Proof.Machine
end

section
/-! SUPPORT. The rule behind each BAND; what it writes when every row's index is inside the window; and its end at a
group value without a combination (R150, R152, R187). -/

namespace Sys2Proof.Machine

open Sys2Proof

/-! ### The commands -/

/-- A command with a format code runs the dispatch on it (R100, R150). -/
theorem commandBody_of_bandCode {i : Instr} {code : BitVec 5} (h : i.bandCode = some code) :
    commandBody i = bandCommand (bandDispatch code) := by
  cases i <;> cases h <;> rfl

theorem bandCode_band : ∀ code : BitVec 5, (Instr.band code).bandCode = some code := by decide

/-- Only a band that has written its column answers OK (R150). -/
theorem bandOutcome_wrote {w : Work} {out : Work × Response} (h : bandOutcome w out) (hok : out.2 = .okay) :
    ∃ w', w.fillsTo w' ∧ (w.writesRows w' fun q => q < w.c.R.toNat) ∧
      out = ({ w' with c := { w'.c with nextBand := w.c.nextBand + 1 } }, .okay) := by
  rcases h with h | ⟨f, w', -, -, rfl⟩ | rfl | rfl
  · exact h
  · cases hok
  · cases hok
  · cases hok

/-- Each reserved code's body is the rule that fails the block (R156, R157, R183 to R186). -/
theorem reservedBand_body {i : Instr} (h : i ∈ Claims.reservedBands) : commandBody i = bandCommand failBand := by
  simp only [Claims.reservedBands, List.mem_cons, List.not_mem_nil, or_false] at h
  rcases h with rfl | rfl | rfl | rfl | rfl | rfl <;> rfl

/-- Each packed code's body is the rule of a scheme (R172 to R182). -/
theorem packedBand_body {i : Instr} (h : i ∈ Claims.packedBands) :
    ∃ code group, commandBody i = bandCommand (runPacked code group) := by
  simp only [Claims.packedBands, List.mem_cons, List.not_mem_nil, or_false] at h
  rcases h with rfl | rfl | rfl | rfl | rfl | rfl | rfl | rfl | rfl | rfl | rfl <;> exact ⟨_, _, rfl⟩

/-- A band's body that writes the column, and nothing else but the cursor and the stream position (R154). -/
theorem fillsColumn_of_body {i : Instr} {s : State} {c : Context} {f : Nat → Word} {bits : Nat}
    (h : Claims.Serves s c)
    (hbody : ∃ buf, Claims.columnHolds c buf f ∧ commandBody i (s.work c) =
      ({ s.work c with c := { c with buf := buf, nextBand := c.nextBand + 1, bitPos := c.bitPos + bits } }, .okay)) :
    Claims.FillsColumn i s c f bits := by
  obtain ⟨buf, hcol, hbody⟩ := hbody
  exact ⟨buf, hcol, exec_of_body h hbody⟩

/-- Only the values of the column's own rows matter. -/
theorem columnHolds_congr {c : Context} {buf : Cells Word} {f g : Nat → Word} (h : Claims.columnHolds c buf f)
    (hfg : ∀ r < c.R.toNat, f r = g r) : Claims.columnHolds c buf g :=
  ⟨fun r hr => hfg r hr ▸ h.1 r hr, h.2⟩

/-! ### Rows inside the window -/

/-- Every index among the symbols `ys` is inside the window (R131). -/
def LutUnit.covers (u : LutUnit) (ys : List Symbol) : Prop := ∀ k, .deq k ∈ ys → u.inWindow k = true

/-- Symbols whose indices are inside the window are written as their values, and nothing else changes but the
buffer (R152). -/
theorem writeSymbols_inside (code : BitVec 5) {ys : List Symbol} (r : Nat) {w : Work}
    (hS : w.c.nextBand < w.c.S.toNat) (h : w.lut.covers (ys.take (w.c.R.toNat - r))) :
    ∃ buf, writeSymbols code r ys w = .going { w with c := { w.c with buf := buf } } ∧
      (∀ i, (∀ q, r ≤ q → q < w.c.R.toNat → i ≠ w.cell q) → Cells.get? buf i = Cells.get? w.c.buf i) ∧
      ∀ i y, ys[i]? = some y → r + i < w.c.R.toNat →
        Cells.get? buf (w.cell (r + i)) = some (Claims.symbolValue w.lut y) := by
  induction ys generalizing r w with
  | nil => exact ⟨w.c.buf, rfl, fun _ _ => rfl, by simp⟩
  | cons y ys ih =>
    by_cases hr : r < w.c.R.toNat
    · rw [show w.c.R.toNat - r = w.c.R.toNat - (r + 1) + 1 by omega, List.take_succ_cons] at h
      obtain ⟨buf, hrun, hkept, hrows⟩ :=
        ih (r + 1) (w := w.bufWrite (w.cell r) (Claims.symbolValue w.lut y)) hS
          fun k hk => h k (List.mem_cons_of_mem _ hk)
      refine ⟨buf, ?_, fun i hi => ?_, fun i z hz hi => ?_⟩
      · rw [writeSymbols_cons code y ys hr, writeSymbol_inside code r fun k hy => h k (hy ▸ List.mem_cons_self ..)]
        exact hrun
      · rw [hkept i fun q hq hqR => hi q (by omega) hqR]
        exact Cells.get?_put_ne _ _ (hi r (Nat.le_refl r) hr)
      · cases i with
        | zero =>
          obtain rfl : y = z := Option.some.inj hz
          rw [Nat.add_zero, hkept _ fun q hq _ hcell => absurd (Work.cell_inj hS hcell) (by omega)]
          exact Cells.get?_put_self _ _ _
        | succ i =>
          rw [← Nat.add_assoc, Nat.add_right_comm] at hi ⊢
          exact hrows i z hz hi
    · exact ⟨w.c.buf, writeSymbols_pastRows code _ hr, fun _ _ => rfl, fun i _ _ hi => absurd hi (by omega)⟩

/-- Groups that fill the rows stand for a row each at least. -/
theorem fillsRows_length {R r : Nat} {gs : List ReadGroup} (h : fillsRows R r gs) :
    R ≤ r + (gs.flatMap Prod.fst).length := by
  induction gs generalizing r with
  | nil => exact h
  | cons g gs ih =>
    have hrest := ih h.2
    rw [List.flatMap_cons, List.length_append]
    omega

/-- A band's success, in the groups it reads: when the rows' indices are inside the window, row `r` holds the value of
the `r`-th symbol, and the groups' bits are taken (R152, R154). -/
theorem runBand_fills (code : BitVec 5) {group : Work → Group} (htakes : groupTakes group) {gs : List ReadGroup}
    {w : Work} (hS : w.c.nextBand < w.c.S.toNat) (hgs : readsGroups group w.c.source w.c.bitPos gs)
    (hrows : fillsRows w.c.R.toNat 0 gs) (hin : w.lut.covers ((gs.flatMap Prod.fst).take w.c.R.toNat)) :
    ∃ buf, Claims.columnHolds w.c buf (fun r => Claims.symbolValue w.lut ((gs.flatMap Prod.fst).getD r .zero)) ∧
      runBand code group w =
        ({ w with
          c := { w.c with
            buf := buf, nextBand := w.c.nextBand + 1, bitPos := w.c.bitPos + (gs.map Prod.snd).sum } }, .okay) := by
  obtain ⟨buf, hrun, hkept, hsymbols⟩ := writeSymbols_inside code 0 hS hin
  have hlen := fillsRows_length hrows
  refine ⟨buf, ⟨fun r hr => ?_, fun i hi => hkept i fun q _ hq => hi q hq⟩, ?_⟩
  · have hsymbol : (gs.flatMap Prod.fst)[r]? = some ((gs.flatMap Prod.fst).getD r .zero) := by
      rw [List.getD_eq_getElem _ _ (by omega), List.getElem?_eq_getElem]
    have hrow := hsymbols r _ hsymbol (by omega)
    rw [Nat.zero_add] at hrow
    exact hrow
  · rw [runBand, bandRows_goes code htakes (by omega) hgs hrows hrun]
    rfl

/-! ### Groups of one size -/

theorem uniformGroups_length {n rows : Nat} {f : Nat → List Symbol} (hlen : ∀ j, (f j).length = rows) (a m : Nat) :
    ((uniformGroups n f a m).flatMap Prod.fst).length = rows * m := by
  simp [uniformGroups, List.length_flatMap, Function.comp_def, hlen, Nat.mul_comm]

theorem uniformGroups_bits (n : Nat) (f : Nat → List Symbol) (a m : Nat) :
    ((uniformGroups n f a m).map Prod.snd).sum = n * m := by
  simp [uniformGroups, Function.comp_def, Nat.mul_comm]

/-- The groups of a band whose groups all stand for `rows` rows, as many as R rows ask for. -/
theorem fillsRows_uniform (n : Nat) {rows : Nat} {f : Nat → List Symbol} (hlen : ∀ j, (f j).length = rows) {R : Nat}
    (m : Nat) {a : Nat} (hneeded : ∀ j < a + m, j * rows < R) (henough : R ≤ (a + m) * rows) :
    fillsRows R (a * rows) (uniformGroups n f a m) := by
  induction m generalizing a with
  | zero => exact henough
  | succ m ih =>
    refine ⟨hneeded a (by omega), ?_⟩
    rw [hlen, ← Nat.succ_mul]
    rw [show a + (m + 1) = a + 1 + m by omega] at hneeded henough
    exact ih hneeded henough

/-- Group `j` is one of ⌈R / rows⌉ groups exactly when its first row is below R. -/
theorem lt_groupCount {R rows : Nat} (hrows : 0 < rows) (j : Nat) :
    j < (R + rows - 1) / rows ↔ j * rows < R := by
  rw [← Nat.ceilDiv_eq_add_pred_div, ← not_le, ceilDiv_le_iff_le_smul hrows, smul_eq_mul, not_le, Nat.mul_comm]

/-- ⌈R / rows⌉ groups of `rows` rows fill R rows. -/
theorem fillsRows_groupCount (n : Nat) {rows : Nat} (hrows : 0 < rows) {f : Nat → List Symbol}
    (hlen : ∀ j, (f j).length = rows) (R : Nat) :
    fillsRows R 0 (uniformGroups n f 0 ((R + rows - 1) / rows)) := by
  have henough : R ≤ (R + rows - 1) / rows * rows :=
    Nat.le_of_not_lt fun hlt => Nat.lt_irrefl _ ((lt_groupCount hrows _).mpr hlt)
  have h := fillsRows_uniform n hlen (R := R) ((R + rows - 1) / rows) (a := 0)
    (fun j hj => (lt_groupCount hrows j).mp (by omega)) (by rwa [Nat.zero_add])
  rwa [Nat.zero_mul] at h

/-- Where `index r` is the index of row `r`, it is inside the window for every row that the groups stand for. -/
theorem uniformGroups_covered {u : LutUnit} {n rows : Nat} {f : Nat → List Symbol} {index : Nat → Int}
    (hrows : 0 < rows) (hlen : ∀ j, (f j).length = rows)
    (hindex : ∀ r, (f (r / rows))[r % rows]? = some (.deq (index r))) {m R : Nat}
    (hin : ∀ r < R, u.inWindow (index r) = true) :
    u.covers (((uniformGroups n f 0 m).flatMap Prod.fst).take R) := by
  intro k hk
  obtain ⟨r, hr⟩ := List.mem_iff_getElem?.mp hk
  rw [List.getElem?_take] at hr
  split at hr
  next hrR =>
    have hbound := (List.getElem?_eq_some_iff.mp hr).1
    rw [uniformGroups_length hlen] at hbound
    rw [uniformGroups_symbol hrows hlen m hbound, Nat.zero_add, hindex] at hr
    cases hr
    exact hin r hrR
  · cases hr

/-- A band whose groups all take `bits` bits and stand for `rows` rows, row `r` for the index `index r`, when every
row's index is inside the window and every group has its symbols. -/
theorem runBand_uniform_fills (code : BitVec 5) {group : Work → Group} (htakes : groupTakes group) {bits rows : Nat}
    {f : Nat → List Symbol} {index : Nat → Int} {w : Work} (hS : w.c.nextBand < w.c.S.toNat) (hrows : 0 < rows)
    (hlen : ∀ j, (f j).length = rows) (hindex : ∀ r, (f (r / rows))[r % rows]? = some (.deq (index r)))
    (hreads : ∀ j, j * rows < w.c.R.toNat → readsGroup group w.c.source (w.c.bitPos + bits * j) (f j, bits))
    (hin : ∀ r < w.c.R.toNat, w.lut.inWindow (index r) = true) :
    ∃ buf, Claims.columnHolds w.c buf (fun r => sext32 (w.lut.windowCell (index r))) ∧
      runBand code group w =
        ({ w with
          c := { w.c with
            buf := buf, nextBand := w.c.nextBand + 1
            bitPos := w.c.bitPos + bits * ((w.c.R.toNat + rows - 1) / rows) } }, .okay) := by
  have hfills := fillsRows_groupCount bits hrows hlen w.c.R.toNat
  obtain ⟨buf, hcol, hrun⟩ := runBand_fills code htakes hS
    (readsGroups_uniform ((w.c.R.toNat + rows - 1) / rows) (a := 0) fun j _ hj =>
      hreads j ((lt_groupCount hrows j).mp (by omega)))
    hfills (uniformGroups_covered hrows hlen hindex hin)
  rw [uniformGroups_bits] at hrun
  refine ⟨buf, columnHolds_congr hcol fun r hr => ?_, hrun⟩
  have hlong := fillsRows_length hfills
  rw [uniformGroups_length hlen] at hlong
  rw [List.getD_eq_getElem?_getD, uniformGroups_symbol hrows hlen _ (by omega), Nat.zero_add, hindex]
  rfl

/-! ### A group value without a combination -/

/-- Groups that leave rows unwritten and raise no fault are written, and the band goes on past them. -/
theorem bandRows_goesOn (code : BitVec 5) {group : Work → Group} (htakes : groupTakes group) {gs : List ReadGroup}
    {turns r : Nat} {w w' : Work} (ht : w.c.R.toNat ≤ r + turns)
    (hgs : readsGroups group w.c.source w.c.bitPos gs) (hrows : r + (gs.flatMap Prod.fst).length < w.c.R.toNat)
    (h : writeSymbols code r (gs.flatMap Prod.fst) w = .going w') :
    ∃ t, bandRows code group turns r w =
      bandRows code group (t + 1) (r + (gs.flatMap Prod.fst).length) (w'.skip (gs.map Prod.snd).sum) := by
  induction gs generalizing turns r w w' with
  | nil =>
    cases h
    rw [List.flatMap_nil, List.length_nil, Nat.add_zero] at hrows
    exact ⟨turns - 1, by rw [Nat.sub_add_cancel (by omega)]; rfl⟩
  | cons g gs ih =>
    rw [List.flatMap_cons, List.length_append] at hrows
    have hr : r < w.c.R.toNat := by omega
    obtain ⟨t, rfl⟩ : ∃ t, turns = t + 1 := ⟨turns - 1, by omega⟩
    have hg := hgs.1 w rfl rfl
    have hlen := groupTakes_length_pos htakes hg
    rw [bandRows_turn code hr hg]
    rw [List.flatMap_cons, writeSymbols_append] at h
    cases hw : writeSymbols code r g.1 w with
    | raised f₁ w₁ => rw [hw] at h; cases h
    | going w₁ =>
      rw [hw] at h
      have hframe := writeSymbols_going_frame hw
      have hR : w₁.c.R = w.c.R := Work.fillsTo_rows hframe.1
      rw [List.map_cons, List.sum_cons, ← Work.skip_skip, List.flatMap_cons, List.length_append, ← Nat.add_assoc]
      exact ih (w := w₁.skip g.2) (by rw [Work.skip_c_R, hR]; omega) (readsGroups_after hframe hgs.2)
        (by rw [Work.skip_c_R, hR]; omega) (by rw [writeSymbols_skip]; exact congrArg (Ran.skip · g.2) h)

theorem bandRows_noCombination (code : BitVec 5) {group : Work → Group} {t r v : Nat} {w w' : Work}
    (hr : r < w.c.R.toNat) (hv : group w = .noCombination v w') :
    bandRows code group (t + 1) r w = .raised (.packedCombo code v) w' := by
  rw [bandRows, if_pos hr, hv]

/-- A band's fault at a group value without a combination, after groups whose rows are inside the window (R187). -/
theorem runBand_noCombination (code : BitVec 5) {group : Work → Group} (htakes : groupTakes group)
    {gs : List ReadGroup} {v n : Nat} {w : Work} (hS : w.c.nextBand < w.c.S.toNat)
    (hgs : readsGroups group w.c.source w.c.bitPos gs) (hrows : (gs.flatMap Prod.fst).length < w.c.R.toNat)
    (hin : w.lut.covers (gs.flatMap Prod.fst))
    (hv : ∀ u : Work, u.c.source = w.c.source → u.c.bitPos = w.c.bitPos + (gs.map Prod.snd).sum →
      group u = .noCombination v (u.skip n)) :
    ∃ w', w.fillsTo w' ∧ runBand code group w = w'.takeFault (.packedCombo code v) := by
  obtain ⟨buf, hrun, -, -⟩ := writeSymbols_inside code 0 hS fun k hk => hin k (List.mem_of_mem_take hk)
  generalize ({ w with c := { w.c with buf := buf } } : Work) = u at hrun
  obtain ⟨hfill, hpos⟩ := writeSymbols_going_frame hrun
  obtain ⟨t, hgoes⟩ := bandRows_goesOn code htakes (turns := w.c.R.toNat) (by omega) hgs
    (by rwa [Nat.zero_add]) hrun
  have hend := hv (u.skip (gs.map Prod.snd).sum) (by rw [Work.skip_c_source, hfill]) (by rw [Work.skip_c_bitPos, hpos])
  rw [Work.skip_skip] at hend
  refine ⟨_, Work.fillsTo_trans hfill (u.fillsTo_skip ((gs.map Prod.snd).sum + n)), ?_⟩
  rw [runBand, hgoes, Nat.zero_add, bandRows_noCombination code _ hend]
  rwa [Work.skip_c_R, Work.fillsTo_rows hfill]

/-- A mixed-radix group whose value has no combination takes its bits (R187). -/
theorem groupRadix_noCombination {c : Context} {b : Claims.RadixBand} {j : Nat}
    (h : b.base ^ b.n ≤ Claims.groupValue c b.bits j) {w : Work} (hsrc : w.c.source = c.source)
    (hpos : w.c.bitPos = c.bitPos + b.bits * j) :
    groupRadix b.bits b.base b.n w = .noCombination (Claims.groupValue c b.bits j) (w.skip b.bits) := by
  have hvalue : w.peek b.bits = Claims.groupValue c b.bits j := by rw [Work.peek, hsrc, hpos, Claims.groupValue]
  simp only [groupRadix, Work.take_value, Work.take_rest, hvalue, if_neg (Nat.not_lt.mpr h)]

/-- An index of at most `m` on either side of the centre is inside a window whose largest index is `m` or more. -/
theorem LutUnit.inWindow_of_abs_le {u : LutUnit} {e : BitVec 4} {m k : Int} (he : u.e = some e)
    (hm : m ≤ ((2 ^ e.toNat : Nat) : Int) - 1) (hlo : -m ≤ k) (hhi : k ≤ m) : u.inWindow k = true :=
  (u.inWindow_iff k).mpr ⟨e, he, by omega, by omega⟩

/-- The bases of the mixed-radix bands are odd, so their digits lie around the middle one (R187). -/
theorem radixBand_odd : ∀ b ∈ Claims.radixBands, b.base % 2 = 1 := by decide

theorem radixIndex_inWindow {u : LutUnit} {e : BitVec 4} {b : Claims.RadixBand} (hb : b ∈ Claims.radixBands)
    (he : u.e = some e) (hm : (((b.base - 1) / 2 : Nat) : Int) ≤ ((2 ^ e.toNat : Nat) : Int) - 1) (c : Context)
    (r : Nat) : u.inWindow (Claims.radixIndex c b r) = true := by
  have hodd := radixBand_odd b hb
  have hdigit : Claims.groupValue c b.bits (r / b.n) / b.base ^ (r % b.n) % b.base < b.base :=
    Nat.mod_lt _ (by omega)
  unfold Claims.radixIndex
  exact LutUnit.inWindow_of_abs_le he hm (by omega) (by omega)

theorem radixSymbols_length (c : Context) (b : Claims.RadixBand) (j : Nat) : (radixSymbols c b j).length = b.n := by
  rw [radixSymbols, List.length_map, digits_length]

end Sys2Proof.Machine
end

section
/-! SUPPORT. The codewords on the stream: every stream begins with one of a band's codewords (R172, R173, R175, R176,
R178 to R181). -/

namespace Sys2Proof.Machine

open Sys2Proof

/-- What is left of the codes `cs` that begin with the bit `b`. -/
def codesAfter (b : Bool) (cs : List (List Bool)) : List (List Bool) :=
  (cs.filter fun bs => bs.head? == some b).map List.tail

/-- Within `depth` bits every stream has one of the codes `cs` in front. -/
def coversStreams (depth : Nat) (cs : List (List Bool)) : Bool :=
  match depth with
  | 0 => cs.contains []
  | n + 1 => cs.contains [] || (coversStreams n (codesAfter false cs) && coversStreams n (codesAfter true cs))

theorem mem_codesAfter {b : Bool} {bs : List Bool} {cs : List (List Bool)} (h : bs ∈ codesAfter b cs) :
    b :: bs ∈ cs := by
  obtain ⟨as, has, rfl⟩ := List.mem_map.mp h
  obtain ⟨hmem, hhead⟩ := List.mem_filter.mp has
  rwa [List.cons_head?_tail (by simpa using hhead)]

theorem bitsOnStream_nil (src : List Byte) (pos : Nat) : bitsOnStream src pos [] := nofun

theorem bitsOnStream_of_cons {src : List Byte} {pos : Nat} {bs : List Bool} (h : bitsOnStream src (pos + 1) bs) :
    bitsOnStream src pos (streamBit src pos :: bs) := by
  intro i hi
  cases i with
  | zero => rfl
  | succ i =>
    rw [List.getElem?_cons_succ, h i (Nat.lt_of_succ_lt_succ hi), Nat.add_assoc, Nat.add_comm 1]

/-- The next codeword of a stream, found bit by bit. -/
theorem exists_codeOnStream {depth : Nat} {cs : List (List Bool)} (h : coversStreams depth cs = true)
    (src : List Byte) (pos : Nat) : ∃ bs ∈ cs, bitsOnStream src pos bs := by
  induction depth generalizing cs pos with
  | zero => exact ⟨[], by simpa [coversStreams] using h, bitsOnStream_nil src pos⟩
  | succ n ih =>
    simp only [coversStreams, Bool.or_eq_true, Bool.and_eq_true, List.contains_iff_mem] at h
    rcases h with hnil | ⟨hfalse, htrue⟩
    · exact ⟨[], hnil, bitsOnStream_nil src pos⟩
    · have hcovers : coversStreams n (codesAfter (streamBit src pos) cs) = true := by
        cases streamBit src pos
        · exact hfalse
        · exact htrue
      obtain ⟨bs, hbs, hon⟩ := ih hcovers (pos + 1)
      exact ⟨_, mem_codesAfter hbs, bitsOnStream_of_cons hon⟩

theorem bitsOnStream_append_intro {src : List Byte} {pos : Nat} {as bs : List Bool} (has : bitsOnStream src pos as)
    (hbs : bitsOnStream src (pos + as.length) bs) : bitsOnStream src pos (as ++ bs) := by
  intro i hi
  rw [List.length_append] at hi
  by_cases hfirst : i < as.length
  · rw [List.getElem?_append_left hfirst, has i hfirst]
  · rw [List.getElem?_append_right (by omega), hbs _ (by omega), Nat.add_assoc, Nat.add_sub_cancel' (by omega)]

/-- A stream's next codewords, as few as fill the rows from `r` to `R`. -/
theorem exists_codewords {table : List Claims.Codeword} {depth : Nat}
    (hcovers : coversStreams depth (table.map Prod.snd) = true) (hlen : ∀ g ∈ table, 1 ≤ g.1.length)
    (src : List Byte) (R n : Nat) {r : Nat} (pos : Nat) (hn : R ≤ r + n) :
    ∃ gs : List Claims.Codeword, (∀ g ∈ gs, g ∈ table) ∧ bitsOnStream src pos (gs.flatMap Prod.snd) ∧
      fillsRows R r (gs.map codewordGroup) := by
  induction n generalizing r pos with
  | zero => exact ⟨[], nofun, bitsOnStream_nil src pos, hn⟩
  | succ n ih =>
    by_cases hr : r < R
    · obtain ⟨_, hbs, hon⟩ := exists_codeOnStream hcovers src pos
      obtain ⟨g, hg, rfl⟩ := List.mem_map.mp hbs
      have hrow := hlen g hg
      obtain ⟨gs, hgs, hrest, hfills⟩ := ih (r := r + g.1.length) (pos + g.2.length) (by omega)
      exact ⟨g :: gs, List.forall_mem_cons.mpr ⟨hg, hgs⟩, bitsOnStream_append_intro hon hrest, hr, hfills⟩
    · exact ⟨[], nofun, bitsOnStream_nil src pos, Nat.le_of_not_lt hr⟩

/-- Where the groups are as few as fill the rows, the last of them begins below the last row. -/
theorem fillsRows_last {R r : Nat} {gs : List ReadGroup} {g : ReadGroup} (h : fillsRows R r (gs ++ [g])) :
    r + (gs.flatMap Prod.fst).length < R := by
  induction gs generalizing r with
  | nil => exact h.1
  | cons g' gs ih =>
    have hrest := ih h.2
    rw [List.flatMap_cons, List.length_append]
    omega

theorem codewordGroups_symbols (gs : List Claims.Codeword) :
    (gs.map codewordGroup).flatMap Prod.fst = gs.flatMap Prod.fst := List.flatMap_map ..

theorem codewordGroups_bits (gs : List Claims.Codeword) :
    ((gs.map codewordGroup).map Prod.snd).sum = (gs.flatMap Prod.snd).length := by
  rw [List.length_flatMap, List.map_map]
  rfl

/-- The symbol's index, if it has one, is at most `m` on either side of the centre. -/
def Symbol.within (m : Int) (y : Symbol) : Bool :=
  match y with
  | .zero => true
  | .deq k => decide (-m ≤ k) && decide (k ≤ m)

/-- The codewords of the bands that have them: every stream begins with one, each stands for a row or more, and no
index is larger than the band's largest (R172, R173, R175, R176, R178 to R181, R187). -/
theorem prefixBands_codewords : ∀ p ∈ Claims.prefixBands,
    coversStreams 5 (p.2.2.map Prod.snd) = true ∧
      ∀ g ∈ p.2.2, 1 ≤ g.1.length ∧ ∀ y ∈ g.1, y.within p.2.1 = true := by
  decide

/-- The codewords of a band have their indices inside a window that holds the largest of them. -/
theorem codewords_covered {p : Instr × Int × List Claims.Codeword} (hp : p ∈ Claims.prefixBands) {u : LutUnit}
    {e : BitVec 4} (he : u.e = some e) (hm : p.2.1 ≤ ((2 ^ e.toNat : Nat) : Int) - 1) {gs : List Claims.Codeword}
    (hgs : ∀ g ∈ gs, g ∈ p.2.2) : u.covers (gs.flatMap Prod.fst) := by
  intro k hk
  obtain ⟨g, hg, hkg⟩ := List.mem_flatMap.mp hk
  have hwithin := ((prefixBands_codewords p hp).2 g (hgs g hg)).2 _ hkg
  simp only [Symbol.within, Bool.and_eq_true, decide_eq_true_eq] at hwithin
  exact LutUnit.inWindow_of_abs_le he hm hwithin.1 hwithin.2

end Sys2Proof.Machine
end

section
/-! The statements of the family 41_band_ops.md. -/

namespace Sys2Proof.Claims

open Sys2Proof Sys2Proof.Machine

/-- Settles O52: every command body keeps what the phase of a live context says is written, and a step is one
command. -/
theorem writtenWordsKept : Obligations.WrittenWordsKept :=
  fun s t hs h => t.filled_iff.mpr (step_keepsContexts commandBody_filled (s.filled_iff.mp hs) h)

/-- Settles O20: the zero band's rule writes its column's zeros and cannot fail. -/
theorem zeroBandClearsItsColumn : Obligations.ZeroBandClearsItsColumn := by
  intro s c hexp
  obtain ⟨buf, hcol, hrun⟩ := bandZ_runs (s.work c)
  exact fillsColumn_of_body hexp.1 ⟨buf, hcol, (bandCommand_expected hexp bandZ).trans hrun⟩

/-- Settles O22: a direct band's groups are its rows, each of n bits. -/
theorem directBandsDequantize : Obligations.DirectBandsDequantize := by
  intro p hp s c hexp hin
  have hfills := runBand_uniform_fills (BitVec.ofNat 5 p.1) (w := s.work c) (groupDirect_takes p.1) (bits := p.1)
    (rows := 1) (f := directSymbols c p.1) hexp.2.2 Nat.one_pos (fun _ => rfl)
    (fun r => by rw [Nat.div_one, Nat.mod_one]; rfl) (fun j _ => groupDirect_reads c p.1 j) hin
  rw [Nat.add_sub_cancel, Nat.div_one] at hfills
  refine fillsColumn_of_body hexp.1 ?_
  rw [directBand_body hp, bandCommand_expected hexp]
  exact hfills

/-- Settles O25: every stream begins with a codeword of the band, so the next codewords that fill the rows are the
groups its scheme reads. -/
theorem prefixBandsReadTheirCodewords : Obligations.PrefixBandsReadTheirCodewords := by
  intro p hp s c e hexp hpacked he hm
  obtain ⟨code, group, -, hbody, htakes, hreads⟩ := prefixBand_body hp
  obtain ⟨hcovers, hcodewords⟩ := prefixBands_codewords p hp
  obtain ⟨gs, hgs, hbits, hrows⟩ := exists_codewords hcovers (fun g hg => (hcodewords g hg).1) c.source c.R.toNat
    c.R.toNat (r := 0) c.bitPos (by omega)
  refine ⟨gs, hgs, hbits, ?_, ?_, fillsColumn_of_body hexp.1 ?_⟩
  · have hlen := fillsRows_length hrows
    rwa [codewordGroups_symbols, Nat.zero_add] at hlen
  · rintro hs g rfl
    rw [List.map_append] at hrows
    have hlast := fillsRows_last hrows
    rwa [codewordGroups_symbols, Nat.zero_add] at hlast
  · rw [hbody, bandCommand_expected hexp, runPacked_gk _ _ hpacked, ← codewordGroups_symbols, ← codewordGroups_bits]
    refine runBand_fills code htakes (w := s.work c) hexp.2.2 (readsGroups_codewords hreads hgs hbits) hrows
      fun k hk => ?_
    rw [codewordGroups_symbols] at hk
    exact codewords_covered hp he hm hgs k (List.mem_of_mem_take hk)

/-- Settles O26: a mixed-radix band's groups are its digits, and row r is digit r mod n of group r / n. -/
theorem radixBandsUnpackTheirDigits : Obligations.RadixBandsUnpackTheirDigits := by
  intro b hb s c e hexp hpacked he hm hvalues
  obtain ⟨hn, hbody⟩ := radixBand_body hb
  refine fillsColumn_of_body hexp.1 ?_
  rw [hbody, bandCommand_expected hexp, runPacked_gk _ _ hpacked]
  exact runBand_uniform_fills _ (w := s.work c) (groupRadix_takes b.bits b.base b.n hn) hexp.2.2 hn
    (radixSymbols_length c b) (radixSymbols_index c hn) (fun j hj => groupRadix_reads (hvalues j hj))
    fun r _ => radixIndex_inWindow hb he hm c r

/-- Settles O27: the groups before the first without a combination are written, and leave its first row unwritten. -/
theorem radixBandFaultsOnAValueWithoutCombination : Obligations.RadixBandFaultsOnAValueWithoutCombination := by
  intro b hb s c e j hexp hpacked he hm hj hbad hvalues
  obtain ⟨hn, hbody⟩ := radixBand_body hb
  have hlen := uniformGroups_length (n := b.bits) (radixSymbols_length c b) 0 j
  refine endsInFault_of_body hexp.1 ?_
  rw [hbody, bandCommand_expected hexp, runPacked_gk _ _ hpacked]
  refine runBand_noCombination b.code (w := s.work c) (groupRadix_takes b.bits b.base b.n hn) (n := b.bits) hexp.2.2
    (readsGroups_uniform (f := radixSymbols c b) j (a := 0) fun i _ hi => groupRadix_reads (hvalues i (by omega)))
    ?_ ?_ fun u hsrc hpos => groupRadix_noCombination hbad hsrc ?_
  · rw [hlen, Nat.mul_comm]
    exact hj
  · have hcovered := uniformGroups_covered (u := s.lut) (n := b.bits) hn (radixSymbols_length c b)
      (radixSymbols_index c hn) (m := j) (R := b.n * j) fun r _ => radixIndex_inWindow hb he hm c r
    rwa [List.take_of_length_le (Nat.le_of_eq hlen)] at hcovered
  · rwa [uniformGroups_bits] at hpos

/-- Settles O32, from what BAND's dispatch can do: only a band that has written its column answers OK. -/
theorem bandWritesItsColumnOnly : Obligations.BandWritesItsColumnOnly := by
  intro code s t c hexp h hresp
  have hbody : commandBody (Instr.band code) (s.work c) = bandDispatch code (s.work c) := by
    rw [commandBody_of_bandCode (bandCode_band code), bandCommand_expected hexp]
  have hband := bandDispatch_outcome code (s.work c)
  generalize bandDispatch code (s.work c) = out at hbody hband
  cases (exec_of_body hexp.1 hbody).symm.trans h
  obtain ⟨w', hfill, ⟨hkept, hrows, -⟩, rfl⟩ := bandOutcome_wrote hband (Option.some.inj hresp)
  rw [hfill]
  exact ⟨_, _, rfl, hrows, hkept⟩

/-- Settles O21: the reserved codes share the rule that fails the block. -/
theorem reservedCodesFailTheBlock : Obligations.ReservedCodesFailTheBlock := by
  intro i hi s c hexp
  refine exec_of_body (w := (failBand (s.work c)).1) hexp.1 ?_
  rw [reservedBand_body hi, bandCommand_expected hexp]
  rfl

/-- Settles O31: the rule of every packed code first looks at PACKED. -/
theorem packedBandsAreRefusedWithoutAScheme : Obligations.PackedBandsAreRefusedWithoutAScheme := by
  intro i hi s c hexp hpacked
  obtain ⟨code, group, hbody⟩ := packedBand_body hi
  have hrefuse : commandBody i (s.work c) = (s.work c).takeRefusal := by
    rw [hbody, bandCommand_expected hexp, runPacked, show (s.work c).cfg.packed = .none from hpacked]
  exact ⟨_, _, rfl, exec_of_body hexp.1 hrefuse⟩

end Sys2Proof.Claims
end

section
/-! SUPPORT. The lifting pair in 32-bit arithmetic, the bias, and what UNTRANSFORM does where it runs and where it is
turned away (R200, R201, R203, R207). -/

namespace Sys2Proof.Machine

open Sys2Proof

/-! ### The lifting pair (R201) -/

/-- `wrap32` loses nothing of a signed 32-bit value (R10). -/
theorem wrap32_toInt {v : Int} (hlo : -2 ^ 31 ≤ v) (hhi : v < 2 ^ 31) : (wrap32 v).toInt = v := by
  rw [wrap32, BitVec.toInt_ofInt]
  exact Int.bmod_eq_of_le (by omega) (by omega)

theorem wrap32_ofToInt (x : Word) : wrap32 x.toInt = x := BitVec.ofInt_toInt

theorem wrap32_add (u v : Int) : wrap32 (u + v) = wrap32 u + wrap32 v := BitVec.ofInt_add u v

theorem wrap32_mul (u v : Int) : wrap32 (u * v) = wrap32 u * wrap32 v := BitVec.ofInt_mul u v

theorem wrap32_sub (u v : Int) : wrap32 (u - v) = wrap32 u - wrap32 v := by
  rw [eq_sub_iff_add_eq, ← wrap32_add, Int.sub_add_cancel]

theorem liftFirst_eq (x0 r0 r1 : Word) : liftFirst x0 r0 r1 = x0 + r0 + 2 * r1 := by
  simp only [liftFirst, wrap32_add, wrap32_mul, wrap32_ofToInt]
  rfl

theorem liftSecond_eq (x0 x1 r1 : Word) : liftSecond x0 x1 r1 = 2 * x0 - (r1 + x1) := by
  simp only [liftSecond, wrap32_sub, wrap32_add, wrap32_mul, wrap32_ofToInt]
  rfl

/-! ### The bias (R203) -/

/-- Every word after the bias: the words k·S/2 of the chunk are distinct, so each gets its 1 once. -/
theorem bias_readBuf {S : Nat} (hS : 2 ≤ S) (base Rc : Nat) (b : Banks) (i : Nat) :
    (bias S base Rc b).readBuf i =
      if ∃ k < 2 * Rc, i = base + k * (S / 2) then wrap32 ((b.readBuf i).toInt + 1) else b.readBuf i := by
  refine forRange_invariant (fun n (b' : Banks) => b'.readBuf i =
    if ∃ k < n, i = base + k * (S / 2) then wrap32 ((b.readBuf i).toInt + 1) else b.readBuf i) _ _ _ (by simp) ?_
  intro n _ b' hb'
  rw [Banks.readBuf_writeBuf]
  by_cases hi : i = base + n * (S / 2)
  · have hfresh : ¬ ∃ k < n, i = base + k * (S / 2) := by
      rintro ⟨k, hk, hik⟩
      have := Nat.mul_lt_mul_of_pos_right hk (show 0 < S / 2 by omega)
      omega
    rw [if_neg hfresh] at hb'
    rw [if_pos hi, if_pos ⟨n, Nat.lt_succ_self n, hi⟩, ← hi, hb']
  · have hsame : (∃ k < n + 1, i = base + k * (S / 2)) ↔ ∃ k < n, i = base + k * (S / 2) := by
      refine ⟨fun ⟨k, hk, hik⟩ => ⟨k, Nat.lt_of_le_of_ne (Nat.le_of_lt_succ hk) ?_, hik⟩,
        fun ⟨k, hk, hik⟩ => ⟨k, Nat.lt_succ_of_lt hk, hik⟩⟩
      rintro rfl
      exact hi hik
    simp only [if_neg hi, hsame, hb']

@[simp] theorem bias_prev (S base Rc : Nat) (b : Banks) : (bias S base Rc b).prev = b.prev :=
  forRange_keeps (fun b' : Banks => b'.prev = b.prev) _ _ _ rfl fun _ _ _ h => h

/-- With STAGE0_R1_NOOP a one-row chunk has no stage 0 (R202). -/
theorem stageZero_noop (S base : Nat) (b : Banks) : stageZero true S base 1 b = b := rfl

/-! ### UNTRANSFORM (R200) -/

theorem Cells.get?_prevWrite_ne (m : Cells Word) {k j : Nat} (v : Word) (h : j ≠ k) :
    Cells.get? (prevWrite m k v) j = Cells.get? m j := by
  unfold prevWrite
  split
  · rw [Cells.get?_erase, if_neg h]
  · exact Cells.get?_put_ne m v h

/-- The transform leaves the words outside the block's index ranges as they are (R207). -/
theorem transformBlock_outside {cfg : Config} {c : Context} (noop : Bool) (hgeo : c.geometry cfg) :
    (∀ i, c.BW.toNat ≤ i → Cells.get? (transformBlock noop c).buf i = Cells.get? c.buf i) ∧
      ∀ j, prevWordsOf c.L ≤ j → Cells.get? (transformBlock noop c).prev j = Cells.get? c.prev j := by
  obtain ⟨hS, hBW, -, -⟩ := hgeo
  refine transformBlock_keeps (P := fun b =>
    (∀ i, c.BW.toNat ≤ i → Cells.get? b.buf i = Cells.get? c.buf i) ∧
      ∀ j, prevWordsOf c.L ≤ j → Cells.get? b.prev j = Cells.get? c.prev j) hS noop
    ⟨fun b k v _ hk hb => ⟨fun i hi => ?_, hb.2⟩, fun b k v hk hb => ⟨hb.1, fun j hj => ?_⟩⟩
    ⟨fun _ _ => rfl, fun _ _ => rfl⟩
  · rw [hBW, blockWordsOf, subbandsOf] at hi
    rw [Banks.writeBuf_buf, Cells.get?_put_ne _ _ (by omega)]
    exact hb.1 i (by rwa [hBW, blockWordsOf, subbandsOf])
  · rw [Banks.writePrev_prev, Cells.get?_prevWrite_ne _ _ (by omega)]
    exact hb.2 j hj

theorem exec_untransform_runs {s : State} {c : Context} (h : Claims.Serves s c) (hp : c.phase = .filling)
    (hband : c.nextBand = c.S.toNat) :
    exec .untransform s = .next (s.commit (finishBlock (s.work c)) .okay) := by
  have hbody : untransformCommand (s.work c) = (finishBlock (s.work c), .okay) := by
    simp [untransformCommand, Work.inPhase, hp, hband]
  exact exec_of_body h hbody

theorem exec_untransform_turnedAway {s : State} {c : Context} (h : Claims.Serves s c)
    (hnot : ¬ (c.phase = .filling ∧ c.nextBand = c.S.toNat)) :
    exec .untransform s = .next (s.respond (.bare .errState)) := by
  have hbody : untransformCommand (s.work c) = (s.work c, .bare .errState) := by
    rcases untransformCommand_cases (s.work c) with ⟨hp, hband, -⟩ | hw
    · exact absurd ⟨hp, hband⟩ hnot
    · exact hw
  rw [exec_of_body (i := .untransform) h hbody, State.commit_work h.1]

end Sys2Proof.Machine
end

section
/-! SUPPORT. The column kernel as equations: every word of BUF and of PREV after it (R201). -/

namespace Sys2Proof.Machine

open Sys2Proof

/-! ### One column, as the words it holds -/

/-- The state a column that holds `x` carries into pair `j` (R201): its own `s` before the first pair, then the word
`back` rows before the pair, which is the pair before's first input (r0, 2 back) or second input (r1, 1 back). -/
def carried (x : Nat → Word) (back : Nat) (s : Word) (j : Nat) : Word := if j = 0 then s else x (2 * j - back)

/-- Row `n` of a column that holds `x`, after the kernel (R201). -/
def liftedWord (x : Nat → Word) (s0 s1 : Word) (n : Nat) : Word :=
  if n % 2 = 0 then liftFirst (x n) (carried x 2 s0 (n / 2)) (carried x 1 s1 (n / 2))
  else liftSecond (x (n - 1)) (x n) (carried x 1 s1 (n / 2))

theorem liftedWord_even (x : Nat → Word) (s0 s1 : Word) (j : Nat) :
    liftedWord x s0 s1 (2 * j) = liftFirst (x (2 * j)) (carried x 2 s0 j) (carried x 1 s1 j) := by
  rw [liftedWord, if_pos (by omega), show 2 * j / 2 = j by omega]

theorem liftedWord_odd (x : Nat → Word) (s0 s1 : Word) (j : Nat) :
    liftedWord x s0 s1 (2 * j + 1) = liftSecond (x (2 * j)) (x (2 * j + 1)) (carried x 1 s1 j) := by
  rw [liftedWord, if_neg (by omega), show (2 * j + 1) / 2 = j by omega, Nat.add_sub_cancel]

theorem carried_congr {x y : Nat → Word} {j back : Nat} (hback : 0 < back) (h : ∀ n < 2 * j, x n = y n) (s : Word) :
    carried x back s j = carried y back s j := by
  unfold carried
  split
  · rfl
  · exact h _ (by omega)

/-- A row comes out of the rows up to it. -/
theorem liftedWord_congr {x y : Nat → Word} {n : Nat} (h : ∀ m ≤ n, x m = y m) (s0 s1 : Word) :
    liftedWord x s0 s1 n = liftedWord y s0 s1 n := by
  have hbefore : ∀ m < 2 * (n / 2), x m = y m := fun m _ => h m (by omega)
  rw [liftedWord, liftedWord, carried_congr Nat.two_pos hbefore, carried_congr Nat.one_pos hbefore,
    h n (Nat.le_refl n), h (n - 1) (Nat.sub_le n 1)]

/-- The rows of a column from 2·M on carry the state the whole column carries, when they start with what the rows
before them leave. -/
theorem carried_add {back : Nat} (hback : back ≤ 2) (x : Nat → Word) (s : Word) (M j : Nat) :
    carried (fun n => x (2 * M + n)) back (carried x back s M) j = carried x back s (M + j) := by
  by_cases hj : j = 0
  · rw [carried, if_pos hj, hj, Nat.add_zero]
  · rw [carried, if_neg hj, carried, if_neg (by omega), show 2 * (M + j) - back = 2 * M + (2 * j - back) by omega]

/-- The rows of a column from 2·M on come out as they do in the whole column, when the state is carried (R205). -/
theorem liftedWord_add (x : Nat → Word) (s0 s1 : Word) (M n : Nat) :
    liftedWord (fun n => x (2 * M + n)) (carried x 2 s0 M) (carried x 1 s1 M) n = liftedWord x s0 s1 (2 * M + n) := by
  rcases Nat.even_or_odd' n with ⟨j, rfl | rfl⟩
  · rw [liftedWord_even, ← Nat.mul_add, liftedWord_even, carried_add (by omega), carried_add (by omega)]
  · rw [liftedWord_odd, ← Nat.add_assoc, ← Nat.mul_add, liftedWord_odd, carried_add (by omega)]

/-- Column `c` of the view of `C` columns at `base`, by row (R201). -/
def columnWords (b : Banks) (base C c n : Nat) : Word := b.readBuf (base + n * C + c)

/-- What the first `M` pairs of column `c` make of `k`. -/
structure ColumnLifted (base C c M : Nat) (k k' : Column) : Prop where
  rows : ∀ n < 2 * M,
    k'.banks.readBuf (base + n * C + c) = liftedWord (columnWords k.banks base C c) k.r0 k.r1 n
  others : ∀ i, (∀ n < 2 * M, i ≠ base + n * C + c) → k'.banks.readBuf i = k.banks.readBuf i
  prev : k'.banks.prev = k.banks.prev
  r0 : k'.r0 = carried (columnWords k.banks base C c) 2 k.r0 M
  r1 : k'.r1 = carried (columnWords k.banks base C c) 1 k.r1 M

theorem view_row_inj {C : Nat} (hC : 0 < C) {base c m n : Nat} (h : base + m * C + c = base + n * C + c) : m = n :=
  Nat.eq_of_mul_eq_mul_right hC (by omega)

/-- One more pair of a column's run: its rows still hold what they held before the run. -/
theorem ColumnLifted.liftPair {base C c M : Nat} (hC : 0 < C) {k k' : Column} (h : ColumnLifted base C c M k k') :
    ColumnLifted base C c (M + 1) k (liftPair (base + 2 * M * C + c) (base + (2 * M + 1) * C + c) k') := by
  have hne {m n : Nat} (hmn : m ≠ n) : base + m * C + c ≠ base + n * C + c := fun he => hmn (view_row_inj hC he)
  have hfresh (n : Nat) (hn : 2 * M ≤ n) : k'.banks.readBuf (base + n * C + c) = columnWords k.banks base C c n :=
    h.others _ fun m hm => hne (by omega)
  have hx0 := hfresh (2 * M) (by omega)
  have hx1 := hfresh (2 * M + 1) (by omega)
  have hpq := hne (show 2 * M ≠ 2 * M + 1 by omega)
  refine ⟨fun n hn => ?_, fun i hi => ?_, h.prev, hx0, hx1⟩
  · rw [liftPair_readBuf hpq, hx0, hx1, h.r0, h.r1]
    by_cases hp : n = 2 * M
    · rw [if_pos (by rw [hp]), hp, liftedWord_even]
    · rw [if_neg (hne hp)]
      by_cases hq : n = 2 * M + 1
      · rw [if_pos (by rw [hq]), hq, liftedWord_odd]
      · rw [if_neg (hne hq), h.rows n (by omega)]
  · rw [liftPair_readBuf hpq, if_neg (hi _ (by omega)), if_neg (hi _ (by omega))]
    exact h.others i fun n hn => hi n (by omega)

theorem liftColumn_lifted {base C c : Nat} (hC : 0 < C) (M : Nat) (k : Column) :
    ColumnLifted base C c M k (liftColumn base C (2 * M) c k) := by
  rw [liftColumn, Nat.mul_div_cancel_left _ Nat.two_pos]
  refine forRange_invariant (fun m => ColumnLifted base C c m k) _ _ _
    ⟨nofun, fun _ _ => rfl, rfl, rfl, rfl⟩ fun m _ k' hk' => ?_
  have hp : base + c + 2 * m * C = base + 2 * m * C + c := by ring
  have hq : base + 2 * m * C + c + C = base + (2 * m + 1) * C + c := by ring
  rw [hp, hq]
  exact hk'.liftPair hC

/-! ### A column's words in a state region (R64, R202, R204) -/

/-- How many words of PREV a column has in the region. -/
def StateRegion.words (st : StateRegion) : Nat := if st.packed then 1 else 2

/-- Word `k` of those that hold the state (r0, r1) of a column. -/
def StateRegion.stored (st : StateRegion) (r0 r1 : Word) (k : Nat) : Word :=
  if st.packed then lowHalf r1 ++ lowHalf r0 else if k = 0 then r0 else r1

theorem StateRegion.put_readPrev (st : StateRegion) (b : Banks) (c : Nat) (r0 r1 : Word) (j : Nat) :
    (st.put b c r0 r1).readPrev j =
      if st.start + c * st.words ≤ j ∧ j < st.start + c * st.words + st.words then
        st.stored r0 r1 (j - (st.start + c * st.words))
      else b.readPrev j := by
  cases hp : st.packed <;>
    simp only [StateRegion.put, StateRegion.words, StateRegion.stored, hp, Banks.readPrev_writePrev,
      Bool.false_eq_true, if_false, if_true] <;> grind

@[simp] theorem StateRegion.put_readBuf (st : StateRegion) (b : Banks) (c : Nat) (r0 r1 : Word) (i : Nat) :
    (st.put b c r0 r1).readBuf i = b.readBuf i := by
  unfold StateRegion.put
  split <;> rfl

/-- A column's state is read from its own words. -/
theorem StateRegion.get_congr {st : StateRegion} {b b' : Banks} {c : Nat}
    (h : ∀ k < st.words, b.readPrev (st.start + c * st.words + k) = b'.readPrev (st.start + c * st.words + k)) :
    st.get0 b c = st.get0 b' c ∧ st.get1 b c = st.get1 b' c := by
  cases hp : st.packed <;> simp only [StateRegion.words, hp, Bool.false_eq_true, if_false, if_true] at h
  · rw [Nat.mul_comm c 2] at h
    simp only [StateRegion.get0, StateRegion.get1, hp, Bool.false_eq_true, if_false]
    exact ⟨h 0 Nat.two_pos, h 1 Nat.one_lt_two⟩
  · have hword := h 0 Nat.one_pos
    rw [Nat.mul_one, Nat.add_zero] at hword
    simp only [StateRegion.get0, StateRegion.get1, hp, if_true, hword, and_self]

/-- A 16-bit value is the sign extension of its low half (R209). -/
theorem sext32_lowHalf {v : Word} (h : inSampleRange v) : sext32 (lowHalf v) = v := by
  obtain ⟨hlo, hhi⟩ := h
  refine BitVec.eq_of_toInt_eq ?_
  have hsext : (sext32 (lowHalf v)).toInt = (lowHalf v).toInt := BitVec.toInt_signExtend_of_le (by decide)
  have hlow : (lowHalf v).toNat = v.toNat % 2 ^ 16 := by simp [lowHalf]
  have hv := v.isLt
  rw [BitVec.toInt_eq_toNat_cond] at hlo hhi
  rw [hsext, BitVec.toInt_eq_toNat_cond, BitVec.toInt_eq_toNat_cond, hlow]
  omega

theorem lowHalf_append (hi lo : Half) : lowHalf (hi ++ lo) = lo := by
  rw [lowHalf, BitVec.extractLsb'_append_eq_right]

theorem highHalf_append (hi lo : Half) : highHalf (hi ++ lo) = hi := by
  rw [highHalf, BitVec.extractLsb'_append_eq_left]

/-- What `put` has stored is what `get` reads: in a later stage always, in stage 0 when the values are of 16 bits
(R209). -/
theorem StateRegion.get_of_stored {st : StateRegion} {b : Banks} {c : Nat} {r0 r1 : Word}
    (h : ∀ k < st.words, b.readPrev (st.start + c * st.words + k) = st.stored r0 r1 k)
    (hrange : st.packed = true → inSampleRange r0 ∧ inSampleRange r1) : st.get0 b c = r0 ∧ st.get1 b c = r1 := by
  cases hp : st.packed <;>
    simp only [StateRegion.words, StateRegion.stored, hp, Bool.false_eq_true, if_false, if_true] at h
  · rw [Nat.mul_comm c 2] at h
    simp only [StateRegion.get0, StateRegion.get1, hp, Bool.false_eq_true, if_false]
    exact ⟨h 0 Nat.two_pos, h 1 Nat.one_lt_two⟩
  · obtain ⟨h0, h1⟩ := hrange hp
    have hword := h 0 Nat.one_pos
    rw [Nat.mul_one, Nat.add_zero] at hword
    simp only [StateRegion.get0, StateRegion.get1, hp, if_true, hword, lowHalf_append, highHalf_append,
      sext32_lowHalf h0, sext32_lowHalf h1, and_self]

/-- Stage 0 reads 16-bit values (R202). -/
theorem StateRegion.get_range {st : StateRegion} (h : st.packed = true) (b : Banks) (c : Nat) :
    inSampleRange (st.get0 b c) ∧ inSampleRange (st.get1 b c) := by
  simp only [StateRegion.get0, StateRegion.get1, h, if_true]
  exact ⟨sext32_range _, sext32_range _⟩

/-! ### The whole kernel -/

theorem view_inj {base C c d m n : Nat} (hc : c < C) (hd : d < C) (h : base + m * C + c = base + n * C + d) :
    m = n ∧ c = d := by
  have hcd : c = d := by
    have hmod := congrArg (· % C) (show m * C + c = n * C + d by omega)
    simpa [Nat.mod_eq_of_lt hc, Nat.mod_eq_of_lt hd] using hmod
  exact ⟨view_row_inj (Nat.zero_lt_of_lt hc) (hcd ▸ h), hcd⟩

/-- Column `c`'s row `n` after the kernel, by the words before it. -/
def kernelWord (base C : Nat) (st : StateRegion) (b : Banks) (c n : Nat) : Word :=
  liftedWord (columnWords b base C c) (st.get0 b c) (st.get1 b c) n

/-- Word `k` of column `c`'s state after the kernel on `M` pairs, by the words before it. -/
def kernelState (base C M : Nat) (st : StateRegion) (b : Banks) (c k : Nat) : Word :=
  st.stored (carried (columnWords b base C c) 2 (st.get0 b c) M) (carried (columnWords b base C c) 1 (st.get1 b c) M) k

/-- What the kernel's first `m` columns make of `b`. -/
structure Lifted (base C M : Nat) (st : StateRegion) (m : Nat) (b b' : Banks) : Prop where
  rows : ∀ c < m, ∀ n < 2 * M, b'.readBuf (base + n * C + c) = kernelWord base C st b c n
  others : ∀ i, (∀ c < m, ∀ n < 2 * M, i ≠ base + n * C + c) → b'.readBuf i = b.readBuf i
  state : ∀ c < m, ∀ k < st.words, b'.readPrev (st.start + c * st.words + k) = kernelState base C M st b c k
  otherState : ∀ j, j < st.start ∨ st.start + m * st.words ≤ j → b'.readPrev j = b.readPrev j

/-- One more column: its rows and its state are still what they were before the kernel. -/
theorem Lifted.liftOne {base C M m : Nat} {st : StateRegion} (hm : m < C) {b b' : Banks}
    (h : Lifted base C M st m b b') : Lifted base C M st (m + 1) b (liftOne base C (2 * M) st m b') := by
  have hx : columnWords b' base C m = columnWords b base C m := funext fun n =>
    h.others _ fun c hc r _ he => absurd (view_inj hm (by omega) he).2 (by omega)
  obtain ⟨hget0, hget1⟩ : st.get0 b' m = st.get0 b m ∧ st.get1 b' m = st.get1 b m :=
    StateRegion.get_congr fun k _ => h.otherState _ (.inr (Nat.le_add_right _ _))
  have hcol := liftColumn_lifted (base := base) (c := m) (Nat.zero_lt_of_lt hm) M
    { banks := b', r0 := st.get0 b' m, r1 := st.get1 b' m }
  obtain ⟨hrows, hothers, hprev, hr0, hr1⟩ := hcol
  simp only [hx, hget0, hget1] at hrows hothers hprev hr0 hr1
  have hprevRead := fun j => congrArg (prevRead · j) hprev
  refine ⟨fun c hc n hn => ?_, fun i hi => ?_, fun c hc k hk => ?_, fun j hj => ?_⟩
  · simp only [Machine.liftOne, StateRegion.put_readBuf, hget0, hget1]
    by_cases hcm : c = m
    · rw [hcm, hrows n hn, kernelWord]
    · rw [hothers _ fun r _ he => hcm (view_inj (by omega) hm he).2, h.rows c (by omega) n hn]
  · simp only [Machine.liftOne, StateRegion.put_readBuf, hget0, hget1]
    rw [hothers i fun n hn => hi m (by omega) n hn, h.others i fun c hc => hi c (by omega)]
  · simp only [Machine.liftOne, StateRegion.put_readPrev, hget0, hget1, hr0, hr1]
    by_cases hcm : c = m
    · rw [if_pos (by rw [hcm]; omega), hcm, Nat.add_sub_cancel_left, kernelState]
    · have hle : (c + 1) * st.words ≤ m * st.words := Nat.mul_le_mul_right _ (by omega)
      rw [Nat.succ_mul] at hle
      rw [if_neg (by omega)]
      exact (hprevRead _).trans (h.state c (by omega) k hk)
  · simp only [Machine.liftOne, StateRegion.put_readPrev, hget0, hget1, hr0, hr1]
    rw [Nat.succ_mul] at hj
    rw [if_neg (by omega)]
    exact (hprevRead _).trans (h.otherState j (by omega))

theorem lift_lifted (base C M : Nat) (st : StateRegion) (b : Banks) :
    Lifted base C M st C b (lift base C (2 * M) st b) :=
  forRange_invariant (fun m => Lifted base C M st m b) _ _ _ ⟨nofun, fun _ _ => rfl, nofun, fun _ _ => rfl⟩
    fun _ hm _ hb => hb.liftOne hm

/-- Every word of a view is in one of its rows and columns (R201). -/
theorem exists_view {base C N i : Nat} (hlo : base ≤ i) (hhi : i < base + N * C) :
    ∃ n < N, ∃ c < C, i = base + n * C + c := by
  have hC : 0 < C := Nat.pos_of_ne_zero fun h => by simp [h] at hhi; omega
  refine ⟨(i - base) / C, Nat.div_lt_of_lt_mul ?_, (i - base) % C, Nat.mod_lt _ hC, ?_⟩
  · rw [Nat.mul_comm]
    omega
  · have := Nat.div_add_mod' (i - base) C
    omega

theorem view_lt {base C N n c : Nat} (hn : n < N) (hc : c < C) : base + n * C + c < base + N * C := by
  have : (n + 1) * C ≤ N * C := Nat.mul_le_mul_right _ hn
  rw [Nat.succ_mul] at this
  omega

/-- The kernel writes no word outside its view (R207). -/
theorem lift_readBuf_outside {base C M : Nat} (st : StateRegion) (b : Banks) {i : Nat}
    (hi : i < base ∨ base + 2 * M * C ≤ i) : (lift base C (2 * M) st b).readBuf i = b.readBuf i :=
  (lift_lifted base C M st b).others i fun c hc n hn he => by
    have := view_lt (base := base) hn hc
    omega

end Sys2Proof.Machine
end

section
/-! SUPPORT. Operations on the two memories by the words they reach: operations that reach different words commute. -/

namespace Sys2Proof.Machine

open Sys2Proof

/-- `b` and `b'` read the same at the BUF words in `I` and the PREV words in `J`. -/
def Banks.agree (I J : Set Nat) (b b' : Banks) : Prop :=
  (∀ i ∈ I, b.readBuf i = b'.readBuf i) ∧ ∀ j ∈ J, b.readPrev j = b'.readPrev j

/-- `b` and `b'` read the same everywhere. -/
def Banks.same (b b' : Banks) : Prop := Banks.agree Set.univ Set.univ b b'

theorem Banks.same_iff {b b' : Banks} :
    b.same b' ↔ (∀ i, b.readBuf i = b'.readBuf i) ∧ ∀ j, b.readPrev j = b'.readPrev j := by
  simp [Banks.same, Banks.agree]

theorem Banks.same_refl (b : Banks) : b.same b := ⟨fun _ _ => rfl, fun _ _ => rfl⟩

theorem Banks.same.symm {b b' : Banks} (h : b.same b') : b'.same b :=
  ⟨fun i hi => (h.1 i hi).symm, fun j hj => (h.2 j hj).symm⟩

theorem Banks.same.trans {a b c : Banks} (h : a.same b) (h' : b.same c) : a.same c :=
  ⟨fun i hi => (h.1 i hi).trans (h'.1 i hi), fun j hj => (h.2 j hj).trans (h'.2 j hj)⟩

/-- `f` reaches only the BUF words in `I` and the PREV words in `J`: it leaves the others, and what it writes comes out
of what these hold. -/
structure ReachesOnly (f : Banks → Banks) (I J : Set Nat) : Prop where
  buf : ∀ b, ∀ i ∉ I, (f b).readBuf i = b.readBuf i
  prev : ∀ b, ∀ j ∉ J, (f b).readPrev j = b.readPrev j
  within : ∀ b b', Banks.agree I J b b' → Banks.agree I J (f b) (f b')

variable {f g : Banks → Banks} {I J I' J' : Set Nat}

theorem ReachesOnly.mono (h : ReachesOnly f I J) (hI : I ⊆ I') (hJ : J ⊆ J') : ReachesOnly f I' J' := by
  refine ⟨fun b i hi => h.buf b i fun hi' => hi (hI hi'), fun b j hj => h.prev b j fun hj' => hj (hJ hj'),
    fun b b' hb => ?_⟩
  have hf := h.within b b' ⟨fun i hi => hb.1 i (hI hi), fun j hj => hb.2 j (hJ hj)⟩
  refine ⟨fun i hi => ?_, fun j hj => ?_⟩
  · by_cases hin : i ∈ I
    · exact hf.1 i hin
    · rw [h.buf b i hin, h.buf b' i hin, hb.1 i hi]
  · by_cases hin : j ∈ J
    · exact hf.2 j hin
    · rw [h.prev b j hin, h.prev b' j hin, hb.2 j hj]

theorem ReachesOnly.comp (hg : ReachesOnly g I J) (hf : ReachesOnly f I J) : ReachesOnly (g ∘ f) I J :=
  ⟨fun b i hi => (hg.buf _ i hi).trans (hf.buf b i hi), fun b j hj => (hg.prev _ j hj).trans (hf.prev b j hj),
    fun b b' hb => hg.within _ _ (hf.within b b' hb)⟩

/-- An operation does not see how a memory lists its words. -/
theorem ReachesOnly.same (h : ReachesOnly f I J) {b b' : Banks} (hb : b.same b') : (f b).same (f b') :=
  (h.mono (Set.subset_univ I) (Set.subset_univ J)).within b b' hb

/-- What `f` writes is not changed by an operation on other words before it. -/
theorem ReachesOnly.agree_comp (hf : ReachesOnly f I J) (hg : ReachesOnly g I' J') (hI : Disjoint I I')
    (hJ : Disjoint J J') (b : Banks) : Banks.agree I J (f (g b)) (f b) :=
  hf.within _ _ ⟨fun i hi => hg.buf b i (Set.disjoint_left.mp hI hi),
    fun j hj => hg.prev b j (Set.disjoint_left.mp hJ hj)⟩

/-- Operations on different words commute. -/
theorem ReachesOnly.commute (hf : ReachesOnly f I J) (hg : ReachesOnly g I' J') (hI : Disjoint I I')
    (hJ : Disjoint J J') (b : Banks) : (f (g b)).same (g (f b)) := by
  have hfg := hf.agree_comp hg hI hJ b
  have hgf := hg.agree_comp hf hI.symm hJ.symm b
  refine Banks.same_iff.mpr ⟨fun i => ?_, fun j => ?_⟩
  · by_cases hi : i ∈ I
    · rw [hfg.1 i hi, hg.buf _ i (Set.disjoint_left.mp hI hi)]
    · rw [hf.buf _ i hi]
      by_cases hi' : i ∈ I'
      · exact (hgf.1 i hi').symm
      · rw [hg.buf _ i hi', hg.buf _ i hi', hf.buf _ i hi]
  · by_cases hj : j ∈ J
    · rw [hfg.2 j hj, hg.prev _ j (Set.disjoint_left.mp hJ hj)]
    · rw [hf.prev _ j hj]
      by_cases hj' : j ∈ J'
      · exact (hgf.2 j hj').symm
      · rw [hg.prev _ j hj', hg.prev _ j hj', hf.prev _ j hj]

/-- Two steps, each of which may be run on one part after another, may be run so together, when the second step on the
first part (`gX`) and the first step on the second part (`fY`) reach different words. -/
theorem same_interleave {fX fY gX gY : Banks → Banks} {K K' M M' : Set Nat} (hg : ReachesOnly g K K')
    (hgY : ReachesOnly gY M M') (hgX : ReachesOnly gX I J) (hfY : ReachesOnly fY I' J') (hI : Disjoint I I')
    (hJ : Disjoint J J') {b : Banks} (hfsplit : (f b).same (fY (fX b))) (hgsplit : ∀ b, (g b).same (gY (gX b))) :
    (g (f b)).same (gY (fY (gX (fX b)))) :=
  (hg.same hfsplit).trans ((hgsplit _).trans (hgY.same (hgX.commute hfY hI hJ _)))

end Sys2Proof.Machine
end

section
/-! SUPPORT. What the kernel and the bias reach, and that each may be run on some rows and then on those after them
(R207, R210). -/

namespace Sys2Proof.Machine

open Sys2Proof

/-! ### What a stage reaches -/

theorem lift_reachesOnly (base C M : Nat) (st : StateRegion) :
    ReachesOnly (lift base C (2 * M) st) (Set.Ico base (base + 2 * M * C))
      (Set.Ico st.start (st.start + C * st.words)) := by
  refine ⟨fun b i hi => lift_readBuf_outside st b (by simp only [Set.mem_Ico] at hi; omega),
    fun b j hj => (lift_lifted base C M st b).otherState j (by simp only [Set.mem_Ico] at hj; omega),
    fun b b' hb => ?_⟩
  have hx {c : Nat} (hc : c < C) : ∀ n < 2 * M, columnWords b base C c n = columnWords b' base C c n :=
    fun n hn => hb.1 _ ⟨by omega, view_lt hn hc⟩
  have hget {c : Nat} (hc : c < C) : st.get0 b c = st.get0 b' c ∧ st.get1 b c = st.get1 b' c :=
    StateRegion.get_congr fun k hk => hb.2 _ ⟨by omega, view_lt hc hk⟩
  have hlift := lift_lifted base C M st b
  have hlift' := lift_lifted base C M st b'
  refine ⟨fun i ⟨hlo, hhi⟩ => ?_, fun j ⟨hlo, hhi⟩ => ?_⟩
  · obtain ⟨n, hn, c, hc, rfl⟩ := exists_view hlo hhi
    rw [hlift.rows c hc n hn, hlift'.rows c hc n hn, kernelWord, kernelWord, (hget hc).1, (hget hc).2]
    exact liftedWord_congr (fun m hm => hx hc m (by omega)) _ _
  · obtain ⟨c, hc, k, hk, rfl⟩ := exists_view hlo hhi
    rw [hlift.state c hc k hk, hlift'.state c hc k hk, kernelState, kernelState, (hget hc).1, (hget hc).2,
      carried_congr Nat.two_pos (hx hc), carried_congr Nat.one_pos (hx hc)]

theorem bias_reachesOnly {S : Nat} (hS : 2 ≤ S) (base Rc : Nat) :
    ReachesOnly (bias S base Rc) (Set.Ico base (base + 2 * Rc * (S / 2))) ∅ := by
  refine ⟨fun b i hi => ?_, fun b j _ => by rw [Banks.readPrev, bias_prev]; rfl, fun b b' hb =>
    ⟨fun i hi => by rw [bias_readBuf hS, bias_readBuf hS, hb.1 i hi], nofun⟩⟩
  rw [bias_readBuf hS, if_neg]
  rintro ⟨k, hk, rfl⟩
  exact hi ⟨by omega, Nat.add_lt_add_left (Nat.mul_lt_mul_of_pos_right hk (by omega)) base⟩

/-! ### Each stage in two parts -/

/-- The kernel on M₁ + M₂ pairs of rows is the kernel on the first M₁ and then on the rest: the state is carried
through PREV, where stage 0 keeps 16-bit values whole (R209, R210). -/
theorem lift_append (base C M₁ M₂ : Nat) (st : StateRegion) {b : Banks}
    (hrange : st.packed = true → ∀ i ∈ Set.Ico base (base + 2 * M₁ * C), inSampleRange (b.readBuf i)) :
    (lift base C (2 * (M₁ + M₂)) st b).same
      (lift (base + 2 * M₁ * C) C (2 * M₂) st (lift base C (2 * M₁) st b)) := by
  have hwhole := lift_lifted base C (M₁ + M₂) st b
  have hfirst := lift_lifted base C M₁ st b
  have hbeyond := fun i hi => lift_readBuf_outside (base := base) (C := C) (M := M₁) (i := i) st b hi
  generalize lift base C (2 * M₁) st b = b₁ at hfirst hbeyond ⊢
  have hsecond := lift_lifted (base + 2 * M₁ * C) C M₂ st b₁
  have hoff (n c : Nat) : base + 2 * M₁ * C + n * C + c = base + (2 * M₁ + n) * C + c := by ring
  have hx (c : Nat) : columnWords b₁ (base + 2 * M₁ * C) C c = fun n => columnWords b base C c (2 * M₁ + n) := by
    funext n
    rw [columnWords, hbeyond _ (by omega), hoff]
    rfl
  have hget {c : Nat} (hc : c < C) : st.get0 b₁ c = carried (columnWords b base C c) 2 (st.get0 b c) M₁ ∧
      st.get1 b₁ c = carried (columnWords b base C c) 1 (st.get1 b c) M₁ := by
    refine StateRegion.get_of_stored (hfirst.state c hc) fun hp => ?_
    unfold carried
    split
    · exact StateRegion.get_range hp b c
    · exact ⟨hrange hp _ ⟨by omega, view_lt (by omega) hc⟩, hrange hp _ ⟨by omega, view_lt (by omega) hc⟩⟩
  have hrow {c : Nat} (hc : c < C) (n : Nat) :
      kernelWord (base + 2 * M₁ * C) C st b₁ c n = kernelWord base C st b c (2 * M₁ + n) := by
    rw [kernelWord, hx, (hget hc).1, (hget hc).2, liftedWord_add, kernelWord]
  have hstate {c : Nat} (hc : c < C) (k : Nat) :
      kernelState (base + 2 * M₁ * C) C M₂ st b₁ c k = kernelState base C (M₁ + M₂) st b c k := by
    rw [kernelState, hx, (hget hc).1, (hget hc).2, carried_add (by omega), carried_add (by omega), kernelState]
  refine Banks.same_iff.mpr ⟨fun i => ?_, fun j => ?_⟩
  · by_cases hi : i ∈ Set.Ico base (base + 2 * (M₁ + M₂) * C)
    · obtain ⟨n, hn, c, hc, rfl⟩ := exists_view hi.1 hi.2
      rw [hwhole.rows c hc n hn]
      by_cases hn₁ : n < 2 * M₁
      · rw [lift_readBuf_outside st b₁ (.inl (view_lt hn₁ hc)), hfirst.rows c hc n hn₁]
      · obtain ⟨m, rfl⟩ := Nat.exists_eq_add_of_le (Nat.le_of_not_lt hn₁)
        rw [← hrow hc, ← hoff, hsecond.rows c hc m (by omega)]
    · have hend : base + 2 * M₁ * C + 2 * M₂ * C = base + 2 * (M₁ + M₂) * C := by ring
      simp only [Set.mem_Ico] at hi
      rw [lift_readBuf_outside st b (by omega), lift_readBuf_outside st b₁ (by omega), hbeyond i (by omega)]
  · by_cases hj : j ∈ Set.Ico st.start (st.start + C * st.words)
    · obtain ⟨c, hc, k, hk, rfl⟩ := exists_view hj.1 hj.2
      rw [hwhole.state c hc k hk, hsecond.state c hc k hk, hstate hc]
    · simp only [Set.mem_Ico] at hj
      rw [hwhole.otherState j (by omega), hsecond.otherState j (by omega), hfirst.otherState j (by omega)]

/-- A loop of m + n turns is the loop of the first m, and then of the rest. -/
theorem forRange_add {β : Type} (m n : Nat) (f : Nat → β → β) (a : β) :
    forRange (m + n) f a = forRange n (fun i => f (m + i)) (forRange m f a) := by
  induction n with
  | zero => rfl
  | succ n ih => rw [← Nat.add_assoc, forRange_succ, forRange_succ, ih]

theorem bias_append {S : Nat} (hS : S / 2 * 2 = S) (base R₁ R₂ : Nat) (b : Banks) :
    bias S base (R₁ + R₂) b = bias S (base + R₁ * S) R₂ (bias S base R₁ b) := by
  have hword (k : Nat) : base + R₁ * S + k * (S / 2) = base + (2 * R₁ + k) * (S / 2) := by
    calc base + R₁ * S + k * (S / 2) = base + R₁ * (S / 2 * 2) + k * (S / 2) := by rw [hS]
      _ = base + (2 * R₁ + k) * (S / 2) := by ring
  unfold bias
  simp only [Nat.mul_add 2 R₁ R₂, forRange_add, hword]

end Sys2Proof.Machine
end

section
/-! SUPPORT. The stages of a context, S = 2^L: rows may go through all of them in one chunk or in several (R205,
R210). -/

namespace Sys2Proof.Machine

open Sys2Proof

/-! ### The stages of a chunk -/

theorem stageZero_words {L : Nat} (h : 1 ≤ L) (Rc : Nat) : 2 * Rc * (2 ^ L / 2) = Rc * 2 ^ L := by
  have hhalf := half_pow h
  rw [Nat.zero_add, Nat.pow_one] at hhalf
  calc 2 * Rc * (2 ^ L / 2) = Rc * (2 ^ L / 2 * 2) := by ring
    _ = Rc * 2 ^ L := by rw [hhalf]

theorem stage_words {L i : Nat} (h : i + 1 ≤ L) (Rc : Nat) :
    2 * (2 ^ i * Rc) * (2 ^ L / 2 ^ (i + 1)) = Rc * 2 ^ L := by
  calc 2 * (2 ^ i * Rc) * (2 ^ L / 2 ^ (i + 1)) = Rc * (2 ^ L / 2 ^ (i + 1) * 2 ^ (i + 1)) := by ring
    _ = Rc * 2 ^ L := by rw [half_pow h]

/-- A later stage is the kernel on 2^i·Rc pairs of rows (R204). -/
theorem stage_eq_lift (S base Rc i : Nat) :
    stage S base Rc i = lift base (S / 2 ^ (i + 1)) (2 * (2 ^ i * Rc)) (stageRegion S i) := by
  funext b
  rw [stage, Nat.pow_succ', Nat.mul_assoc]

theorem stageZero_reachesOnly {L : Nat} (h : 1 ≤ L) (base Rc : Nat) :
    ReachesOnly (stageZero false (2 ^ L) base Rc) (Set.Ico base (base + Rc * 2 ^ L)) (Set.Iio (2 ^ L / 2)) := by
  have hlift := lift_reachesOnly base (2 ^ L / 2) Rc stageZeroRegion
  rw [stageZero_words h] at hlift
  refine hlift.mono (Set.Subset.refl _) fun j hj => ?_
  simpa [stageZeroRegion, StateRegion.words] using hj

theorem chunkBias_reachesOnly {L : Nat} (h : 1 ≤ L) (base Rc : Nat) :
    ReachesOnly (bias (2 ^ L) base Rc) (Set.Ico base (base + Rc * 2 ^ L)) ∅ := by
  have hbias := bias_reachesOnly (Nat.le_self_pow (by omega : L ≠ 0) 2) base Rc
  rwa [stageZero_words h] at hbias

theorem stage_reachesOnly {L i : Nat} (h : i + 1 ≤ L) (base Rc : Nat) :
    ReachesOnly (stage (2 ^ L) base Rc i) (Set.Ico base (base + Rc * 2 ^ L))
      (Set.Ico (stageRegion (2 ^ L) i).start ((stageRegion (2 ^ L) i).start + 2 * (2 ^ L / 2 ^ (i + 1)))) := by
  have hlift := lift_reachesOnly base (2 ^ L / 2 ^ (i + 1)) (2 ^ i * Rc) (stageRegion (2 ^ L) i)
  rw [stage_words h, Nat.mul_comm (2 ^ L / 2 ^ (i + 1)), ← stage_eq_lift] at hlift
  exact hlift

theorem stage_append {L i : Nat} (h : i + 1 ≤ L) (base R₁ R₂ : Nat) (b : Banks) :
    (stage (2 ^ L) base (R₁ + R₂) i b).same
      (stage (2 ^ L) (base + R₁ * 2 ^ L) R₂ i (stage (2 ^ L) base R₁ i b)) := by
  simp only [stage_eq_lift, Nat.mul_add (2 ^ i), ← stage_words h R₁]
  exact lift_append _ _ _ _ _ nofun

/-- Stage 0 with its bias, and the stages 1..n after it (R200). -/
def stagesThrough (L n base Rc : Nat) (b : Banks) : Banks :=
  forRange n (fun i b => stage (2 ^ L) base Rc (i + 1) b) (bias (2 ^ L) base Rc (stageZero false (2 ^ L) base Rc b))

/-- A chunk goes through all the stages (R200). -/
theorem transformChunk_eq_stagesThrough (L base Rc : Nat) (b : Banks) :
    transformChunk false L (2 ^ L) base Rc b = stagesThrough L (L - 1) base Rc b := rfl

/-- The stages up to `n` reach PREV below the region of stage n + 1 (R64). -/
theorem stagesThrough_reachesOnly {L n : Nat} (h : n + 1 < L) (base Rc : Nat) :
    ReachesOnly (stagesThrough L n base Rc) (Set.Ico base (base + Rc * 2 ^ L))
      (Set.Iio (stageRegion (2 ^ L) (n + 1)).start) := by
  obtain ⟨hfirst, hnext, -⟩ := Claims.prevRegionsTile L (by omega)
  induction n with
  | zero =>
    rw [hfirst]
    exact ((chunkBias_reachesOnly (by omega) base Rc).mono (Set.Subset.refl _) (Set.empty_subset _)).comp
      (stageZero_reachesOnly (by omega) base Rc)
  | succ n ih =>
    have hstart := hnext (n + 1) (by omega) h
    refine ((stage_reachesOnly (by omega) base Rc).mono (Set.Subset.refl _) fun j hj => ?_).comp
      ((ih (by omega)).mono (Set.Subset.refl _) (Set.Iio_subset_Iio ?_))
    · simp only [Set.mem_Ico, Set.mem_Iio] at hj ⊢
      omega
    · omega

/-- A run of R₁ + R₂ rows of 16-bit samples, through the stages up to `n`: the first R₁ rows may go through all of them
before the rest go through any (R210). -/
theorem stagesThrough_append {L n : Nat} (h : n + 1 ≤ L) (base R₁ R₂ : Nat) {b : Banks}
    (hrange : ∀ i ∈ Set.Ico base (base + R₁ * 2 ^ L), inSampleRange (b.readBuf i)) :
    (stagesThrough L n base (R₁ + R₂) b).same
      (stagesThrough L n (base + R₁ * 2 ^ L) R₂ (stagesThrough L n base R₁ b)) := by
  have hrows : Disjoint (Set.Ico base (base + R₁ * 2 ^ L))
      (Set.Ico (base + R₁ * 2 ^ L) (base + R₁ * 2 ^ L + R₂ * 2 ^ L)) := Set.Ico_disjoint_Ico_same
  induction n with
  | zero =>
    have hzero := lift_append base (2 ^ L / 2) R₁ R₂ stageZeroRegion (b := b) fun _ => by rwa [stageZero_words h]
    rw [stageZero_words h] at hzero
    refine same_interleave (chunkBias_reachesOnly h _ _) (chunkBias_reachesOnly h _ _) (chunkBias_reachesOnly h _ _)
      (stageZero_reachesOnly h _ _) hrows (Set.empty_disjoint _) hzero fun b => ?_
    rw [bias_append (half_pow h)]
    exact Banks.same_refl _
  | succ n ih =>
    refine same_interleave (stage_reachesOnly h _ _) (stage_reachesOnly h _ _) (stage_reachesOnly h _ _)
      (stagesThrough_reachesOnly h _ _) hrows ?_ (ih (by omega)) fun b => stage_append h _ _ _ b
    exact Set.disjoint_left.mpr fun j hj hj' => Nat.not_lt.mpr hj.1 hj'

/-! ### The chunks of a block -/

theorem transformChunk_append {L : Nat} (hL : 1 ≤ L) (base R₁ R₂ : Nat) {b : Banks}
    (hrange : ∀ i ∈ Set.Ico base (base + R₁ * 2 ^ L), inSampleRange (b.readBuf i)) :
    (transformChunk false L (2 ^ L) base (R₁ + R₂) b).same
      (transformChunk false L (2 ^ L) (base + R₁ * 2 ^ L) R₂ (transformChunk false L (2 ^ L) base R₁ b)) := by
  simp only [transformChunk_eq_stagesThrough]
  exact stagesThrough_append (by omega) base R₁ R₂ hrange

theorem transformChunks_done {T R j : Nat} (h : R ≤ j * T) (noop : Bool) (L S turns : Nat) (b : Banks) :
    transformChunks noop L S T R turns j b = b := by
  cases turns with
  | zero => rfl
  | succ n => rw [transformChunks, if_neg (Nat.not_lt.mpr h)]

theorem transformChunks_step {T R j : Nat} (h : j * T < R) (noop : Bool) (L S n : Nat) (b : Banks) :
    transformChunks noop L S T R (n + 1) j b =
      transformChunks noop L S T R n (j + 1) (transformChunk noop L S (j * T * S) (min T (R - j * T)) b) := by
  rw [transformChunks, if_pos h]

/-- A chunk leaves the rows after it as they are (R207). -/
theorem transformChunk_readBuf_after {L : Nat} (hL : 1 ≤ L) (noop : Bool) {base Rc i : Nat}
    (hi : base + Rc * 2 ^ L ≤ i) (b : Banks) : (transformChunk noop L (2 ^ L) base Rc b).readBuf i = b.readBuf i := by
  refine transformChunk_keeps (P := fun b' => b'.readBuf i = b.readBuf i) hL noop
    ⟨fun b' k v _ hk hb' => ?_, fun b' k v _ hb' => hb'⟩ rfl
  exact (Banks.readBuf_writeBuf ..).trans ((if_neg (by omega)).trans hb')

/-- From chunk `j` on, the chunks do what one chunk of all the rows left would do (R210). -/
theorem transformChunks_same {L T R turns j : Nat} (hL : 1 ≤ L) (hT : 1 ≤ T) (hj : j * T < R)
    (hturns : R ≤ j * T + turns) {b : Banks}
    (hrange : ∀ i ∈ Set.Ico (j * T * 2 ^ L) (R * 2 ^ L), inSampleRange (b.readBuf i)) :
    (transformChunks false L (2 ^ L) T R turns j b).same
      (transformChunk false L (2 ^ L) (j * T * 2 ^ L) (R - j * T) b) := by
  induction turns generalizing j b with
  | zero => omega
  | succ n ih =>
    have hnext : (j + 1) * T = j * T + T := Nat.succ_mul j T
    rw [transformChunks_step hj]
    rcases Nat.lt_or_ge ((j + 1) * T) R with hmore | hlast
    · have hbase : j * T * 2 ^ L + T * 2 ^ L = (j + 1) * T * 2 ^ L := by rw [hnext, Nat.add_mul]
      have hbelow : (j + 1) * T * 2 ^ L ≤ R * 2 ^ L := Nat.mul_le_mul_right _ hmore.le
      have hrest := ih hmore (by omega) (b := transformChunk false L (2 ^ L) (j * T * 2 ^ L) T b) fun i hi => by
        rw [transformChunk_readBuf_after hL false (hbase.trans_le hi.1)]
        exact hrange i ⟨by have := hi.1; omega, hi.2⟩
      have hwhole := transformChunk_append hL (j * T * 2 ^ L) T (R - (j + 1) * T)
        (b := b) fun i hi => hrange i ⟨hi.1, by have := hi.2; omega⟩
      rw [hbase, show T + (R - (j + 1) * T) = R - j * T by omega] at hwhole
      rw [Nat.min_eq_left (by omega)]
      exact hrest.trans hwhole.symm
    · rw [transformChunks_done hlast, Nat.min_eq_right (by omega)]
      exact Banks.same_refl _

/-- However the rows of a block of 16-bit samples are cut into chunks, they are transformed as one chunk (R210). -/
theorem transformChunks_same_chunk {L T R : Nat} (hL : 1 ≤ L) (hT : 1 ≤ T) (hR : 0 < R) {b : Banks}
    (hrange : ∀ i < R * 2 ^ L, inSampleRange (b.readBuf i)) :
    (transformChunks false L (2 ^ L) T R R 0 b).same (transformChunk false L (2 ^ L) 0 R b) := by
  have hall := transformChunks_same (j := 0) (turns := R) hL hT (by omega) (by omega) (b := b)
    fun i hi => hrange i hi.2
  rwa [Nat.zero_mul, Nat.zero_mul, Nat.sub_zero] at hall

end Sys2Proof.Machine
end

section
/-! SUPPORT. The transform of a block of zeros with one level (R211). -/

namespace Sys2Proof.Machine

open Sys2Proof

theorem carried_zero (back j : Nat) : carried (fun _ => 0) back 0 j = 0 := ite_self 0

theorem liftedWord_zero (n : Nat) : liftedWord (fun _ => 0) 0 0 n = 0 := by
  rw [liftedWord, carried_zero, carried_zero]
  exact ite_self 0

theorem StateRegion.stored_zero (st : StateRegion) (k : Nat) : st.stored 0 0 k = 0 := by
  simp only [StateRegion.stored, ite_self]
  exact ite_self 0

/-- The kernel changes nothing where every sample and every state word is 0 (R211). -/
theorem lift_zero (base C M : Nat) (st : StateRegion) {b : Banks}
    (hbuf : ∀ i ∈ Set.Ico base (base + 2 * M * C), b.readBuf i = 0) (hprev : ∀ j, b.readPrev j = 0) :
    (lift base C (2 * M) st b).same b := by
  have hlift := lift_lifted base C M st b
  have hget (c : Nat) : st.get0 b c = 0 ∧ st.get1 b c = 0 := by
    simp only [StateRegion.get0, StateRegion.get1, hprev]
    cases st.packed <;> exact ⟨rfl, rfl⟩
  have hx {c : Nat} (hc : c < C) : ∀ n < 2 * M, columnWords b base C c n = 0 :=
    fun n hn => hbuf _ ⟨by omega, view_lt hn hc⟩
  refine Banks.same_iff.mpr ⟨fun i => ?_, fun j => ?_⟩
  · by_cases hi : i ∈ Set.Ico base (base + 2 * M * C)
    · obtain ⟨n, hn, c, hc, rfl⟩ := exists_view hi.1 hi.2
      rw [hbuf _ hi, hlift.rows c hc n hn, kernelWord, (hget c).1, (hget c).2,
        liftedWord_congr (y := fun _ => 0) fun m hm => hx hc m (by omega), liftedWord_zero]
    · simp only [Set.mem_Ico] at hi
      exact lift_readBuf_outside st b (by omega)
  · by_cases hj : j ∈ Set.Ico st.start (st.start + C * st.words)
    · obtain ⟨c, hc, k, hk, rfl⟩ := exists_view hj.1 hj.2
      rw [hprev, hlift.state c hc k hk, kernelState, (hget c).1, (hget c).2, carried_congr Nat.two_pos (hx hc),
        carried_congr Nat.one_pos (hx hc), carried_zero, carried_zero, st.stored_zero]
    · simp only [Set.mem_Ico] at hj
      exact hlift.otherState j (by omega)

theorem stageZero_zero (noop : Bool) {base Rc : Nat} {b : Banks}
    (hbuf : ∀ i ∈ Set.Ico base (base + 2 * Rc), b.readBuf i = 0) (hprev : ∀ j, b.readPrev j = 0) :
    (stageZero noop 2 base Rc b).same b := by
  unfold stageZero
  split
  · exact Banks.same_refl _
  · exact lift_zero base 1 Rc stageZeroRegion (by rwa [Nat.mul_one]) hprev

/-- A chunk of zeros with one level: the bias alone is left to see (R203, R211). -/
theorem transformChunk_zero (noop : Bool) {base Rc : Nat} {b : Banks}
    (hbuf : ∀ i ∈ Set.Ico base (base + 2 * Rc), b.readBuf i = 0) (hprev : ∀ j, b.readPrev j = 0) :
    (∀ i, (transformChunk noop 1 2 base Rc b).readBuf i = if i ∈ Set.Ico base (base + 2 * Rc) then 1 else b.readBuf i) ∧
      ∀ j, (transformChunk noop 1 2 base Rc b).readPrev j = 0 := by
  obtain ⟨hzero, hzero'⟩ := Banks.same_iff.mp (stageZero_zero noop hbuf hprev)
  have hchunk : transformChunk noop 1 2 base Rc b = bias 2 base Rc (stageZero noop 2 base Rc b) := rfl
  refine ⟨fun i => ?_, fun j => ?_⟩
  · have hcolumn : (∃ k < 2 * Rc, i = base + k * (2 / 2)) ↔ i ∈ Set.Ico base (base + 2 * Rc) :=
      ⟨fun ⟨k, hk, hik⟩ => ⟨by omega, by omega⟩, fun ⟨hlo, hhi⟩ => ⟨i - base, by omega, by omega⟩⟩
    simp only [hchunk, bias_readBuf (Nat.le_refl 2), hcolumn, hzero]
    split
    · rename_i hi
      rw [hbuf i hi]
      rfl
    · rfl
  · rw [hchunk, Banks.readPrev, bias_prev]
    exact (hzero' j).trans (hprev j)

/-- From chunk `j` on: the rows before it hold ones, its own and those after it zeros (R211). -/
theorem transformChunks_zero (noop : Bool) {T R turns j : Nat} (hT : 1 ≤ T) (hturns : R ≤ j * T + turns) {b : Banks}
    (hbuf : ∀ i < 2 * R, b.readBuf i = if i < 2 * (j * T) then 1 else 0) (hprev : ∀ j, b.readPrev j = 0) :
    (∀ i < 2 * R, (transformChunks noop 1 2 T R turns j b).readBuf i = 1) ∧
      ∀ k, (transformChunks noop 1 2 T R turns j b).readPrev k = 0 := by
  have hdone (hj : R ≤ j * T) : (∀ i < 2 * R, b.readBuf i = 1) ∧ ∀ k, b.readPrev k = 0 :=
    ⟨fun i hi => (hbuf i hi).trans (if_pos (by omega)), hprev⟩
  induction turns generalizing j b with
  | zero => exact hdone hturns
  | succ n ih =>
    rcases Nat.lt_or_ge (j * T) R with hj | hj
    · have hnext : (j + 1) * T = j * T + T := Nat.succ_mul j T
      obtain ⟨hchunk, hchunk'⟩ := transformChunk_zero noop (base := j * T * 2) (Rc := min T (R - j * T))
        (fun i ⟨hlo, hhi⟩ => (hbuf i (by omega)).trans (if_neg (by omega))) hprev
      have hbuf' : ∀ i < 2 * R, (transformChunk noop 1 2 (j * T * 2) (min T (R - j * T)) b).readBuf i =
          if i < 2 * ((j + 1) * T) then 1 else 0 := by
        intro i hi
        rw [hchunk i, hbuf i hi]
        by_cases hin : i ∈ Set.Ico (j * T * 2) (j * T * 2 + 2 * min T (R - j * T))
        · rw [if_pos hin, if_pos (by have := hin.2; omega)]
        · rw [if_neg hin]
          rw [Set.mem_Ico] at hin
          exact if_congr (by omega) rfl rfl
      rw [transformChunks_step hj]
      exact ih (by omega) hbuf' hchunk' fun hend => ⟨fun i hi => (hbuf' i hi).trans (if_pos (by omega)), hchunk'⟩
    · rw [transformChunks_done hj]
      exact hdone hj

/-- The transform leaves a written word written (R207). -/
theorem transformBlock_isSome {c : Context} (hS : c.S.toNat = subbandsOf c.L) (noop : Bool) {i : Nat}
    (h : (Cells.get? c.buf i).isSome) : (Cells.get? (transformBlock noop c).buf i).isSome := by
  refine transformBlock_keeps (P := fun b => (Cells.get? b.buf i).isSome) hS noop
    ⟨fun b k v _ _ hb => ?_, fun _ _ _ _ hb => hb⟩ h
  show (Cells.get? (Cells.put b.buf k v) i).isSome
  rw [Cells.get?_put]
  split
  · rfl
  · exact hb

/-- A word that reads as `v` and is written holds `v`. -/
theorem Banks.get?_of_readBuf {b : Banks} {i : Nat} {v : Word} (hread : b.readBuf i = v)
    (hsome : (Cells.get? b.buf i).isSome) : Cells.get? b.buf i = some v := by
  obtain ⟨u, hu⟩ := Option.isSome_iff_exists.mp hsome
  rw [Banks.readBuf, bufRead, hu] at hread
  rw [hu, ← hread, Option.getD_some]

end Sys2Proof.Machine
end

section
/-! The statements of the family 42_transform.md. -/

namespace Sys2Proof.Claims

open Sys2Proof Sys2Proof.Machine

/-- Settles O36: `wrap32` is a ring homomorphism, so each sum may be reduced term by term. -/
theorem liftingPairIsModularArithmetic : Obligations.LiftingPairIsModularArithmetic :=
  fun x0 x1 r0 r1 => ⟨liftFirst_eq x0 r0 r1, liftSecond_eq x0 x1 r1⟩

/-- Settles O37: each sum of four 16-bit terms is at most 4·32768 in magnitude. -/
theorem stageZeroDoesNotWrap : Obligations.StageZeroDoesNotWrap := by
  rintro x0 x1 r0 r1 ⟨hx0, hx0'⟩ ⟨hx1, hx1'⟩ ⟨hr0, hr0'⟩ ⟨hr1, hr1'⟩
  have hfirst : (liftFirst x0 r0 r1).toInt = x0.toInt + r0.toInt + 2 * r1.toInt :=
    wrap32_toInt (by omega) (by omega)
  have hsecond : (liftSecond x0 x1 r1).toInt = 2 * x0.toInt - (r1.toInt + x1.toInt) :=
    wrap32_toInt (by omega) (by omega)
  refine ⟨hfirst, hsecond, abs_le.mpr ?_, abs_le.mpr ?_⟩
  · rw [hfirst]
    omega
  · rw [hsecond]
    omega

/-- Settles O35: one word for each turn of the bias, all different. -/
theorem biasAddsOneToColumnZero : Obligations.BiasAddsOneToColumnZero := by
  refine ⟨fun S base Rc b hS => ⟨fun k hk => ?_, fun i hi => ?_, bias_prev S base Rc b⟩, fun L S base b => ?_⟩
  · rw [bias_readBuf hS, if_pos ⟨k, hk, rfl⟩]
  · rw [bias_readBuf hS, if_neg fun ⟨k, hk, hik⟩ => hi k hk hik]
  · rw [transformChunk, stageZero_noop]

/-- Settles O33: UNTRANSFORM's body ends the block with the transform, which writes inside the block (R207). -/
theorem untransformSetsUpTheOutput : Obligations.UntransformSetsUpTheOutput := by
  refine fun s c hserves => ⟨fun ⟨hp, hband⟩ => ⟨_, rfl, ?_, fun hL => ?_, transformBlock_outside _⟩,
    exec_untransform_turnedAway hserves⟩
  · have hrem := finishBlock_remaining (s.work c)
    rw [finishBlock_c_remaining] at hrem
    rw [exec_untransform_runs hserves hp hband, State.commit, finishBlock, hrem]
    rfl
  · simp [transformBlock_oneSubband _ hL]

/-- Settles O34: each column is lifted by itself, since no other column touches its rows or its state. -/
theorem liftRunsEveryColumn : Obligations.LiftRunsEveryColumn := by
  intro base C M st b x r0 r1 out
  have hlift : Lifted base C M st C b out := lift_lifted base C M st b
  refine ⟨fun c hc j hj => ⟨?_, ?_⟩, fun c hc => ⟨fun hp => ?_, fun hp => ?_⟩,
    fun i hi => lift_readBuf_outside st b hi, fun j hj => hlift.otherState j ?_⟩
  · rw [hlift.rows c hc (2 * j) (by omega), kernelWord, liftedWord_even]
    rfl
  · rw [hlift.rows c hc (2 * j + 1) (by omega), kernelWord, liftedWord_odd]
    rfl
  · have hword := hlift.state c hc 0 (by simp [StateRegion.words, hp])
    simp only [StateRegion.words, kernelState, StateRegion.stored, hp, if_true, Nat.mul_one, Nat.add_zero] at hword
    exact hword
  · have hword (k : Nat) (hk : k < 2) := hlift.state c hc k (by simpa [StateRegion.words, hp] using hk)
    simp only [StateRegion.words, kernelState, StateRegion.stored, hp, Nat.mul_comm c] at hword
    exact ⟨hword 0 Nat.two_pos, hword 1 Nat.one_lt_two⟩
  · have hwords : C * st.words = if st.packed then C else 2 * C := by
      rw [StateRegion.words, Nat.mul_comm]
      split <;> simp
    rwa [hwords]

/-- Settles O39: every cut into chunks does what one chunk of the whole block does. -/
theorem transformDoesNotDependOnChunking : Obligations.TransformDoesNotDependOnChunking := by
  intro L T T' R b hL hT hT' hrange
  rcases Nat.eq_zero_or_pos R with rfl | hR
  · exact ⟨fun _ => rfl, fun _ => rfl⟩
  · exact Banks.same_iff.mp
      ((transformChunks_same_chunk hL hT hR hrange).trans (transformChunks_same_chunk hL hT' hR hrange).symm)

/-- Settles O38: each chunk is zeros before it runs and ones after it, and leaves the state zero. -/
theorem zeroBlockGivesOnes : Obligations.ZeroBlockGivesOnes := by
  intro noop c hL hS hT hbuf hprev
  have hT' : 1 ≤ c.T.toNat := Nat.one_le_iff_ne_zero.mpr fun h => hT (BitVec.eq_of_toNat_eq h)
  have hblock : transformBlock noop c =
      transformChunks noop 1 2 c.T.toNat c.R.toNat c.R.toNat 0 { buf := c.buf, prev := c.prev } := by
    rw [transformBlock, if_neg (by rw [hL]; decide), hL, hS]
    rfl
  have hones := transformChunks_zero noop hT' (R := c.R.toNat) (turns := c.R.toNat) (j := 0) (by omega)
    (b := { buf := c.buf, prev := c.prev }) (fun i hi => by simp [Banks.readBuf, bufRead, hbuf i hi]) hprev
  rw [← hblock] at hones
  have hgeo : c.S.toNat = subbandsOf c.L := by rw [hS, hL]; rfl
  exact ⟨fun i hi => Banks.get?_of_readBuf (hones.1 i hi) (transformBlock_isSome hgeo noop (by simp [hbuf i hi])),
    hones.2⟩

end Sys2Proof.Claims
end

section
/-! SUPPORT. POP and FILL where they answer without a sample or a block, the sample POP forms, and FILL's loop against
a host that issues the same commands one by one (R240 to R242). -/

namespace Sys2Proof.Machine

open Sys2Proof

/-! ### POP (R240, R241) -/

/-- The low half of a word is what `trunc_16` leaves of its value (R10). -/
theorem lowHalf_eq_trunc16 (v : Word) : lowHalf v = trunc16 v.toInt :=
  calc lowHalf v = v.setWidth 16 := (BitVec.setWidth_eq_extractLsb' (by decide)).symm
    _ = v.signExtend 16 := (BitVec.signExtend_eq_setWidth_of_le v (by decide)).symm

/-- The arithmetic shift of R241 divides and rounds toward −∞ (R10). -/
theorem pcmOf_eq_trunc16_div (v : Word) (L : BitVec 4) :
    pcmOf v L = trunc16 (v.toInt / ((2 ^ L.toNat : Nat) : Int)) := by
  rw [pcmOf, lowHalf_eq_trunc16, BitVec.toInt_sshiftRight, Int.shiftRight_eq_div_pow]

theorem exec_pop_closed {s : State} {c : Context} (h : Claims.Serves s c) (hp : c.phase = .closed) :
    exec .pop s = .next (s.respond (.bare .errState)) := by
  have hbody : popCommand (s.work c) = (s.work c, .bare .errState) := by
    simp [popCommand, Work.inPhase, hp]
  rw [exec_of_body (i := .pop) h hbody, State.commit_work h.1]

theorem exec_pop_empty {s : State} {c : Context} (h : Claims.Serves s c) (hopen : c.phase ≠ .closed)
    (hnone : c.phase ≠ .idle ∨ c.outPos = c.outCount) : exec .pop s = .next (s.respond (.bare .empty)) := by
  have hbody : popCommand (s.work c) = (s.work c, .bare .empty) := by
    rw [popCommand, if_neg (by simp [Work.inPhase, hopen])]
    exact if_pos (by rcases hnone with hnone | hnone <;> simp [Work.inPhase, Work.drained, hnone])
  rw [exec_of_body (i := .pop) h hbody, State.commit_work h.1]

theorem exec_pop_sample {s : State} {c : Context} (h : Claims.Serves s c) (hp : c.phase = .idle)
    (hready : c.outPos ≠ c.outCount) :
    exec .pop s = .next (s.commit { s.work c with c := { c with outPos := c.outPos + 1 } }
      (.status .ok (pcmOf (bufRead c.buf c.outPos) c.L))) := by
  have hbody : popCommand (s.work c) = ({ s.work c with c := { c with outPos := c.outPos + 1 } },
      .status .ok (pcmOf (bufRead c.buf c.outPos) c.L)) := by
    simp [popCommand, Work.inPhase, Work.drained, hp, hready]
  exact exec_of_body (i := .pop) h hbody

/-! ### FILL where it may not run (R242) -/

theorem exec_fill_turnedAway {s : State} {c : Context} (h : Claims.Serves s c) (hstart : ¬ Claims.Startable c) :
    exec .fill s = .next (s.respond (.bare .errState)) := by
  have hbody : fillCommand (s.work c) = (s.work c, .bare .errState) :=
    if_pos (by simpa using mt (s.work c).mayStartBlock_iff.mp hstart)
  rw [exec_of_body (i := .fill) h hbody, State.commit_work h.1]

theorem exec_fill_endOfStream {s : State} {c : Context} (h : Claims.Serves s c) (hstart : Claims.Startable c)
    (hrem : c.remaining = 0) : exec .fill s = .next (s.respond (.bare .empty)) := by
  have hbody : fillCommand (s.work c) = (s.work c, .bare .empty) := by
    simp [fillCommand, (s.work c).mayStartBlock_iff.mpr hstart, hrem]
  rw [exec_of_body (i := .fill) h hbody, State.commit_work h.1]

theorem exec_fill_block {s : State} {c : Context} (h : Claims.Serves s c) (hstart : Claims.Startable c)
    (hrem : c.remaining ≠ 0) :
    exec .fill s = .next (s.commit (fillBlock (s.work c)).1 (fillBlock (s.work c)).2) := by
  have hbody : fillCommand (s.work c) = fillBlock (s.work c) := by
    rw [fillCommand, if_neg (by simp [(s.work c).mayStartBlock_iff.mpr hstart])]
    exact if_neg hrem
  exact exec_of_body (i := .fill) h hbody

/-! ### The host's side of the bit source -/

theorem streamAhead_of_addressed {s : State} {c : Context} (h : s.contexts[s.ctx]? = some c) (n : Nat) :
    Claims.streamAhead s n = streamBits c.source c.bitPos n := by
  rw [Claims.streamAhead, h]

theorem streamMoved_of_addressed {s : State} {c : Context} (h : s.contexts[s.ctx]? = some c) (n : Nat) :
    Claims.streamMoved s n =
      { s with contexts := s.contexts.set s.ctx { c with bitPos := c.bitPos + n } } := by
  rw [Claims.streamMoved, List.modify_eq_set_getElem?, h]
  rfl

/-- Between two commands the host's parse reads and moves the stream as a command's own takes do. -/
theorem streamAhead_commit {s : State} {c : Context} (h : s.contexts[s.ctx]? = some c) (w : Work) (r : Response)
    (n : Nat) : Claims.streamAhead (s.commit w r) n = w.peek n :=
  streamAhead_of_addressed (s.commit_addressed h w r) n

theorem streamMoved_commit {s : State} {c : Context} (h : s.contexts[s.ctx]? = some c) (w : Work) (r : Response)
    (n : Nat) : Claims.streamMoved (s.commit w r) n = s.commit (w.skip n) r := by
  rw [streamMoved_of_addressed (s.commit_addressed h w r)]
  simp [State.commit, Work.skip]

/-! ### One command after another -/

/-- What a command on the state `s` has done, after which its context still executes commands. -/
structure Work.continues (s : State) (w : Work) : Prop where
  cfg : w.cfg = s.cfg
  ctx : w.ctx = s.ctx
  fault : w.c.fault = none
  refused : w.c.refused = false

/-- The next command finds what the one before it left. -/
theorem exec_commit {s : State} {c : Context} (hc : s.contexts[s.ctx]? = some c) {w : Work}
    (hw : Work.continues s w) (r : Response) (i : Instr) :
    exec i (s.commit w r) = .next (s.commit (commandBody i w).1 (commandBody i w).2) := by
  have hwork : (s.commit w r).work w.c = w := by
    simp only [State.work, State.commit_cfg, State.commit_ctx, State.commit_lut, State.commit_draws, ← hw.cfg,
      ← hw.ctx]
  have hbody : commandBody i ((s.commit w r).work w.c) = ((commandBody i w).1, (commandBody i w).2) := by
    rw [hwork]
  have hserves : Claims.Serves (s.commit w r) w.c := ⟨s.commit_addressed hc w r, hw.fault, hw.refused⟩
  rw [exec_of_body hserves hbody]
  simp only [State.commit, List.set_set]

/-- A band that answers OK sets no mark. -/
theorem bandOutcome_continues {s : State} {w : Work} {out : Work × Response} (hw : Work.continues s w)
    (hout : bandOutcome w out) (hok : out.2 = .okay) : Work.continues s out.1 := by
  obtain ⟨w', hfills, -, rfl⟩ := bandOutcome_wrote hout hok
  rw [hfills]
  exact ⟨hw.cfg, hw.ctx, hw.fault, hw.refused⟩

/-- One turn of FILL's loop: the format code is the next 5 bits (R242). -/
theorem fillBands_succ (n : Nat) (w : Work) :
    fillBands (n + 1) w =
      if (bandDispatch (BitVec.ofNat 5 (w.peek 5)) (w.skip 5)).2 = .okay then
        fillBands n (bandDispatch (BitVec.ofNat 5 (w.peek 5)) (w.skip 5)).1
      else bandDispatch (BitVec.ofNat 5 (w.peek 5)) (w.skip 5) := rfl

/-- FILL's loop and the host's agree turn by turn: both end at the first answer that is not OK, and after the last
subband UNTRANSFORM finds the block filled (R242). -/
theorem fineBands_commit (n : Nat) {s : State} {c : Context} (hc : s.contexts[s.ctx]? = some c) {w : Work}
    (hw : Work.continues s w) (hp : w.c.phase = .filling) (hleft : w.c.nextBand + n = w.c.S.toNat) (r : Response) :
    Claims.fineBands n (s.commit w r) = s.commit (fillBands n w).1 (fillBands n w).2 := by
  induction n generalizing w r with
  | zero =>
    have hbody : commandBody .untransform w = (finishBlock w, .okay) :=
      if_pos (by simpa [Work.inPhase, hp] using hleft)
    rw [Claims.fineBands, exec_commit hc hw r .untransform, hbody]
    rfl
  | succ n ih =>
    have hskip : Work.continues s (w.skip 5) := ⟨hw.cfg, hw.ctx, hw.fault, hw.refused⟩
    have hawaits : (w.skip 5).awaitsBand = true :=
      (w.skip 5).awaitsBand_iff.mpr ⟨hp, by simp only [Work.skip_c_nextBand, Work.skip_c_S]; omega⟩
    have hbody : commandBody (.band (BitVec.ofNat 5 (w.peek 5))) (w.skip 5) =
        bandDispatch (BitVec.ofNat 5 (w.peek 5)) (w.skip 5) := by
      rw [commandBody_of_bandCode (bandCode_band _), bandCommand, if_pos hawaits]
    have hband := bandDispatch_outcome (BitVec.ofNat 5 (w.peek 5)) (w.skip 5)
    simp only [Claims.fineBands, streamAhead_commit hc, streamMoved_commit hc, exec_commit hc hskip, Claims.nextOf,
      hbody, State.commit_resp, Option.some.injEq, fillBands_succ]
    split
    next hok =>
      obtain ⟨-, hphase, hS, hnext⟩ := bandOutcome_okay hband hok
      refine ih (bandOutcome_continues hskip hband hok) (hphase.trans hp) ?_ _
      rw [hnext, hS, Work.skip_c_nextBand, Work.skip_c_S]
      omega
    · rfl

/-- The host's SCALE with the e and s it has parsed, and FILL's own start of the block (R90, R242). -/
theorem fineFill_eq_fillBlock {s : State} {c : Context} (h : Claims.Serves s c) (hstart : Claims.Startable c) :
    Claims.fineFill c.S.toNat s = s.commit (fillBlock (s.work c)).1 (fillBlock (s.work c)).2 := by
  obtain ⟨hc, hf, hr⟩ := h
  obtain ⟨hlt, -⟩ := List.getElem?_eq_some_iff.mp hc
  have hmoved (n : Nat) : Claims.Serves (Claims.streamMoved s n) { c with bitPos := c.bitPos + n } := by
    rw [streamMoved_of_addressed hc]
    exact ⟨List.getElem?_set_self hlt, hf, hr⟩
  have hcommit (e : BitVec 4) (x : BitVec 16) :
      (Claims.streamMoved s 20).commit
          (scaleBuild e x ((Claims.streamMoved s 20).work { c with bitPos := c.bitPos + 20 })) .okay =
        s.commit (scaleBuild e x ((s.work c).skip 20)) .okay := by
    rw [streamMoved_of_addressed hc]
    simp only [State.commit, List.set_set]
    rfl
  rw [Claims.fineFill, streamAhead_of_addressed hc, streamAhead_of_addressed (hmoved 4).1,
    exec_scale_builds (hmoved 20) hstart, hcommit]
  exact fineBands_commit _ hc (w := scaleBuild _ _ ((s.work c).skip 20)) ⟨rfl, rfl, hf, hr⟩ rfl (Nat.zero_add _) _

end Sys2Proof.Machine
end

section
/-! The statements of the family 43_streaming.md. -/

namespace Sys2Proof.Claims

open Sys2Proof Sys2Proof.Machine

/-- Settles O41: POP's three outcomes; the sample's shift is a division by 2^L. -/
theorem popFormsTheSample : Obligations.PopFormsTheSample := by
  refine fun s c hserves => ⟨exec_pop_closed hserves, exec_pop_empty hserves, fun v hp hready hv => ?_⟩
  have hsample : pcmOf (bufRead c.buf c.outPos) c.L = trunc16 (v.toInt / ((2 ^ c.L.toNat : Nat) : Int)) := by
    rw [bufRead, hv, Option.getD_some, pcmOf_eq_trunc16_div]
  rw [exec_pop_sample hserves hp hready, hsample]
  rfl

/-- Settles O42, by induction on the subbands left: both paths run the same bodies on what the one before left. -/
theorem fillAgreesWithTheFineGrainedCommands : Obligations.FillAgreesWithTheFineGrainedCommands :=
  fun s c hserves => ⟨exec_fill_turnedAway hserves, exec_fill_endOfStream hserves, fun hstart hrem => by
    rw [exec_fill_block hserves hstart hrem, fineFill_eq_fillBlock hserves hstart]⟩

/-- Settles O45, by induction on the turns: a turn that adds the two bytes of a sample found room for them. -/
theorem readNeverExceedsItsSize : Obligations.ReadNeverExceedsItsSize := by
  intro turns
  induction turns with
  | zero => exact fun size s => Nat.zero_le size
  | succ n ih =>
    intro size s
    rw [readLoop]
    split
    · exact Nat.zero_le size
    next hroom =>
      split
      · exact Nat.zero_le size
      next t d _ =>
        have hrest := ih (size - 2) t
        simp only [List.length_append, pcmBytes, List.length_cons, List.length_nil]
        omega
      · split
        · exact Nat.zero_le size
        next u r _ =>
          split
          · exact ih size u
          · exact Nat.zero_le size

/-- Settles O46: in its first turn POP answers EMPTY, and then so does FILL, which ends the loop. -/
theorem exhaustedContextReadsNothing : Obligations.ExhaustedContextReadsNothing := by
  intro turns size s c hserves hp hdrained hrem
  cases turns with
  | zero => exact ⟨rfl, rfl⟩
  | succ n =>
    have hpop : exec .pop s = .next (s.respond (.status .empty 0)) :=
      exec_pop_empty hserves (by simp [hp]) (.inr hdrained)
    have hfill : exec .fill (s.respond (.status .empty 0)) =
        .next ((s.respond (.status .empty 0)).respond (.status .empty 0)) :=
      exec_fill_endOfStream hserves (.inl ⟨hp, hdrained⟩) hrem
    rw [readLoop]
    split
    · exact ⟨rfl, rfl⟩
    · rw [hpop]
      simp only [answerOf, State.respond_resp, hfill]
      exact ⟨rfl, rfl⟩

end Sys2Proof.Claims
end

section
/-! SUPPORT. The answers of OPEN and CLOSE: what each does to the addressed context and to the LUT unit, and where it
does nothing (R260 to R264). -/

namespace Sys2Proof.Machine

open Sys2Proof

/-! ### OPEN (R260) -/

theorem exec_open_turnedAway {s : State} {c : Context} (h : Claims.Serves s c) (hp : c.phase ≠ .closed)
    (L : BitVec 4) (R : BitVec 12) (total : BitVec 32) :
    exec (.openCtx L R total) s = .next (s.respond (.bare .errState)) := by
  have hbody : openCommand L R total (s.work c) = (s.work c, .bare .errState) :=
    if_pos (by simp [Work.inPhase, hp])
  rw [exec_of_body (i := .openCtx L R total) h hbody, State.commit_work h.1]

theorem exec_open_tooLarge {s : State} {c : Context} (h : Claims.Serves s c) (hp : c.phase = .closed)
    {L : BitVec 4} {R : BitVec 12} (hlarge : s.cfg.maxBlockWords < blockWordsOf L R) (total : BitVec 32) :
    exec (.openCtx L R total) s = .next (s.respond (.bare .errAlloc)) := by
  have hbody : openCommand L R total (s.work c) = (s.work c, .bare .errAlloc) := by
    rw [openCommand, if_neg (by simp [Work.inPhase, hp])]
    exact if_pos hlarge
  rw [exec_of_body (i := .openCtx L R total) h hbody, State.commit_work h.1]

theorem exec_open_opens {s : State} {c : Context} (h : Claims.Serves s c) (hp : c.phase = .closed)
    {L : BitVec 4} {R : BitVec 12} (hfit : blockWordsOf L R ≤ s.cfg.maxBlockWords) (total : BitVec 32) :
    exec (.openCtx L R total) s =
      .next (s.commit { s.work c with c := c.opened L R total, lut := s.lut.acquire } .okay) := by
  have hbody : openCommand L R total (s.work c) =
      ({ s.work c with c := c.opened L R total, lut := s.lut.acquire }, .okay) := by
    rw [openCommand, if_neg (by simp [Work.inPhase, hp])]
    exact if_neg (Nat.not_lt.mpr hfit)
  exact exec_of_body (i := .openCtx L R total) h hbody

/-! ### CLOSE (R262, R264) -/

theorem exec_close_closes {s : State} {c : Context} (h : Claims.Serves s c) (hp : c.phase ≠ .closed) :
    exec .closeCtx s = .next (s.commit
      { s.work c with c := { c with phase := .closed, buf := [], prev := [] }, lut := s.lut.release } .okay) := by
  rcases closeCommand_cases (s.work c) with ⟨hclosed, -⟩ | ⟨-, hbody⟩
  · exact absurd hclosed hp
  · exact exec_of_body (i := .closeCtx) h hbody

theorem exec_close_twice {s : State} {c : Context} (h : Claims.Serves s c) (hp : c.phase = .closed) :
    exec .closeCtx s = .next (s.commit
      { s.work c with c := { c with fault := some (.doubleClose s.ctx) } } (.faulted (.doubleClose s.ctx))) := by
  rcases closeCommand_cases (s.work c) with ⟨-, hbody⟩ | ⟨hopen, -⟩
  · exact exec_of_body (i := .closeCtx) h hbody
  · exact absurd hp hopen

end Sys2Proof.Machine
end

section
/-! The statements of the family 44_lifecycle.md. -/

namespace Sys2Proof.Claims

open Sys2Proof Sys2Proof.Machine

/-- Settles O47: OPEN's three outcomes; the registers are wide enough for the geometry OPEN derives. -/
theorem openSetsTheGeometry : Obligations.OpenSetsTheGeometry := by
  refine fun L R total s c hserves => ⟨fun hp => exec_open_turnedAway hserves hp L R total,
    fun hp hlarge => exec_open_tooLarge hserves hp hlarge total, fun hp hfit => ?_⟩
  have ⟨_, hfault, hrefused⟩ := hserves
  obtain ⟨hS, hBW, hT, -⟩ := c.opened_geometry total hfit
  have hfresh (h : s.lut.openCount = 0) : s.lut.acquire.openCount = 1 ∧ s.lut.acquire.present = true ∧
      s.lut.acquire.e = none ∧ ∀ k, s.lut.acquire.read? k = none := by
    rw [LutUnit.acquire_fresh h]
    exact ⟨rfl, rfl, rfl, fun _ => rfl⟩
  exact ⟨c.opened L R total, s.lut.acquire, exec_open_opens hserves hp hfit total, rfl, rfl, hS, rfl, hBW, hT, rfl,
    rfl, rfl, rfl, fun _ => rfl, fun _ => rfl, hfault, hrefused, rfl, rfl, hfresh, LutUnit.acquire_shared⟩

/-- Settles O48: CLOSE's outcomes; the count before it says whether it was the last open context. -/
theorem closeReleasesTheLut : Obligations.CloseReleasesTheLut := by
  refine fun s c hserves => ⟨fun hp hlast => ?_, fun hp hshared => ?_, exec_close_twice hserves⟩
  · rw [exec_close_closes hserves hp, LutUnit.release_last hlast]
    rfl
  · rw [exec_close_closes hserves hp, LutUnit.release_shared hshared]
    rfl

end Sys2Proof.Claims
end

section
/-! SUPPORT. The phase legality of the commands (R303): the table's cells in the terms of the commands' own checks, and
what each command's body answers by its cell. -/

namespace Sys2Proof.Machine

open Sys2Proof Sys2Proof.Claims

/-! ### What a command can answer once its phase allows it -/

/-- The response of a command that has not been turned away: OK, FAIL_BAND, REFUSED, or a fault other than code 2,
which is F_DOUBLE_CLOSE (R300, R301). -/
def Response.completed (r : Response) : Prop :=
  match r with
  | .status st _ => st = .ok ∨ st = .failBand
  | .faulted f => f.code ≠ 2
  | .refused => True

theorem Response.okay_completed : Response.okay.completed := .inl rfl

theorem Response.completed_not_phaseRefusal {r : Response} (h : r.completed) :
    r ≠ .bare .errState ∧ r ≠ .bare .empty ∧ ∀ n, r ≠ .faulted (.doubleClose n) := by
  refine ⟨?_, ?_, fun n => ?_⟩ <;> rintro rfl <;> simp [Response.completed, Response.bare, FaultRecord.code] at h

/-- A band's rule is never turned away (R150). -/
theorem bandOutcome_completed {w : Work} {out : Work × Response} (h : bandOutcome w out) : out.2.completed := by
  rcases h with ⟨w', -, -, rfl⟩ | ⟨f, w', -, hcode, rfl⟩ | rfl | rfl
  · exact Response.okay_completed
  · exact hcode
  · exact trivial
  · exact .inr rfl

/-- FILL from its first band on answers what its last band answers, or OK (R242). -/
theorem fillBands_completed (n : Nat) (w : Work) : (fillBands n w).2.completed := by
  induction n generalizing w with
  | zero => exact Response.okay_completed
  | succ n ih =>
    rw [fillBands_succ]
    split
    · exact ih _
    · exact bandOutcome_completed (bandDispatch_outcome _ _)

/-! ### The cells of the table, as each command checks its phase (R303)

`delta` opens the table: the equations `simp` would derive for its last row are too many. -/

theorem phaseTable_scale (e : BitVec 4) (x : BitVec 16) (w : Work) :
    phaseTable (.scale e x) w.ctx w.c = if w.mayStartBlock then none else some (.bare .errState) := by
  delta phaseTable
  cases hp : w.c.phase <;> simp [Work.mayStartBlock, Work.drained, hp]

theorem phaseTable_lookup (idx : BitVec 17) (w : Work) :
    phaseTable (.lookup idx) w.ctx w.c = if w.inPhase .closed then some (.bare .errState) else none := by
  delta phaseTable
  cases hp : w.c.phase <;> simp [Work.inPhase, hp]

theorem phaseTable_untransform (w : Work) :
    phaseTable .untransform w.ctx w.c =
      if w.inPhase .filling && decide (w.c.nextBand = w.c.S.toNat) then none else some (.bare .errState) := by
  delta phaseTable
  cases hp : w.c.phase <;> simp [Work.inPhase, hp]

theorem phaseTable_pop (w : Work) :
    phaseTable .pop w.ctx w.c =
      if w.inPhase .closed then some (.bare .errState)
      else if !w.inPhase .idle || w.drained then some (.bare .empty) else none := by
  delta phaseTable
  cases hp : w.c.phase <;> simp [Work.inPhase, Work.drained, hp]

theorem phaseTable_fill (w : Work) :
    phaseTable .fill w.ctx w.c =
      if !w.mayStartBlock then some (.bare .errState)
      else if w.c.remaining = 0 then some (.bare .empty) else none := by
  delta phaseTable
  cases hp : w.c.phase with
  | idle => by_cases hd : w.c.outPos = w.c.outCount <;> simp [Work.mayStartBlock, Work.drained, hp, hd]
  | _ => simp [Work.mayStartBlock, hp]

theorem phaseTable_open (L : BitVec 4) (R : BitVec 12) (total : BitVec 32) (w : Work) :
    phaseTable (.openCtx L R total) w.ctx w.c = if !w.inPhase .closed then some (.bare .errState) else none := by
  delta phaseTable
  cases hp : w.c.phase <;> simp [Work.inPhase, hp]

theorem phaseTable_close (w : Work) :
    phaseTable .closeCtx w.ctx w.c =
      if w.inPhase .closed then some (.faulted (.doubleClose w.ctx)) else none := by
  delta phaseTable
  cases hp : w.c.phase <;> simp [Work.inPhase, hp]

/-- All format codes share one row of the table. The table asks `next_band` to be below S and BAND asks it not to be S,
which agree where the cursor is in its range (R28). -/
theorem phaseTable_band {i : Instr} {code : BitVec 5} (h : i.bandCode = some code) {w : Work}
    (hcursor : w.c.nextBand ≤ w.c.S.toNat) :
    phaseTable i w.ctx w.c = if w.awaitsBand then none else some (.bare .errState) := by
  have hrow : phaseTable i w.ctx w.c = phaseTable .bandZ w.ctx w.c := by
    cases i with
    | scale | lookup | untransform | pop | fill | openCtx | closeCtx => cases h
    | _ => rfl
  rw [hrow]
  delta phaseTable
  cases hp : w.c.phase with
  | filling =>
    by_cases hs : w.c.nextBand = w.c.S.toNat
    · simp [Work.awaitsBand, Work.inPhase, hp, hs]
    · simp [Work.awaitsBand, Work.inPhase, hp, hs, Nat.lt_of_le_of_ne hcursor hs]
  | _ => simp [Work.awaitsBand, Work.inPhase, hp]

/-! ### Each command body -/

/-- What a command's body can do under a cell of the phase table. -/
inductive PhaseOutcome (w : Work) : Option Response → Work × Response → Prop where
  /-- The phase turns the command away, and nothing changes. -/
  | turnedAway (st : Status) : PhaseOutcome w (some (.bare st)) (w, .bare st)
  /-- CLOSE on a CLOSED context records its fault (R264). -/
  | doubleClose : PhaseOutcome w (some (.faulted (.doubleClose w.ctx))) (w.recordFault (.doubleClose w.ctx))
  /-- The phase allows the command; OPEN or LOOKUP turns it away by its operands, and nothing changes (R133, R260). -/
  | declined {st : Status} (h : st = .errAlloc ∨ st = .window) : PhaseOutcome w none (w, .bare st)
  /-- The command runs. -/
  | ran {out : Work × Response} (h : out.2.completed) : PhaseOutcome w none out

theorem scaleCommand_phaseOutcome (e : BitVec 4) (x : BitVec 16) (w : Work) :
    PhaseOutcome w (phaseTable (.scale e x) w.ctx w.c) (scaleCommand e x w) := by
  rw [phaseTable_scale, scaleCommand]
  split
  · exact .ran Response.okay_completed
  · exact .turnedAway .errState

theorem lookupCommand_phaseOutcome (idx : BitVec 17) (w : Work) :
    PhaseOutcome w (phaseTable (.lookup idx) w.ctx w.c) (lookupCommand idx w) := by
  rw [phaseTable_lookup, lookupCommand]
  split
  · exact .turnedAway .errState
  · split
    · exact .ran (.inl rfl)
    · exact .declined (.inr rfl)

theorem bandCommand_phaseOutcome (code : BitVec 5) (w : Work) :
    PhaseOutcome w (if w.awaitsBand then none else some (.bare .errState)) (bandCommand (bandDispatch code) w) := by
  rw [bandCommand]
  split
  · exact .ran (bandOutcome_completed (bandDispatch_outcome code w))
  · exact .turnedAway .errState

theorem untransformCommand_phaseOutcome (w : Work) :
    PhaseOutcome w (phaseTable .untransform w.ctx w.c) (untransformCommand w) := by
  rw [phaseTable_untransform, untransformCommand]
  split
  · exact .ran Response.okay_completed
  · exact .turnedAway .errState

theorem popCommand_phaseOutcome (w : Work) : PhaseOutcome w (phaseTable .pop w.ctx w.c) (popCommand w) := by
  rw [phaseTable_pop, popCommand]
  split
  · exact .turnedAway .errState
  · split
    · exact .turnedAway .empty
    · exact .ran (.inl rfl)

theorem fillCommand_phaseOutcome (w : Work) : PhaseOutcome w (phaseTable .fill w.ctx w.c) (fillCommand w) := by
  rw [phaseTable_fill, fillCommand]
  split
  · exact .turnedAway .errState
  · split
    · exact .turnedAway .empty
    · exact .ran (fillBands_completed _ _)

theorem openCommand_phaseOutcome (L : BitVec 4) (R : BitVec 12) (total : BitVec 32) (w : Work) :
    PhaseOutcome w (phaseTable (.openCtx L R total) w.ctx w.c) (openCommand L R total w) := by
  rw [phaseTable_open, openCommand]
  split
  · exact .turnedAway .errState
  · split
    · exact .declined (.inl rfl)
    · exact .ran Response.okay_completed

theorem closeCommand_phaseOutcome (w : Work) :
    PhaseOutcome w (phaseTable .closeCtx w.ctx w.c) (closeCommand w) := by
  rw [phaseTable_close, closeCommand]
  split
  · exact .doubleClose
  · exact .ran Response.okay_completed

/-- Every command's body answers by its cell of the table, where `next_band` is in its range (R28, R303). -/
theorem commandBody_phaseOutcome (i : Instr) {w : Work} (hcursor : w.c.nextBand ≤ w.c.S.toNat) :
    PhaseOutcome w (phaseTable i w.ctx w.c) (commandBody i w) := by
  cases hcode : i.bandCode with
  | some code =>
    rw [phaseTable_band hcode hcursor, commandBody_of_bandCode hcode]
    exact bandCommand_phaseOutcome code w
  | none =>
    cases i with
    | scale e x => exact scaleCommand_phaseOutcome e x w
    | lookup idx => exact lookupCommand_phaseOutcome idx w
    | untransform => exact untransformCommand_phaseOutcome w
    | pop => exact popCommand_phaseOutcome w
    | fill => exact fillCommand_phaseOutcome w
    | openCtx L R total => exact openCommand_phaseOutcome L R total w
    | closeCtx => exact closeCommand_phaseOutcome w
    | _ => cases hcode

/-- In any state at all a command's body is turned away with nothing changed, takes F_DOUBLE_CLOSE, or runs. -/
theorem commandBody_hasPhaseOutcome (i : Instr) : ∀ w : Work, ∃ cell, PhaseOutcome w cell (commandBody i w) :=
  commandBody_cases (P := fun body => ∀ w : Work, ∃ cell, PhaseOutcome w cell (body w))
    (scale := fun e x w => ⟨_, scaleCommand_phaseOutcome e x w⟩)
    (lookup := fun idx w => ⟨_, lookupCommand_phaseOutcome idx w⟩)
    (band := fun code w => ⟨_, bandCommand_phaseOutcome code w⟩)
    (untransform := fun w => ⟨_, untransformCommand_phaseOutcome w⟩)
    (pop := fun w => ⟨_, popCommand_phaseOutcome w⟩)
    (fill := fun w => ⟨_, fillCommand_phaseOutcome w⟩)
    (openCtx := fun L R total w => ⟨_, openCommand_phaseOutcome L R total w⟩)
    (closeCtx := fun w => ⟨_, closeCommand_phaseOutcome w⟩) i

/-- A body that answers a status other than OK and FAIL_BAND has changed nothing, and the status has no data (R300,
R308). -/
theorem PhaseOutcome.eq_turnedAway {w : Work} {cell : Option Response} {out : Work × Response}
    (h : PhaseOutcome w cell out) {st : Status} {d : Half} (hst : out.2 = .status st d) (hok : st ≠ .ok)
    (hfail : st ≠ .failBand) : out = (w, .bare st) := by
  cases h with
  | turnedAway st' =>
    cases hst
    rfl
  | doubleClose => cases hst
  | declined _ =>
    cases hst
    rfl
  | ran hdone =>
    rw [hst] at hdone
    exact (hdone.elim hok hfail).elim

end Sys2Proof.Machine
end

section
/-! The statements of the family 60_exceptions.md. -/

namespace Sys2Proof.Claims

open Sys2Proof Sys2Proof.Machine

/-- Settles O12: the gate changes nothing but the response, and a body that is turned away leaves all as it was. -/
theorem turnedAwayStatusChangesNothing : Obligations.TurnedAwayStatusChangesNothing := by
  intro i s t st d h hresp hok hfail
  rw [exec_eq_runCommand] at h
  cases h
  rcases runCommand_cases s (commandBody i) with ⟨-, e⟩ | ⟨_, _, -, -, e⟩ | ⟨_, -, -, -, e⟩ | ⟨c, hc, -, -, e⟩ <;>
    rw [e] at hresp ⊢
  · cases hresp
    rfl
  · cases hresp
  · cases hresp
  · obtain ⟨_, hbody⟩ := commandBody_hasPhaseOutcome i (s.work c)
    rw [hbody.eq_turnedAway (Option.some.inj hresp) hok hfail, State.commit_work hc]
    rfl

/-- Settles O13: every command's body answers by its cell, and the gate lets a command through to an unmarked
context. -/
theorem phaseLegalityTable : Obligations.PhaseLegalityTable := by
  intro i s c hserves hcursor
  have hbody : PhaseOutcome (s.work c) (phaseTable i s.ctx c) (commandBody i (s.work c)) :=
    commandBody_phaseOutcome i hcursor
  generalize phaseTable i s.ctx c = cell at hbody ⊢
  generalize hout : commandBody i (s.work c) = out at hbody
  have hexec : exec i s = .next (s.commit out.1 out.2) := exec_of_body hserves hout
  cases hbody with
  | turnedAway st => rwa [State.commit_work hserves.1] at hexec
  | doubleClose => exact ⟨_, hexec, rfl⟩
  | declined hst => exact ⟨_, hexec, by rcases hst with rfl | rfl <;> simp [Response.bare]⟩
  | ran hdone => exact ⟨_, hexec, by simpa using Response.completed_not_phaseRefusal hdone⟩

/-- Settles O11: with K contexts there is none at the number K or above it, which is what the gate checks first. -/
theorem contextNumberAtOrAboveKIsErrCmd : Obligations.ContextNumberAtOrAboveKIsErrCmd := by
  intro i s hsized hK
  have hnone : s.contexts[s.ctx]? = none := List.getElem?_eq_none (hsized.le.trans hK)
  rw [exec_eq_runCommand, runCommand_noContext hnone]
  rfl

end Sys2Proof.Claims
end

section
/-! SUPPORT. A port that offers no whole command (R304, R342), and what power-on reset leaves of the contexts and of the
LUT unit (R340). -/

namespace Sys2Proof.Machine

open Sys2Proof

/-! ### Waiting for a command (R304, R342) -/

/-- SSB waits for as long as the port's words are not yet a whole command. -/
theorem fetch_eq_waiting {s : State}
    (h : decode (s.port.map PortWord.word) = .error .noWord ∨
      decode (s.port.map PortWord.word) = .error .noSecondWord) : fetch s = .waiting := by
  unfold fetch
  split
  · rfl
  · rcases h with h | h <;> rw [h]

/-- With opcode 7, legal bits and nothing after it, a word is the front of an OPEN that has not arrived (R95). -/
theorem decode_legal_open_alone {w : Word} (hop : opcodeOf w = 7#4) (hw : Claims.legalWord w) :
    decode [w] = .error .noSecondWord := by
  have hlt : w.toNat < 2 ^ 20 := by simpa [Claims.legalWord, hop] using hw
  rw [← openWord_of_fields hop hlt]
  exact decode_openWord_alone _ _

theorem step_of_waiting {s : State} (h : fetch s = .waiting) : step s = .next s := by
  rw [step, h]

/-! ### Power-on reset (R340) -/

theorem eq_reset_of_mem_resetWith {cfg : Config} {c : Context} (h : c ∈ (State.resetWith cfg).contexts) : c = .reset :=
  List.eq_of_mem_replicate h

/-- There is one context for each number below K (R20). -/
theorem resetWith_sized (cfg : Config) : (State.resetWith cfg).sized :=
  List.length_replicate

/-- No context is open until the first OPEN (R36, R340). -/
theorem not_live_of_mem_resetWith {cfg : Config} {c : Context} (h : c ∈ (State.resetWith cfg).contexts) : ¬ c.live := by
  rw [eq_reset_of_mem_resetWith h]
  exact fun hlive => hlive.1 rfl

theorem openContexts_resetWith (cfg : Config) : openContexts (State.resetWith cfg).contexts = 0 := by
  rw [openContexts, List.length_eq_zero_iff, List.filter_eq_nil_iff]
  intro c hc
  simp [eq_reset_of_mem_resetWith hc, Context.reset]

/-- Absent storage that nobody holds (R24, R340). -/
theorem LutUnit.reset_held : LutUnit.reset.held :=
  ⟨iff_of_false Bool.false_ne_true (Nat.lt_irrefl 0), fun _ => ⟨rfl, rfl⟩⟩

theorem resetWith_refCounted (cfg : Config) : (State.resetWith cfg).refCounted :=
  (State.refCounted_iff _).mpr ⟨(openContexts_resetWith cfg).symm, LutUnit.reset_held⟩

theorem resetWith_filled (cfg : Config) : (State.resetWith cfg).filled :=
  fun _ hc hlive => (not_live_of_mem_resetWith hc hlive).elim

theorem resetWith_bounded (cfg : Config) : (State.resetWith cfg).bounded :=
  fun _ hc hlive => (not_live_of_mem_resetWith hc hlive).elim

end Sys2Proof.Machine
end

section
/-! The statements of the family 70_reset_and_hazards.md. -/

namespace Sys2Proof.Claims

open Sys2Proof Sys2Proof.Machine

/-- Settles O6: the decoder finds no word 0 on an empty port, and no word 1 behind OPEN's word 0 alone. -/
theorem portWithoutACommandWaits : Obligations.PortWithoutACommandWaits := by
  refine ⟨fun s hport => step_of_waiting (fetch_eq_waiting (.inl ?_)),
    fun s p hport hop hw => step_of_waiting (fetch_eq_waiting (.inr ?_))⟩
  · rw [hport]
    rfl
  · rw [hport]
    exact decode_legal_open_alone hop hw

/-- Settles O55: no context is live at reset, none is counted, and the LUT unit and every buffer are empty. -/
theorem resetIsSafe : Obligations.ResetIsSafe := fun cfg =>
  ⟨resetWith_sized cfg, resetWith_refCounted cfg, LutUnit.windowWritten_of_empty rfl rfl, resetWith_memory_wf cfg,
    resetWith_filled cfg, resetWith_bounded cfg⟩

/-- Settles O56: every context at reset is the one reset context, and the LUT unit has no storage. -/
theorem powerOnResetValues : Obligations.PowerOnResetValues := by
  refine fun cfg => ⟨resetWith_sized cfg, fun c hc => ?_, rfl, rfl, rfl, rfl⟩
  rw [eq_reset_of_mem_resetWith hc]
  exact ⟨rfl, rfl, rfl, rfl, rfl⟩

end Sys2Proof.Claims
end
